-- ==== Sys2Proof/Word.lean ====
section
/-! DEFINITION. The widths the spec fixes (R7, R8): bytes, 32-bit words, the 64-bit digest. All values are unsigned. -/

namespace Sys2Proof

/-- A byte of the buffer, one lane of a word (R8). -/
abbrev Byte := BitVec 8

/-- A `u32` (R7, R8): accumulators, lengths, offsets, words read. -/
abbrev Word := BitVec 32

/-- The 64-bit digest (R7, R33). -/
abbrev Digest := BitVec 64

end Sys2Proof
end

