-- ==== Sys2Proof/Config.lean ====
section
/-! DEFINITION. What is fixed in the hardware (R7, R98) and the free values: what the spec leaves unspecified and a run
goes on with (R18). A free value has no body, so nothing can be proved of it. -/

namespace Sys2Proof.Config

/-- The free values drawn one after the other (R18): unspecified lanes (R130), unspecified host reads (R241 to R243),
registers whose reset value is unspecified (R281). The argument is the number of the draw (log entries 1, 7). -/
opaque freeWord : Nat → Word

/-- What the platform's memory holds at a buffer offset the host has not written (HD1 of R290): unspecified, and the
same however often it is read (R67). (Log entry 2.) -/
opaque unwrittenByte : Nat → Byte

/-- The seed constant `SEED_K` (R7). -/
def seedK : Word := 0xdeadbeef#32

/-- `BLOCK`, the bytes consumed in one loop iteration (R7). -/
def block : Word := 12#32

/-- The number of offsets a 32-bit offset can name (R37, D2). -/
def offsetSpace : Nat := 2 ^ 32

end Sys2Proof.Config
end

