-- ==== Sys2Proof/Syntax.lean ====
section
/-! DEFINITION. The operations of the core as syntax: one constructor per row of the opcode table, with the operands
R101 gives it. Bits a rule says are not looked at are no operand. -/

namespace Sys2Proof

/-- The core's four formats (R90): who decodes the word. -/
inductive Format where
  | seq    -- the dispatch word, 13 bits (R91)
  | host   -- the host access word, 35 bits (R95)
  | rdreq  -- the read request word, 37 bits (R96)
  | alu    -- the ALU control word, 8 bits (R97)
  deriving DecidableEq, Repr

/-- One operation of the core. -/
inductive Instr where
  | wait  -- WAIT (R234)
  | seed  -- SEED (R140)
  | select  -- SELECT (R141)
  | absorbW  -- ABSORB.W (R151)
  | absorbH  -- ABSORB.H (R170)
  | absorbB  -- ABSORB.B (R190)
  | tailW12  -- TAIL.W.12 (R152)
  | tailW11  -- TAIL.W.11 (R153)
  | tailW10  -- TAIL.W.10 (R154)
  | tailW9  -- TAIL.W.9 (R155)
  | tailW8  -- TAIL.W.8 (R156)
  | tailW7  -- TAIL.W.7 (R157)
  | tailW6  -- TAIL.W.6 (R158)
  | tailW5  -- TAIL.W.5 (R159)
  | tailW4  -- TAIL.W.4 (R160)
  | tailW3  -- TAIL.W.3 (R161)
  | tailW2  -- TAIL.W.2 (R162)
  | tailW1  -- TAIL.W.1 (R163)
  | tailW0  -- TAIL.W.0 (R164)
  | tailH12  -- TAIL.H.12 (R171)
  | tailH11  -- TAIL.H.11 (R172)
  | tailH10  -- TAIL.H.10 (R173)
  | tailH9  -- TAIL.H.9 (R174)
  | tailH8  -- TAIL.H.8 (R175)
  | tailH7  -- TAIL.H.7 (R176)
  | tailH6  -- TAIL.H.6 (R177)
  | tailH5  -- TAIL.H.5 (R178)
  | tailH4  -- TAIL.H.4 (R179)
  | tailH3  -- TAIL.H.3 (R180)
  | tailH2  -- TAIL.H.2 (R181)
  | tailH1  -- TAIL.H.1 (R182)
  | tailH0  -- TAIL.H.0 (R183)
  | tailB12  -- TAIL.B.12 (R191)
  | tailB11  -- TAIL.B.11 (R192)
  | tailB10  -- TAIL.B.10 (R193)
  | tailB9  -- TAIL.B.9 (R194)
  | tailB8  -- TAIL.B.8 (R195)
  | tailB7  -- TAIL.B.7 (R196)
  | tailB6  -- TAIL.B.6 (R197)
  | tailB5  -- TAIL.B.5 (R198)
  | tailB4  -- TAIL.B.4 (R199)
  | tailB3  -- TAIL.B.3 (R200)
  | tailB2  -- TAIL.B.2 (R201)
  | tailB1  -- TAIL.B.1 (R202)
  | tailB0  -- TAIL.B.0 (R203)
  | m1  -- M1 (R210)
  | m2  -- M2 (R211)
  | m3  -- M3 (R212)
  | m4  -- M4 (R213)
  | m5  -- M5 (R214)
  | m6  -- M6 (R215)
  | adv  -- ADV (R216)
  | f1  -- F1 (R221)
  | f2  -- F2 (R222)
  | f3  -- F3 (R223)
  | f4  -- F4 (R224)
  | f5  -- F5 (R225)
  | f6  -- F6 (R226)
  | f7  -- F7 (R227)
  | emit  -- EMIT (R228)
  | start  -- START (R235)
  | wrNop  -- WR.NOP (R236)
  | wrLen (v : Word)  -- WR.LEN (R237)
  | wrIgn  -- WR.IGN (R238)
  | rdCsr  -- RD.CSR (R242)
  | rdLen  -- RD.LEN (R239)
  | rdDigestLo  -- RD.DIGEST_LO (R241)
  | rdDigestHi  -- RD.DIGEST_HI (R243)
  | rd8 (off : Word)  -- RD8 (R136)
  | rd16 (v : BitVec 3) (off : Word)  -- RD16 (R138)
  | rd32 (v : BitVec 3) (off : Word)  -- RD32 (R139)
  | add  -- ADD (R120)
  | sub  -- SUB (R121)
  | xor  -- XOR (R122)
  | and  -- AND (R123)
  | rol (k : BitVec 5)  -- ROL (R124)
  deriving DecidableEq, Repr

/-- The format whose decoder selects the operation (R90). -/
def Instr.format : Instr → Format
  | .start => .host
  | .wrNop => .host
  | .wrLen _ => .host
  | .wrIgn => .host
  | .rdCsr => .host
  | .rdLen => .host
  | .rdDigestLo => .host
  | .rdDigestHi => .host
  | .rd8 _ => .rdreq
  | .rd16 _ _ => .rdreq
  | .rd32 _ _ => .rdreq
  | .add => .alu
  | .sub => .alu
  | .xor => .alu
  | .and => .alu
  | .rol _ => .alu
  | .wait | .seed | .select | .absorbW | .absorbH | .absorbB | .tailW12 | .tailW11 | .tailW10 | .tailW9 =>
    .seq
  | .tailW8 | .tailW7 | .tailW6 | .tailW5 | .tailW4 | .tailW3 | .tailW2 | .tailW1 | .tailW0 | .tailH12 =>
    .seq
  | .tailH11 | .tailH10 | .tailH9 | .tailH8 | .tailH7 | .tailH6 | .tailH5 | .tailH4 | .tailH3 | .tailH2 =>
    .seq
  | .tailH1 | .tailH0 | .tailB12 | .tailB11 | .tailB10 | .tailB9 | .tailB8 | .tailB7 | .tailB6 | .tailB5 =>
    .seq
  | .tailB4 | .tailB3 | .tailB2 | .tailB1 | .tailB0 | .m1 | .m2 | .m3 | .m4 | .m5 =>
    .seq
  | .m6 | .adv | .f1 | .f2 | .f3 | .f4 | .f5 | .f6 | .f7 | .emit =>
    .seq

end Sys2Proof
end

