-- ==== Sys2Proof/WellFormed.lean ====
section
/-! DEFINITION. Which operand values a word of the operation's format can hold. Only the reader's operations carry
operands with a condition (R96, R138, R139). -/

namespace Sys2Proof

/-- The operand conditions of R96: `1 <= v <= 2^size`, and `off` a multiple of `2^size`. A one-byte request always has
`v = 1`, which is why `rd8` has no `v` operand. -/
def Instr.wf : Instr → Bool
  | .rd16 v off => (v == 1#3 || v == 2#3) && (off.toNat % 2 == 0)
  | .rd32 v off => (v == 1#3 || v == 2#3 || v == 3#3 || v == 4#3) && (off.toNat % 4 == 0)
  | .rd8 _ => true | .wrLen _ => true | .rol _ => true
  | .wait | .seed | .select | .absorbW | .absorbH | .absorbB | .tailW12 | .tailW11 => true
  | .tailW10 | .tailW9 | .tailW8 | .tailW7 | .tailW6 | .tailW5 | .tailW4 | .tailW3 => true
  | .tailW2 | .tailW1 | .tailW0 | .tailH12 | .tailH11 | .tailH10 | .tailH9 | .tailH8 => true
  | .tailH7 | .tailH6 | .tailH5 | .tailH4 | .tailH3 | .tailH2 | .tailH1 | .tailH0 => true
  | .tailB12 | .tailB11 | .tailB10 | .tailB9 | .tailB8 | .tailB7 | .tailB6 | .tailB5 => true
  | .tailB4 | .tailB3 | .tailB2 | .tailB1 | .tailB0 | .m1 | .m2 | .m3 => true
  | .m4 | .m5 | .m6 | .adv | .f1 | .f2 | .f3 | .f4 => true
  | .f5 | .f6 | .f7 | .emit | .start | .wrNop | .wrIgn | .rdCsr => true
  | .rdLen | .rdDigestLo | .rdDigestHi | .add | .sub | .xor | .and => true

end Sys2Proof
end

