-- ==== Sys2Proof/Decode.lean ====
section
/-! DEFINITION. The four decoders (R90 to R97), total, each rejecting the reserved values of R99 by name; then the
encoder, written from the match values of the opcode table; then the one entry the opcode table's numbering needs. -/

namespace Sys2Proof

/-- Why a word selects no operation. -/
inductive DecodeError where
  /-- A reserved dispatch word (R99). -/
  | reservedDispatch
  /-- `size = 3` (R99). -/
  | reservedReadSize
  /-- `v = 0` or `v > 2^size` (R99). -/
  | reservedValidCount
  /-- `off` no multiple of `2^size` (R96): never issued (R64). -/
  | misalignedOffset
  /-- `fn` in 5..7 (R99). -/
  | reservedAluFunction
  /-- More bits than the format has (R90, R100). -/
  | wordTooWide
  deriving DecidableEq, Repr

/-! ## Format SEQ -/

/-- The dispatch word by its fields (R91). -/
structure DispatchWord where
  ph   : BitVec 3
  st   : BitVec 3
  path : BitVec 2
  gt12 : Bool
  l4   : BitVec 4
  deriving DecidableEq, Repr

/-- The dispatch word as 13 bits, `ph` highest (R91). -/
def DispatchWord.pack (d : DispatchWord) : BitVec 13 :=
  d.ph ++ d.st ++ d.path ++ BitVec.ofBool d.gt12 ++ d.l4

/-- The fields of a 13-bit dispatch word (R91). -/
def DispatchWord.unpack (w : BitVec 13) : DispatchWord :=
  { ph := w.extractLsb' 10 3, st := w.extractLsb' 7 3, path := w.extractLsb' 5 2, gt12 := w.getLsbD 4,
    l4 := w.extractLsb' 0 4 }

/-- The rows of R92 with `ph = 3`, `path = 2`, `gt12 = 0`. -/
def decodeTailW : Nat → Except DecodeError Instr
  | 0 => .ok .tailW0
  | 1 => .ok .tailW1
  | 2 => .ok .tailW2
  | 3 => .ok .tailW3
  | 4 => .ok .tailW4
  | 5 => .ok .tailW5
  | 6 => .ok .tailW6
  | 7 => .ok .tailW7
  | 8 => .ok .tailW8
  | 9 => .ok .tailW9
  | 10 => .ok .tailW10
  | 11 => .ok .tailW11
  | 12 => .ok .tailW12
  | _ => .error .reservedDispatch

/-- The rows of R92 with `ph = 3`, `path = 1`, `gt12 = 0`. -/
def decodeTailH : Nat → Except DecodeError Instr
  | 0 => .ok .tailH0
  | 1 => .ok .tailH1
  | 2 => .ok .tailH2
  | 3 => .ok .tailH3
  | 4 => .ok .tailH4
  | 5 => .ok .tailH5
  | 6 => .ok .tailH6
  | 7 => .ok .tailH7
  | 8 => .ok .tailH8
  | 9 => .ok .tailH9
  | 10 => .ok .tailH10
  | 11 => .ok .tailH11
  | 12 => .ok .tailH12
  | _ => .error .reservedDispatch

/-- The rows of R92 with `ph = 3`, `path = 0`, `gt12 = 0`. -/
def decodeTailB : Nat → Except DecodeError Instr
  | 0 => .ok .tailB0
  | 1 => .ok .tailB1
  | 2 => .ok .tailB2
  | 3 => .ok .tailB3
  | 4 => .ok .tailB4
  | 5 => .ok .tailB5
  | 6 => .ok .tailB6
  | 7 => .ok .tailB7
  | 8 => .ok .tailB8
  | 9 => .ok .tailB9
  | 10 => .ok .tailB10
  | 11 => .ok .tailB11
  | 12 => .ok .tailB12
  | _ => .error .reservedDispatch

/-- The rows of R92 with `ph = 3`: the path first, then `gt12`, then the tail length. -/
def decodeLoop (path : BitVec 2) (gt12 : Bool) (l4 : BitVec 4) : Except DecodeError Instr :=
  match path.toNat, gt12 with
  | 0, true => .ok .absorbB
  | 1, true => .ok .absorbH
  | 2, true => .ok .absorbW
  | 0, false => decodeTailB l4.toNat
  | 1, false => decodeTailH l4.toNat
  | 2, false => decodeTailW l4.toNat
  | _, _ => .error .reservedDispatch

/-- The rows of R92 with `ph = 4`. -/
def decodeMix : Nat → Except DecodeError Instr
  | 1 => .ok .m1
  | 2 => .ok .m2
  | 3 => .ok .m3
  | 4 => .ok .m4
  | 5 => .ok .m5
  | 6 => .ok .m6
  | 7 => .ok .adv
  | _ => .error .reservedDispatch

/-- The rows of R92 with `ph = 5`. -/
def decodeFinal : Nat → Except DecodeError Instr
  | 1 => .ok .f1
  | 2 => .ok .f2
  | 3 => .ok .f3
  | 4 => .ok .f4
  | 5 => .ok .f5
  | 6 => .ok .f6
  | 7 => .ok .f7
  | _ => .error .reservedDispatch

/-- The dispatch of R92: the phase first, and only the fields the selected row looks at. -/
def decodeDispatch (d : DispatchWord) : Except DecodeError Instr :=
  match d.ph.toNat with
  | 0 => .ok .wait
  | 1 => .ok .seed
  | 2 => .ok .select
  | 3 => decodeLoop d.path d.gt12 d.l4
  | 4 => decodeMix d.st.toNat
  | 5 => decodeFinal d.st.toNat
  | 6 => .ok .emit
  | _ => .error .reservedDispatch

/-- The operation a 13-bit dispatch word selects (R91, R92). -/
def decodeSeq (w : BitVec 13) : Except DecodeError Instr := decodeDispatch (DispatchWord.unpack w)

/-! ## Format HOST -/

/-- The operation a host access selects (R95): every word selects one. -/
def decodeHost (hw : BitVec 35) : Instr :=
  match hw.getLsbD 34, (hw.extractLsb' 32 2).toNat with
  | true, 0 => if hw.getLsbD 0 then .start else .wrNop
  | true, 1 => .wrLen (hw.extractLsb' 0 32)
  | true, _ => .wrIgn
  | false, 0 => .rdCsr
  | false, 1 => .rdLen
  | false, 2 => .rdDigestLo
  | false, _ => .rdDigestHi

/-! ## Format RDREQ -/

/-- A read request (R68, R96). -/
structure ReadReq where
  size : BitVec 2
  v    : BitVec 3
  off  : Word
  deriving DecidableEq, Repr

/-- `n = 2^size`, the bytes a request spans (R68). -/
def ReadReq.bytes (r : ReadReq) : Nat := 2 ^ r.size.toNat

/-- What R96 lets a request be: `size` not reserved, `1 <= v <= 2^size`, `off` a multiple of `2^size`. -/
def ReadReq.legal (r : ReadReq) : Bool :=
  r.size != 3#2 && decide (1 ≤ r.v.toNat) && decide (r.v.toNat ≤ r.bytes) && (r.off.toNat % r.bytes == 0)

/-- The request as 37 bits, `size` highest (R96). -/
def ReadReq.pack (r : ReadReq) : BitVec 37 := r.size ++ r.v ++ r.off

/-- The fields of a 37-bit request word (R96). -/
def ReadReq.unpack (rr : BitVec 37) : ReadReq :=
  { size := rr.extractLsb' 35 2, v := rr.extractLsb' 32 3, off := rr.extractLsb' 0 32 }

/-- The reader operation a request selects (R96, R99, R136, R138, R139). -/
def decodeReadReq (r : ReadReq) : Except DecodeError Instr :=
  if r.size = 3#2 then .error .reservedReadSize
  else if r.v.toNat = 0 || decide (r.bytes < r.v.toNat) then .error .reservedValidCount
  else if r.off.toNat % r.bytes ≠ 0 then .error .misalignedOffset
  else match r.size.toNat with
    | 0 => .ok (.rd8 r.off)
    | 1 => .ok (.rd16 r.v r.off)
    | _ => .ok (.rd32 r.v r.off)

/-- The reader operation a 37-bit request word selects. -/
def decodeRead (rr : BitVec 37) : Except DecodeError Instr := decodeReadReq (ReadReq.unpack rr)

/-! ## Format ALU -/

/-- The ALU function a control word selects (R97); `k` is looked at by `ROL` alone. -/
def decodeAlu (aw : BitVec 8) : Except DecodeError Instr :=
  match (aw.extractLsb' 5 3).toNat with
  | 0 => .ok .add
  | 1 => .ok .sub
  | 2 => .ok .xor
  | 3 => .ok .and
  | 4 => .ok (.rol (aw.extractLsb' 0 5))
  | _ => .error .reservedAluFunction

/-! ## Any word of a format -/

/-- The bits a word of the format has (R90). -/
def Format.width : Format → Nat
  | .seq => 13
  | .host => 35
  | .rdreq => 37
  | .alu => 8

/-- The operation a word of the format selects; a number of more bits than the format has is no word of it. -/
def decode (f : Format) (w : Nat) : Except DecodeError Instr :=
  if 2 ^ f.width ≤ w then .error .wordTooWide
  else match f with
    | .seq => decodeSeq (BitVec.ofNat 13 w)
    | .host => .ok (decodeHost (BitVec.ofNat 35 w))
    | .rdreq => decodeRead (BitVec.ofNat 37 w)
    | .alu => decodeAlu (BitVec.ofNat 8 w)

/-! ## The encoder -/

/-- The row's `match` value in the opcode table, with the operands in their fields; bits the row does not look at are
0 (R91, R95, R96, R97). A word of the format `Instr.format` names. -/
def encode : Instr → Nat
  | .wait => 0x0000
  | .seed => 0x0400
  | .select => 0x0800
  | .absorbW => 0x0c50
  | .absorbH => 0x0c30
  | .absorbB => 0x0c10
  | .tailW12 => 0x0c4c
  | .tailW11 => 0x0c4b
  | .tailW10 => 0x0c4a
  | .tailW9 => 0x0c49
  | .tailW8 => 0x0c48
  | .tailW7 => 0x0c47
  | .tailW6 => 0x0c46
  | .tailW5 => 0x0c45
  | .tailW4 => 0x0c44
  | .tailW3 => 0x0c43
  | .tailW2 => 0x0c42
  | .tailW1 => 0x0c41
  | .tailW0 => 0x0c40
  | .tailH12 => 0x0c2c
  | .tailH11 => 0x0c2b
  | .tailH10 => 0x0c2a
  | .tailH9 => 0x0c29
  | .tailH8 => 0x0c28
  | .tailH7 => 0x0c27
  | .tailH6 => 0x0c26
  | .tailH5 => 0x0c25
  | .tailH4 => 0x0c24
  | .tailH3 => 0x0c23
  | .tailH2 => 0x0c22
  | .tailH1 => 0x0c21
  | .tailH0 => 0x0c20
  | .tailB12 => 0x0c0c
  | .tailB11 => 0x0c0b
  | .tailB10 => 0x0c0a
  | .tailB9 => 0x0c09
  | .tailB8 => 0x0c08
  | .tailB7 => 0x0c07
  | .tailB6 => 0x0c06
  | .tailB5 => 0x0c05
  | .tailB4 => 0x0c04
  | .tailB3 => 0x0c03
  | .tailB2 => 0x0c02
  | .tailB1 => 0x0c01
  | .tailB0 => 0x0c00
  | .m1 => 0x1080
  | .m2 => 0x1100
  | .m3 => 0x1180
  | .m4 => 0x1200
  | .m5 => 0x1280
  | .m6 => 0x1300
  | .adv => 0x1380
  | .f1 => 0x1480
  | .f2 => 0x1500
  | .f3 => 0x1580
  | .f4 => 0x1600
  | .f5 => 0x1680
  | .f6 => 0x1700
  | .f7 => 0x1780
  | .emit => 0x1800
  | .start => 0x400000001
  | .wrNop => 0x400000000
  | .wrLen v => 0x500000000 + v.toNat
  | .wrIgn => 0x600000000
  | .rdCsr => 0x000000000
  | .rdLen => 0x100000000
  | .rdDigestLo => 0x200000000
  | .rdDigestHi => 0x300000000
  | .rd8 off => 0x0100000000 + off.toNat
  | .rd16 v off => 0x0800000000 + v.toNat * 0x100000000 + off.toNat
  | .rd32 v off => 0x1000000000 + v.toNat * 0x100000000 + off.toNat
  | .add => 0x00
  | .sub => 0x20
  | .xor => 0x40
  | .and => 0x60
  | .rol k => 0x80 + k.toNat

/-- One row of the opcode table: the words `w` of the format with `w AND mask = match` (30_encoding.md). -/
structure TableRow where
  format : Format
  pattern : Nat
  mask : Nat
  deriving DecidableEq, Repr

/-- The opcode table's row of each operation. -/
def Instr.row : Instr → TableRow
  | .wait => ⟨.seq, 0x0000, 0x1c00⟩
  | .seed => ⟨.seq, 0x0400, 0x1c00⟩
  | .select => ⟨.seq, 0x0800, 0x1c00⟩
  | .absorbW => ⟨.seq, 0x0c50, 0x1c70⟩
  | .absorbH => ⟨.seq, 0x0c30, 0x1c70⟩
  | .absorbB => ⟨.seq, 0x0c10, 0x1c70⟩
  | .tailW12 => ⟨.seq, 0x0c4c, 0x1c7f⟩
  | .tailW11 => ⟨.seq, 0x0c4b, 0x1c7f⟩
  | .tailW10 => ⟨.seq, 0x0c4a, 0x1c7f⟩
  | .tailW9 => ⟨.seq, 0x0c49, 0x1c7f⟩
  | .tailW8 => ⟨.seq, 0x0c48, 0x1c7f⟩
  | .tailW7 => ⟨.seq, 0x0c47, 0x1c7f⟩
  | .tailW6 => ⟨.seq, 0x0c46, 0x1c7f⟩
  | .tailW5 => ⟨.seq, 0x0c45, 0x1c7f⟩
  | .tailW4 => ⟨.seq, 0x0c44, 0x1c7f⟩
  | .tailW3 => ⟨.seq, 0x0c43, 0x1c7f⟩
  | .tailW2 => ⟨.seq, 0x0c42, 0x1c7f⟩
  | .tailW1 => ⟨.seq, 0x0c41, 0x1c7f⟩
  | .tailW0 => ⟨.seq, 0x0c40, 0x1c7f⟩
  | .tailH12 => ⟨.seq, 0x0c2c, 0x1c7f⟩
  | .tailH11 => ⟨.seq, 0x0c2b, 0x1c7f⟩
  | .tailH10 => ⟨.seq, 0x0c2a, 0x1c7f⟩
  | .tailH9 => ⟨.seq, 0x0c29, 0x1c7f⟩
  | .tailH8 => ⟨.seq, 0x0c28, 0x1c7f⟩
  | .tailH7 => ⟨.seq, 0x0c27, 0x1c7f⟩
  | .tailH6 => ⟨.seq, 0x0c26, 0x1c7f⟩
  | .tailH5 => ⟨.seq, 0x0c25, 0x1c7f⟩
  | .tailH4 => ⟨.seq, 0x0c24, 0x1c7f⟩
  | .tailH3 => ⟨.seq, 0x0c23, 0x1c7f⟩
  | .tailH2 => ⟨.seq, 0x0c22, 0x1c7f⟩
  | .tailH1 => ⟨.seq, 0x0c21, 0x1c7f⟩
  | .tailH0 => ⟨.seq, 0x0c20, 0x1c7f⟩
  | .tailB12 => ⟨.seq, 0x0c0c, 0x1c7f⟩
  | .tailB11 => ⟨.seq, 0x0c0b, 0x1c7f⟩
  | .tailB10 => ⟨.seq, 0x0c0a, 0x1c7f⟩
  | .tailB9 => ⟨.seq, 0x0c09, 0x1c7f⟩
  | .tailB8 => ⟨.seq, 0x0c08, 0x1c7f⟩
  | .tailB7 => ⟨.seq, 0x0c07, 0x1c7f⟩
  | .tailB6 => ⟨.seq, 0x0c06, 0x1c7f⟩
  | .tailB5 => ⟨.seq, 0x0c05, 0x1c7f⟩
  | .tailB4 => ⟨.seq, 0x0c04, 0x1c7f⟩
  | .tailB3 => ⟨.seq, 0x0c03, 0x1c7f⟩
  | .tailB2 => ⟨.seq, 0x0c02, 0x1c7f⟩
  | .tailB1 => ⟨.seq, 0x0c01, 0x1c7f⟩
  | .tailB0 => ⟨.seq, 0x0c00, 0x1c7f⟩
  | .m1 => ⟨.seq, 0x1080, 0x1f80⟩
  | .m2 => ⟨.seq, 0x1100, 0x1f80⟩
  | .m3 => ⟨.seq, 0x1180, 0x1f80⟩
  | .m4 => ⟨.seq, 0x1200, 0x1f80⟩
  | .m5 => ⟨.seq, 0x1280, 0x1f80⟩
  | .m6 => ⟨.seq, 0x1300, 0x1f80⟩
  | .adv => ⟨.seq, 0x1380, 0x1f80⟩
  | .f1 => ⟨.seq, 0x1480, 0x1f80⟩
  | .f2 => ⟨.seq, 0x1500, 0x1f80⟩
  | .f3 => ⟨.seq, 0x1580, 0x1f80⟩
  | .f4 => ⟨.seq, 0x1600, 0x1f80⟩
  | .f5 => ⟨.seq, 0x1680, 0x1f80⟩
  | .f6 => ⟨.seq, 0x1700, 0x1f80⟩
  | .f7 => ⟨.seq, 0x1780, 0x1f80⟩
  | .emit => ⟨.seq, 0x1800, 0x1c00⟩
  | .start => ⟨.host, 0x400000001, 0x700000001⟩
  | .wrNop => ⟨.host, 0x400000000, 0x700000001⟩
  | .wrLen _ => ⟨.host, 0x500000000, 0x700000000⟩
  | .wrIgn => ⟨.host, 0x600000000, 0x600000000⟩
  | .rdCsr => ⟨.host, 0x000000000, 0x700000000⟩
  | .rdLen => ⟨.host, 0x100000000, 0x700000000⟩
  | .rdDigestLo => ⟨.host, 0x200000000, 0x700000000⟩
  | .rdDigestHi => ⟨.host, 0x300000000, 0x700000000⟩
  | .rd8 _ => ⟨.rdreq, 0x0000000000, 0x1800000000⟩
  | .rd16 _ _ => ⟨.rdreq, 0x0800000000, 0x1800000000⟩
  | .rd32 _ _ => ⟨.rdreq, 0x1000000000, 0x1800000000⟩
  | .add => ⟨.alu, 0x00, 0xe0⟩
  | .sub => ⟨.alu, 0x20, 0xe0⟩
  | .xor => ⟨.alu, 0x40, 0xe0⟩
  | .and => ⟨.alu, 0x60, 0xe0⟩
  | .rol _ => ⟨.alu, 0x80, 0xe0⟩

/-! ## The opcode table's numbering -/

/-- Which format a table word of `nbits` bits (in whole bytes, or the format's own width) is of. HOST and RDREQ words
both take five bytes, and no bit tells them apart (R90: they come from different places): a word whose bits 39..35 are
0 is taken as a host access, any other as a read request (log entry 9). -/
def tableFormat (nbits w : Nat) : Option Format :=
  if nbits = 16 || nbits = 13 then some .seq
  else if nbits = 8 then some .alu
  else if nbits = 35 then some .host
  else if nbits = 37 then some .rdreq
  else if nbits = 40 then (if w < 2 ^ 35 then some .host else some .rdreq)
  else none

/-- The operation the table's word selects, `none` where the decoder rejects it. -/
def decodeTableWord (nbits w : Nat) : Option Instr :=
  match tableFormat nbits w with
  | none => none
  | some f => match decode f w with
    | .ok i => some i
    | .error _ => none

end Sys2Proof
end

