-- ==== Sys2Proof/Machine/State.lean ====
section
/-! DEFINITION. The state of the core (R20), of the platform around it, and of the model's own ports; the reasons a step
can stop; the state right after reset (R281). Plain data throughout. -/

namespace Sys2Proof.Machine

/-- The platform's memory behind the read port, by buffer offset (R37, R60): offsets strictly rising, a byte nobody has
written not listed. -/
abbrev Memory := List Host.Cell

/-- One input of the machine (R14): which agent moves in the next step, and with what. -/
inductive Event where
  /-- The sequencer performs one operation (R92). -/
  | sequencer
  /-- The host makes one register access (R95). -/
  | host (hw : BitVec 35)
  /-- The reader performs one request on its own (R96). -/
  | read (rr : BitVec 37)
  /-- The ALU is given a control word and two operands (R97). -/
  | alu (aw : BitVec 8) (x y : Word)
  /-- The reset input becomes active (R280). -/
  | assertReset
  /-- The reset input becomes inactive (R280). -/
  | releaseReset
  /-- The host writes one byte of the buffer (R60, R61). -/
  | writeBuffer (off : Word) (value : Byte)
  /-- From now on the platform answers the requests whose valid bytes lie below offset `n` (R68, R252). -/
  | serve (n : Nat)
  deriving DecidableEq, Repr

/-- A word by its four byte lanes, lane 0 least significant (R8, R62). -/
structure Lanes where
  l0 : Byte
  l1 : Byte
  l2 : Byte
  l3 : Byte
  deriving DecidableEq, Repr

/-- Why a machine stops. -/
inductive Fault where
  /-- A dispatch word that selects no operation: the state is stuck (R99). Raised by the sequencer's step; no run from
  reset gets there. Safe: the spec asks for a stuck state. -/
  | stuckReservedDispatch
  deriving DecidableEq, Repr

/-- Why the model gives a step no meaning. -/
inductive Refusal where
  /-- An operation that has no meaning in the model yet. None is left. Safe. -/
  | notModelled (mnemonic : String)
  /-- The host changed a byte of the running job's buffer (R61, U7). Raised by the buffer write. Safe: R61 asks for it. -/
  | bufferChangedWhileBusy
  /-- A request word R96 and R99 do not let the reader issue. Raised by a read input. Safe. -/
  | reservedReadRequest
  /-- A control word with `fn` in 5..7 (R99). Raised by an ALU input. Safe. -/
  | reservedAluControl
  deriving DecidableEq, Repr

/-- The whole state. -/
structure State where
  /-- Accumulators (R21). -/
  a : Word
  b : Word
  c : Word
  /-- Length of the job's buffer (R24). -/
  N : Word
  /-- Remaining length (R25). -/
  L : Word
  /-- Cursor (R26). -/
  cur : Word
  /-- Traversal path, 0 B, 1 H, 2 W, 3 never written (R34). -/
  path : BitVec 2
  /-- First word (R35). -/
  fw : Word
  /-- The words being added (R36). -/
  w0 : Word
  w1 : Word
  w2 : Word
  /-- Sequencer phase and stage (R23). -/
  ph : BitVec 3
  st : BitVec 3
  /-- Result (R33). -/
  digest : Digest
  /-- Status bits (R30). -/
  BUSY : Bool
  DONE : Bool
  /-- Host register `LEN` (R32). -/
  LEN : Word
  /-- The request issued and not yet answered (R38). -/
  rq : Option ReadReq
  /-- The model's own: the answers the operation the sequencer is in has had to its first requests; none between two
  operations (R38, R68; log entry 17). -/
  answers : List Lanes
  /-- The model's own: the request outstanding is one run alone, not one of the sequencer's (log entries 11, 17). -/
  rqAlone : Bool
  /-- The buffer as the platform holds it (R60). -/
  mem : Memory
  /-- How many offsets the platform answers (R68, R252; log entry 3). -/
  served : Nat
  /-- The level of the reset input (R280; log entry 4). -/
  rst : Bool
  /-- The model's own: what the last host read returned (R95). -/
  rdata : Word
  /-- The model's own: what the last reader operation run alone returned (R130). -/
  readData : Word
  /-- The model's own: the ALU's operands and result (R97, R125). -/
  aluX : Word
  aluY : Word
  aluOut : Word
  /-- The model's own: the requests answered, in order of issue (R71). -/
  readLog : List ReadReq
  /-- The model's own: how many free values have been drawn (R18). -/
  draws : Nat
  /-- The model's own: the inputs still to come (R292). -/
  agenda : List Event
  deriving DecidableEq, Repr

/-- The state right after reset (R281). The unspecified registers hold free values, none of which can be known (log
entry 1); the buffer is not written yet and no input is waiting. -/
def State.reset : State where
  a := Config.freeWord 0
  b := Config.freeWord 1
  c := Config.freeWord 2
  N := Config.freeWord 3
  L := Config.freeWord 4
  cur := Config.freeWord 5
  path := (Config.freeWord 6).extractLsb' 0 2
  fw := Config.freeWord 7
  w0 := Config.freeWord 8
  w1 := Config.freeWord 9
  w2 := Config.freeWord 10
  ph := 0#3
  st := 0#3
  digest := Config.freeWord 11 ++ Config.freeWord 12
  BUSY := false
  DONE := false
  LEN := 0#32
  rq := none
  answers := []
  rqAlone := false
  mem := []
  served := Config.offsetSpace
  rst := false
  rdata := Config.freeWord 13
  readData := Config.freeWord 14
  aluX := Config.freeWord 15
  aluY := Config.freeWord 16
  aluOut := Config.freeWord 17
  readLog := []
  draws := 18
  agenda := []

end Sys2Proof.Machine
end

