-- ==== Sys2Proof/Machine/Flags.lean ====
section
/-! DEFINITION. The core has no condition codes (R28). What stands in their place: the predicates that steer the
sequencer (R29), computed when needed, and the status word a read of `CSR` returns (R30, R31). -/

namespace Sys2Proof.Machine

/-- `gt12`: the loop test `L > 12`, unsigned, on all 32 bits (R29, R150). -/
def gt12 (L : Word) : Bool := decide (Config.block.toNat < L.toNat)

/-- `sel_w`: the two low bits are `00` (R29, R142). -/
def selW {n : Nat} (x : BitVec n) : Bool := !x.getLsbD 1 && !x.getLsbD 0

/-- `sel_h`: not `sel_w`, and the low bit is 0, that is the two low bits are `10` (R29, R142). -/
def selH {n : Nat} (x : BitVec n) : Bool := x.getLsbD 1 && !x.getLsbD 0

/-- The output `done` (R244). -/
def State.done (s : State) : Bool := s.DONE

/-- The read side of `CSR` with a given `PATH` field: bit 0 `BUSY`, bit 1 `DONE`, bits 3:2 `PATH`, the rest 0 (R31, R242). -/
def statusWord (BUSY DONE : Bool) (path : BitVec 2) : Word :=
  0#28 ++ path ++ BitVec.ofBool DONE ++ BitVec.ofBool BUSY

/-- The dispatch word, formed afresh from the registers (R91). -/
def State.dispatch (s : State) : DispatchWord :=
  { ph := s.ph, st := s.st, path := s.path, gt12 := gt12 s.L, l4 := s.L.extractLsb' 0 4 }

end Sys2Proof.Machine
end

