-- ==== Sys2Proof/Machine/Ops.lean ====
section
/-! DEFINITION. The shared operations: the ALU's five functions (R120 to R124), the stages Mix and Final are made of
(R210 to R227), the buffer's memory, free values, and reset (R280). The core takes no exception (R250): reset is the one
event that diverts it. -/

namespace Sys2Proof.Machine

/-! ## The ALU -/

/-- `add32` (R120): the sum modulo 2^32, the carry dropped. -/
def add32 (x y : Word) : Word := x + y

/-- `sub32` (R121): the difference modulo 2^32, the borrow dropped. -/
def sub32 (x y : Word) : Word := x - y

/-- `xor32` (R122). -/
def xor32 (x y : Word) : Word := x ^^^ y

/-- `and32` (R123). -/
def and32 (x y : Word) : Word := x &&& y

/-- `rol32` (R124): `(x << k) | (x >> (32 - k))`, and `x` for `k = 0`. The core's amounts are 1 to 31. -/
def rol32 (x : Word) (k : Nat) : Word := if k = 0 then x else (x <<< k) ||| (x >>> (32 - k))

/-- What one line of Mix leaves: `x -= y; x ^= rot(y,k); y += z` (R210 to R215). First the new `x`, then the new `y`. -/
def mixStage (x y z : Word) (k : Nat) : Word × Word := (xor32 (sub32 x y) (rol32 y k), add32 y z)

/-- What one line of Final leaves in `x`: `x ^= y; x -= rot(y,k)` (R221 to R227). -/
def finalStage (x y : Word) (k : Nat) : Word := sub32 (xor32 x y) (rol32 y k)

/-! ## The buffer's memory -/

/-- The byte at an offset; an unlisted offset reads as no byte at all (nobody has written it). -/
def Memory.read : Memory → Nat → Option Byte
  | [], _ => none
  | (k, v) :: m, off => if off = k then some v else Memory.read m off

/-- Write one byte, keeping the offsets strictly rising. -/
def Memory.write : Memory → Nat → Byte → Memory
  | [], off, value => [(off, value)]
  | (k, v) :: m, off, value =>
    if off < k then (off, value) :: (k, v) :: m
    else if off = k then (off, value) :: m
    else (k, v) :: Memory.write m off value

/-- Every listed offset is above `lo`, rising, and inside the offset space. -/
def Memory.risesAbove : Memory → Nat → Bool
  | [], _ => true
  | (k, _) :: m, lo => decide (lo < k) && decide (k < Config.offsetSpace) && Memory.risesAbove m k

/-- The canonical form: offsets strictly rising, all of 32 bits. -/
def Memory.wf : Memory → Bool
  | [] => true
  | (k, _) :: m => decide (k < Config.offsetSpace) && Memory.risesAbove m k

/-- `Buf(off)` (R60): what the platform's memory holds at the offset, an unspecified byte where nobody has written
(HD1; log entry 2). -/
def State.bufByte (s : State) (off : Nat) : Byte := (Memory.read s.mem off).getD (Config.unwrittenByte off)

/-- Where the platform's answers end: below this offset every byte is served (log entry 3). -/
def State.limit (s : State) : Nat := min s.served Config.offsetSpace

/-- The host writes one byte of the buffer. A change of a byte of the running job's buffer has no meaning (R61, U7); a
write of the byte that is there already is no change. -/
def writeBuffer (off : Word) (value : Byte) (s : State) : Host.Outcome State Fault Refusal :=
  if s.BUSY && decide (off.toNat < s.N.toNat) && decide (Memory.read s.mem off.toNat ≠ some value) then
    .refused .bufferChangedWhileBusy
  else .next { s with mem := Memory.write s.mem off.toNat value }

/-! ## Free values -/

/-- The next free value (R18). -/
def State.nextFree (s : State) : Word := Config.freeWord s.draws

/-! ## Reset -/

/-- The effect of reset on the core, all at once (R280): control state to its reset value, an outstanding read
abandoned, every other register of the core unspecified. The platform's buffer is not the core's. -/
def resetCore (s : State) : State :=
  { s with
    ph := 0#3, st := 0#3, BUSY := false, DONE := false, LEN := 0#32, rq := none, answers := [], rqAlone := false,
    a := Config.freeWord s.draws, b := Config.freeWord (s.draws + 1), c := Config.freeWord (s.draws + 2),
    N := Config.freeWord (s.draws + 3), L := Config.freeWord (s.draws + 4), cur := Config.freeWord (s.draws + 5),
    path := (Config.freeWord (s.draws + 6)).extractLsb' 0 2, fw := Config.freeWord (s.draws + 7),
    w0 := Config.freeWord (s.draws + 8), w1 := Config.freeWord (s.draws + 9), w2 := Config.freeWord (s.draws + 10),
    digest := Config.freeWord (s.draws + 11) ++ Config.freeWord (s.draws + 12),
    draws := s.draws + 13 }

/-- The reset input becomes active: the core is reset, and stays so until the input is released (R280). -/
def assertReset (s : State) : State := { resetCore s with rst := true }

/-- The reset input becomes inactive: nothing else changes (R280). -/
def releaseReset (s : State) : State := { s with rst := false }

end Sys2Proof.Machine
end

