-- ==== Sys2Proof/Machine/Operands.lean ====
section
/-! DEFINITION. The little-endian word reader (R130 to R139): requests, their answers, the three word compositions and
the tail masks, and the two shapes of operation built on them, ABSORB and TAIL (R151, R165, R184, R204). -/

namespace Sys2Proof.Machine

/-! ## Words by lanes -/

/-- The word whose lanes they are. -/
def Lanes.word (l : Lanes) : Word := l.l3 ++ l.l2 ++ l.l1 ++ l.l0

/-- Lanes `0 .. v-1` kept and the rest cleared: what `and32 (.., mask v)` leaves (R123, R135). -/
def Lanes.keep (l : Lanes) (v : Nat) : Lanes :=
  ⟨if 0 < v then l.l0 else 0#8, if 1 < v then l.l1 else 0#8, if 2 < v then l.l2 else 0#8, if 3 < v then l.l3 else 0#8⟩

/-- `mask(v)` (R135); no other `v` is ever asked for. -/
def mask (v : Nat) : Word :=
  if v ≤ 1 then 0x000000FF#32 else if v = 2 then 0x0000FFFF#32 else if v = 3 then 0x00FFFFFF#32 else 0xFFFFFFFF#32

/-! ## One request and its answer -/

/-- Lane `i` of the answer to a request (R68, R130): the buffer's byte below `v`, an unspecified byte up to `n`, zero
above. `free` is the draw the unspecified lanes of this answer come from. -/
def answerLane (s : State) (free : Word) (r : ReadReq) (i : Nat) : Byte :=
  if i < r.v.toNat then s.bufByte (r.off.toNat + i)
  else if i < r.bytes then free.extractLsb' (8 * i) 8
  else 0#8

/-- The answer to a request, by lanes. -/
def answerLanes (s : State) (free : Word) (r : ReadReq) : Lanes :=
  ⟨answerLane s free r 0, answerLane s free r 1, answerLane s free r 2, answerLane s free r 3⟩

/-- `MemReadV` (R130): the word an answered request returns, its unspecified lanes from the draw `free`. -/
def memReadV (s : State) (free : Word) (r : ReadReq) : Word := (answerLanes s free r).word

/-- The platform answers a request when its valid bytes lie in what it serves (R68, R252; log entry 3). -/
def State.serves (s : State) (r : ReadReq) : Bool := decide (r.off.toNat + r.v.toNat ≤ s.limit)

/-- Issue a request, the sequencer's or one run alone (R68): it is outstanding from now on. -/
def issueRead (alone : Bool) (r : ReadReq) (s : State) : State := { s with rq := some r, rqAlone := alone }

/-- An answer given to the one who asked: kept for the sequencer's operation, returned by a request run alone. -/
def deliver (l : Lanes) (s : State) : State :=
  if s.rqAlone then { s with readData := l.word, rqAlone := false } else { s with answers := s.answers ++ [l] }

/-- Wait for the answer to the outstanding request (R68): the state with the answer given, or nothing while the platform
does not answer. With no request outstanding there is nothing to wait for. Each answer uses up the draw of its
unspecified lanes. -/
def receive (s : State) : Option State :=
  match s.rq with
  | none => some s
  | some r =>
    if s.serves r then
      some (deliver (answerLanes s s.nextFree r)
        { s with rq := none, readLog := s.readLog ++ [r], draws := s.draws + 1 })
    else none

/-- What the reads of an operation come to: all the answers, or the state in which the core waits for one. -/
inductive ReadOutcome (α : Type) where
  | waiting (s : State)
  | answered (data : α) (s : State)

/-- Requests issued one after the other, each after the answer to the one before (R68, R71); with the last answer the
operation has all of them. -/
def issueAll : List ReadReq → State → ReadOutcome (List Lanes)
  | [], s => .answered s.answers { s with answers := [] }
  | r :: rs, s =>
    match receive (issueRead false r s) with
    | none => .waiting (issueRead false r s)
    | some t => issueAll rs t

/-- The reads of the sequencer's operation, whether it begins or is taken up again: the request outstanding is answered
first, and then those not yet issued are (R68). A request answered once is not made again (R65). -/
def readAll (rs : List ReadReq) (s : State) : ReadOutcome (List Lanes) :=
  match receive s with
  | none => .waiting s
  | some t => issueAll (rs.drop t.answers.length) t

/-! ## Word composition -/

/-- The three traversal paths (R12). -/
inductive Path where
  | B
  | H
  | W
  deriving DecidableEq, Repr

/-- The code of a path in the `path` register (R34). -/
def Path.code : Path → BitVec 2
  | .B => 0#2
  | .H => 1#2
  | .W => 2#2

/-- `RD8 off` as a request (R136). -/
def rd8Req (off : Word) : ReadReq := ⟨0#2, 1#3, off⟩

/-- `RD16 off` as a request (R138). -/
def rd16Req (off : Word) : ReadReq := ⟨1#2, 2#3, off⟩

/-- `RD32 off, v` as a request (R139). -/
def rd32Req (off : Word) (v : Nat) : ReadReq := ⟨2#2, BitVec.ofNat 3 v, off⟩

/-- The reads of the word of `v` bytes at offset `o`, in order (R132, R133, R134). -/
def wordReads (p : Path) (o : Word) (v : Nat) : List ReadReq :=
  match p with
  | .W => [rd32Req o v]
  | .H =>
    match v with
    | 1 => [rd8Req o]
    | 2 => [rd16Req o]
    | 3 => [rd16Req o, rd8Req (o + 2#32)]
    | _ => [rd16Req o, rd16Req (o + 2#32)]
  | .B =>
    match v with
    | 1 => [rd8Req o]
    | 2 => [rd8Req o, rd8Req (o + 1#32)]
    | 3 => [rd8Req o, rd8Req (o + 1#32), rd8Req (o + 2#32)]
    | _ => [rd8Req o, rd8Req (o + 1#32), rd8Req (o + 2#32), rd8Req (o + 3#32)]

/-- The word composed from the answers (R132, R133, R134): whole on the word path, `lo + (hi << 16)` from two answers,
`k0 | k1 << 8 | k2 << 16 | k3 << 24` from bytes. -/
def composeWord : Path → List Lanes → Word
  | .W, l :: _ => l.word
  | .H, [lo] => lo.word
  | .H, lo :: hi :: _ => add32 lo.word (hi.word <<< 16)
  | .B, [k0] => k0.word
  | .B, [k0, k1] => k0.word ||| (k1.word <<< 8)
  | .B, [k0, k1, k2] => k0.word ||| (k1.word <<< 8) ||| (k2.word <<< 16)
  | .B, k0 :: k1 :: k2 :: k3 :: _ => k0.word ||| (k1.word <<< 8) ||| (k2.word <<< 16) ||| (k3.word <<< 24)
  | _, [] => 0#32

/-- The composed word with its mask applied (R135, R137): `and32 (Word_p, mask v)`. On the word path it is taken lane by
lane, which is the same word (`Laws.maskedWord_eq`) and drops the unspecified lanes before any arithmetic. -/
def maskedWord (p : Path) (v : Nat) (ls : List Lanes) : Word :=
  match p, ls with
  | .W, l :: _ => (l.keep v).word
  | _, _ => and32 (composeWord p ls) (mask v)

/-- One word of a block or tail: the value as read, for its `w` register, and the value to add. -/
structure BlockWord where
  value : Word
  addend : Word
  deriving DecidableEq, Repr

/-- The reads of the words at the given offsets with the given counts of valid bytes, in order (R71). -/
def readsOf (p : Path) (ws : List (Word × Nat)) : List ReadReq := ws.flatMap fun x => wordReads p x.1 x.2

/-- The words composed from the answers to those reads. -/
def composeWords (p : Path) : List (Word × Nat) → List Lanes → List BlockWord
  | [], _ => []
  | (o, v) :: rest, ls =>
    let k := (wordReads p o v).length
    ⟨composeWord p (ls.take k), maskedWord p v (ls.take k)⟩ :: composeWords p rest (ls.drop k)

/-- Put the words read into `w0`, `w1`, `w2` and add them to `a`, `b`, `c`, the first to the first; an accumulator whose
word takes no part is not changed (R165). -/
def addWords (ws : List BlockWord) (s : State) : State :=
  match ws with
  | [] => s
  | [x] => { s with w0 := x.value, a := add32 s.a x.addend }
  | [x, y] => { s with w0 := x.value, w1 := y.value, a := add32 s.a x.addend, b := add32 s.b y.addend }
  | x :: y :: z :: _ =>
    { s with
      w0 := x.value, w1 := y.value, w2 := z.value,
      a := add32 s.a x.addend, b := add32 s.b y.addend, c := add32 s.c z.addend }

/-- The offsets and valid counts of the words of a tail of length `n` (R135): `v_i = min(4, n - 4i)` for `4i < n`. -/
def tailWords (cur : Word) (n : Nat) : List (Word × Nat) :=
  if n = 0 then []
  else if n ≤ 4 then [(cur, n)]
  else if n ≤ 8 then [(cur, 4), (cur + 4#32, n - 4)]
  else [(cur, 4), (cur + 4#32, 4), (cur + 8#32, n - 8)]

/-- The offsets and valid counts of the words of a block (R151). -/
def blockWords (cur : Word) : List (Word × Nat) := [(cur, 4), (cur + 4#32, 4), (cur + 8#32, 4)]

/-- ABSORB on a path (R151, R170, R190): twelve bytes as three whole words, then M1. While a read is not answered the
core waits in the operation (R68). -/
def absorb (p : Path) (s : State) : Host.Outcome State Fault Refusal :=
  match readAll (readsOf p (blockWords s.cur)) s with
  | .waiting t => .next t
  | .answered ls t =>
    .next { addWords ((composeWords p (blockWords s.cur) ls).map fun x => ⟨x.value, x.value⟩) t with ph := 4#3, st := 1#3 }

/-- TAIL on a path with `n >= 1` bytes left (R165, R184, R204): its words, masked, then F1. -/
def tail (p : Path) (n : Nat) (s : State) : Host.Outcome State Fault Refusal :=
  match readAll (readsOf p (tailWords s.cur n)) s with
  | .waiting t => .next t
  | .answered ls t => .next { addWords (composeWords p (tailWords s.cur n) ls) t with ph := 5#3, st := 1#3 }

/-- TAIL with no byte left (R164, R183, R203): Final is skipped. -/
def tailEmpty (s : State) : Host.Outcome State Fault Refusal := .next { s with ph := 6#3, st := 0#3 }

/-- A request run alone when none is outstanding: issued, and its answer returned or waited for (R68, R130). -/
def requestAlone (r : ReadReq) (s : State) : State := (receive (issueRead true r s)).getD (issueRead true r s)

/-- A reader operation run alone (R130, R136, R138, R139). A request that is outstanding comes first (R68): while it is
not answered nothing happens; if it is this very operation's, its answer ends the operation (log entry 11). -/
def readAlone (r : ReadReq) (s : State) : Host.Outcome State Fault Refusal :=
  match receive s with
  | none => .next s
  | some t => if s.rqAlone && decide (s.rq = some r) then .next t else .next (requestAlone r t)

end Sys2Proof.Machine
end

