-- ==== Sys2Proof/Machine/AluOps.lean ====
section
/-! DEFINITION. The ALU's functions run alone on the operands the ALU is given (R120 to R125). -/

namespace Sys2Proof.Machine

/-- `ADD` (R120). -/
def execAdd (s : State) : Host.Outcome State Fault Refusal := .next { s with aluOut := add32 s.aluX s.aluY }

/-- `SUB` (R121). -/
def execSub (s : State) : Host.Outcome State Fault Refusal := .next { s with aluOut := sub32 s.aluX s.aluY }

/-- `XOR` (R122). -/
def execXor (s : State) : Host.Outcome State Fault Refusal := .next { s with aluOut := xor32 s.aluX s.aluY }

/-- `AND` (R123). -/
def execAnd (s : State) : Host.Outcome State Fault Refusal := .next { s with aluOut := and32 s.aluX s.aluY }

/-- `ROL k` (R124): `x` alone is used. -/
def execRol (k : BitVec 5) (s : State) : Host.Outcome State Fault Refusal := .next { s with aluOut := rol32 s.aluX k.toNat }

end Sys2Proof.Machine
end

