-- ==== Sys2Proof/Machine/BytePath.lean ====
section
/-! DEFINITION. ABSORB.B and TAIL.B.12 to TAIL.B.0 (1-byte reads; R190, R191 to R203). Each is the one form of
R204 at its length. -/

namespace Sys2Proof.Machine

/-- `ABSORB.B` (R190). -/
def execAbsorbB (s : State) : Host.Outcome State Fault Refusal := absorb .B s

/-- `TAIL.B.12` (R191). -/
def execTailB12 (s : State) : Host.Outcome State Fault Refusal := tail .B 12 s

/-- `TAIL.B.11` (R192). -/
def execTailB11 (s : State) : Host.Outcome State Fault Refusal := tail .B 11 s

/-- `TAIL.B.10` (R193). -/
def execTailB10 (s : State) : Host.Outcome State Fault Refusal := tail .B 10 s

/-- `TAIL.B.9` (R194). -/
def execTailB9 (s : State) : Host.Outcome State Fault Refusal := tail .B 9 s

/-- `TAIL.B.8` (R195). -/
def execTailB8 (s : State) : Host.Outcome State Fault Refusal := tail .B 8 s

/-- `TAIL.B.7` (R196). -/
def execTailB7 (s : State) : Host.Outcome State Fault Refusal := tail .B 7 s

/-- `TAIL.B.6` (R197). -/
def execTailB6 (s : State) : Host.Outcome State Fault Refusal := tail .B 6 s

/-- `TAIL.B.5` (R198). -/
def execTailB5 (s : State) : Host.Outcome State Fault Refusal := tail .B 5 s

/-- `TAIL.B.4` (R199). -/
def execTailB4 (s : State) : Host.Outcome State Fault Refusal := tail .B 4 s

/-- `TAIL.B.3` (R200). -/
def execTailB3 (s : State) : Host.Outcome State Fault Refusal := tail .B 3 s

/-- `TAIL.B.2` (R201). -/
def execTailB2 (s : State) : Host.Outcome State Fault Refusal := tail .B 2 s

/-- `TAIL.B.1` (R202). -/
def execTailB1 (s : State) : Host.Outcome State Fault Refusal := tail .B 1 s

/-- `TAIL.B.0` (R203). -/
def execTailB0 (s : State) : Host.Outcome State Fault Refusal := tailEmpty s

end Sys2Proof.Machine
end

