-- ==== Sys2Proof/Machine/Final.lean ====
section
/-! DEFINITION. F1 to F7, one line of Final each (R221 to R227). -/

namespace Sys2Proof.Machine

/-- `F1` (R221): `c ^= b; c -= rot(b,14)`. -/
def execF1 (s : State) : Host.Outcome State Fault Refusal :=
  .next { s with c := finalStage s.c s.b 14, st := 2#3 }

/-- `F2` (R222): `a ^= c; a -= rot(c,11)`. -/
def execF2 (s : State) : Host.Outcome State Fault Refusal :=
  .next { s with a := finalStage s.a s.c 11, st := 3#3 }

/-- `F3` (R223): `b ^= a; b -= rot(a,25)`. -/
def execF3 (s : State) : Host.Outcome State Fault Refusal :=
  .next { s with b := finalStage s.b s.a 25, st := 4#3 }

/-- `F4` (R224): `c ^= b; c -= rot(b,16)`. -/
def execF4 (s : State) : Host.Outcome State Fault Refusal :=
  .next { s with c := finalStage s.c s.b 16, st := 5#3 }

/-- `F5` (R225): `a ^= c; a -= rot(c,4)`. -/
def execF5 (s : State) : Host.Outcome State Fault Refusal :=
  .next { s with a := finalStage s.a s.c 4, st := 6#3 }

/-- `F6` (R226): `b ^= a; b -= rot(a,14)`. -/
def execF6 (s : State) : Host.Outcome State Fault Refusal :=
  .next { s with b := finalStage s.b s.a 14, st := 7#3 }

/-- `F7` (R227): `c ^= b; c -= rot(b,24)`. -/
def execF7 (s : State) : Host.Outcome State Fault Refusal :=
  .next { s with c := finalStage s.c s.b 24, ph := 6#3, st := 0#3 }

end Sys2Proof.Machine
end

