-- ==== Sys2Proof/Machine/HalfwordPath.lean ====
section
/-! DEFINITION. ABSORB.H and TAIL.H.12 to TAIL.H.0 (2-byte reads; R170, R171 to R183). Each is the one form of
R184 at its length. -/

namespace Sys2Proof.Machine

/-- `ABSORB.H` (R170). -/
def execAbsorbH (s : State) : Host.Outcome State Fault Refusal := absorb .H s

/-- `TAIL.H.12` (R171). -/
def execTailH12 (s : State) : Host.Outcome State Fault Refusal := tail .H 12 s

/-- `TAIL.H.11` (R172). -/
def execTailH11 (s : State) : Host.Outcome State Fault Refusal := tail .H 11 s

/-- `TAIL.H.10` (R173). -/
def execTailH10 (s : State) : Host.Outcome State Fault Refusal := tail .H 10 s

/-- `TAIL.H.9` (R174). -/
def execTailH9 (s : State) : Host.Outcome State Fault Refusal := tail .H 9 s

/-- `TAIL.H.8` (R175). -/
def execTailH8 (s : State) : Host.Outcome State Fault Refusal := tail .H 8 s

/-- `TAIL.H.7` (R176). -/
def execTailH7 (s : State) : Host.Outcome State Fault Refusal := tail .H 7 s

/-- `TAIL.H.6` (R177). -/
def execTailH6 (s : State) : Host.Outcome State Fault Refusal := tail .H 6 s

/-- `TAIL.H.5` (R178). -/
def execTailH5 (s : State) : Host.Outcome State Fault Refusal := tail .H 5 s

/-- `TAIL.H.4` (R179). -/
def execTailH4 (s : State) : Host.Outcome State Fault Refusal := tail .H 4 s

/-- `TAIL.H.3` (R180). -/
def execTailH3 (s : State) : Host.Outcome State Fault Refusal := tail .H 3 s

/-- `TAIL.H.2` (R181). -/
def execTailH2 (s : State) : Host.Outcome State Fault Refusal := tail .H 2 s

/-- `TAIL.H.1` (R182). -/
def execTailH1 (s : State) : Host.Outcome State Fault Refusal := tail .H 1 s

/-- `TAIL.H.0` (R183). -/
def execTailH0 (s : State) : Host.Outcome State Fault Refusal := tailEmpty s

end Sys2Proof.Machine
end

