-- ==== Sys2Proof/Machine/HostOps.lean ====
section
/-! DEFINITION. The eight host operations (R234 to R243). A read changes nothing of the core (R240); what it returns is
left in `rdata`. An unspecified value read is a free value, fresh at every read (R241 to R243). -/

namespace Sys2Proof.Machine

/-- A host read that returns a specified value. -/
def returnValue (x : Word) (s : State) : Host.Outcome State Fault Refusal := .next { s with rdata := x }

/-- A host read that returns an unspecified value `x`, made from the next free value, which is used up. -/
def returnFree (x : Word) (s : State) : Host.Outcome State Fault Refusal := .next { s with rdata := x, draws := s.draws + 1 }

/-- `START` (R235): accepted while `BUSY = 0`, dropped otherwise. -/
def execStart (s : State) : Host.Outcome State Fault Refusal :=
  if s.BUSY then .next s else .next { s with N := s.LEN, BUSY := true, DONE := false, ph := 1#3 }

/-- `WR.NOP` (R236). -/
def execWrNop (s : State) : Host.Outcome State Fault Refusal := .next s

/-- `WR.LEN v` (R237). -/
def execWrLen (v : Word) (s : State) : Host.Outcome State Fault Refusal := .next { s with LEN := v }

/-- `WR.IGN` (R238). -/
def execWrIgn (s : State) : Host.Outcome State Fault Refusal := .next s

/-- `RD.CSR` (R242): `PATH` is unspecified while `DONE = 0`. -/
def execRdCsr (s : State) : Host.Outcome State Fault Refusal :=
  if s.DONE then returnValue (statusWord s.BUSY s.DONE s.path) s
  else returnFree (statusWord s.BUSY s.DONE (s.nextFree.extractLsb' 0 2)) s

/-- `RD.LEN` (R239). -/
def execRdLen (s : State) : Host.Outcome State Fault Refusal := returnValue s.LEN s

/-- `RD.DIGEST_LO` (R241): unspecified while `DONE = 0`. -/
def execRdDigestLo (s : State) : Host.Outcome State Fault Refusal :=
  if s.DONE then returnValue (s.digest.extractLsb' 0 32) s else returnFree s.nextFree s

/-- `RD.DIGEST_HI` (R243): unspecified while `DONE = 0`. -/
def execRdDigestHi (s : State) : Host.Outcome State Fault Refusal :=
  if s.DONE then returnValue (s.digest.extractLsb' 32 32) s else returnFree s.nextFree s

/-- A host access while reset is asserted (R280, U5): a write is lost, a read returns an unspecified value. -/
def hostDuringReset (hw : BitVec 35) (s : State) : Host.Outcome State Fault Refusal :=
  if hw.getLsbD 34 then .next s else returnFree s.nextFree s

end Sys2Proof.Machine
end

