-- ==== Sys2Proof/Machine/Mix.lean ====
section
/-! DEFINITION. M1 to M6, one line of Mix each, and ADV (R210 to R216). -/

namespace Sys2Proof.Machine

/-- `M1` (R210): `a -= c; a ^= rot(c,4); c += b`. -/
def execM1 (s : State) : Host.Outcome State Fault Refusal :=
  .next { s with a := (mixStage s.a s.c s.b 4).1, c := (mixStage s.a s.c s.b 4).2, st := 2#3 }

/-- `M2` (R211): `b -= a; b ^= rot(a,6); a += c`. -/
def execM2 (s : State) : Host.Outcome State Fault Refusal :=
  .next { s with b := (mixStage s.b s.a s.c 6).1, a := (mixStage s.b s.a s.c 6).2, st := 3#3 }

/-- `M3` (R212): `c -= b; c ^= rot(b,8); b += a`. -/
def execM3 (s : State) : Host.Outcome State Fault Refusal :=
  .next { s with c := (mixStage s.c s.b s.a 8).1, b := (mixStage s.c s.b s.a 8).2, st := 4#3 }

/-- `M4` (R213): `a -= c; a ^= rot(c,16); c += b`. -/
def execM4 (s : State) : Host.Outcome State Fault Refusal :=
  .next { s with a := (mixStage s.a s.c s.b 16).1, c := (mixStage s.a s.c s.b 16).2, st := 5#3 }

/-- `M5` (R214): `b -= a; b ^= rot(a,19); a += c`. -/
def execM5 (s : State) : Host.Outcome State Fault Refusal :=
  .next { s with b := (mixStage s.b s.a s.c 19).1, a := (mixStage s.b s.a s.c 19).2, st := 6#3 }

/-- `M6` (R215): `c -= b; c ^= rot(b,4); b += a`. -/
def execM6 (s : State) : Host.Outcome State Fault Refusal :=
  .next { s with c := (mixStage s.c s.b s.a 4).1, b := (mixStage s.c s.b s.a 4).2, st := 7#3 }

/-- `ADV` (R216): integer arithmetic on the length registers; in a job neither update wraps (R27). -/
def execAdv (s : State) : Host.Outcome State Fault Refusal :=
  .next { s with L := s.L - Config.block, cur := s.cur + Config.block, ph := 3#3, st := 0#3 }

end Sys2Proof.Machine
end

