-- ==== Sys2Proof/Machine/ReaderOps.lean ====
section
/-! DEFINITION. The reader's operations run alone (R136, R138, R139). -/

namespace Sys2Proof.Machine

/-- `RD8 off` (R136). -/
def execRd8 (off : Word) (s : State) : Host.Outcome State Fault Refusal := readAlone (rd8Req off) s

/-- `RD16 off` (R138); `v = 2` in every request the core issues, and R96 lets a request say 1. -/
def execRd16 (v : BitVec 3) (off : Word) (s : State) : Host.Outcome State Fault Refusal := readAlone ⟨1#2, v, off⟩ s

/-- `RD32 off, v` (R139). -/
def execRd32 (v : BitVec 3) (off : Word) (s : State) : Host.Outcome State Fault Refusal := readAlone ⟨2#2, v, off⟩ s

end Sys2Proof.Machine
end

