-- ==== Sys2Proof/Machine/SeedSelect.lean ====
section
/-! DEFINITION. WAIT, SEED, SELECT and EMIT: the operations that open and close a job (R140 to R146, R228, R234). -/

namespace Sys2Proof.Machine

/-- `WAIT` (R234): nothing; the sequencer stays where it is. -/
def execWait (s : State) : Host.Outcome State Fault Refusal := .next s

/-- `SEED` (R140). -/
def execSeed (s : State) : Host.Outcome State Fault Refusal :=
  let seed := add32 Config.seedK s.N
  .next { s with a := seed, b := seed, c := seed, L := s.N, cur := 0#32, ph := 2#3, st := 0#3 }

/-- The path the two low bits of the first word select (R141, R142): `00` W, `10` H, `01` and `11` B. -/
def choosePath {n : Nat} (x : BitVec n) : Path := if selW x then .W else if selH x then .H else .B

/-- `v = min(N, 4)` of SELECT's read (R141). -/
def selectCount (N : Word) : Nat := min N.toNat 4

/-- Lane 0 of the first answer. -/
def firstLane : List Lanes → Byte
  | [] => 0#8
  | l :: _ => l.l0

/-- `SELECT` (R141): the first word, and the path from its two low bits. Those are the low bits of its lane 0 (R35),
which is where they are looked at, so that no unspecified lane plays a part. -/
def execSelect (s : State) : Host.Outcome State Fault Refusal :=
  if s.N = 0#32 then .next { s with fw := 0#32, path := Path.code .W, ph := 3#3 }
  else match readAll [rd32Req 0#32 (selectCount s.N)] s with
    | .waiting t => .next t
    | .answered ls t => .next { t with fw := composeWord .W ls, path := (choosePath (firstLane ls)).code, ph := 3#3 }

/-- `EMIT` (R228): all writes at once. -/
def execEmit (s : State) : Host.Outcome State Fault Refusal :=
  .next { s with digest := s.c ++ s.b, DONE := true, BUSY := false, ph := 0#3, st := 0#3 }

end Sys2Proof.Machine
end

