-- ==== Sys2Proof/Machine/WordPath.lean ====
section
/-! DEFINITION. ABSORB.W and TAIL.W.12 to TAIL.W.0 (4-byte reads; R151, R152 to R164). Each is the one form of
R165 at its length. -/

namespace Sys2Proof.Machine

/-- `ABSORB.W` (R151). -/
def execAbsorbW (s : State) : Host.Outcome State Fault Refusal := absorb .W s

/-- `TAIL.W.12` (R152). -/
def execTailW12 (s : State) : Host.Outcome State Fault Refusal := tail .W 12 s

/-- `TAIL.W.11` (R153). -/
def execTailW11 (s : State) : Host.Outcome State Fault Refusal := tail .W 11 s

/-- `TAIL.W.10` (R154). -/
def execTailW10 (s : State) : Host.Outcome State Fault Refusal := tail .W 10 s

/-- `TAIL.W.9` (R155). -/
def execTailW9 (s : State) : Host.Outcome State Fault Refusal := tail .W 9 s

/-- `TAIL.W.8` (R156). -/
def execTailW8 (s : State) : Host.Outcome State Fault Refusal := tail .W 8 s

/-- `TAIL.W.7` (R157). -/
def execTailW7 (s : State) : Host.Outcome State Fault Refusal := tail .W 7 s

/-- `TAIL.W.6` (R158). -/
def execTailW6 (s : State) : Host.Outcome State Fault Refusal := tail .W 6 s

/-- `TAIL.W.5` (R159). -/
def execTailW5 (s : State) : Host.Outcome State Fault Refusal := tail .W 5 s

/-- `TAIL.W.4` (R160). -/
def execTailW4 (s : State) : Host.Outcome State Fault Refusal := tail .W 4 s

/-- `TAIL.W.3` (R161). -/
def execTailW3 (s : State) : Host.Outcome State Fault Refusal := tail .W 3 s

/-- `TAIL.W.2` (R162). -/
def execTailW2 (s : State) : Host.Outcome State Fault Refusal := tail .W 2 s

/-- `TAIL.W.1` (R163). -/
def execTailW1 (s : State) : Host.Outcome State Fault Refusal := tail .W 1 s

/-- `TAIL.W.0` (R164). -/
def execTailW0 (s : State) : Host.Outcome State Fault Refusal := tailEmpty s

end Sys2Proof.Machine
end

