-- ==== Sys2Proof/Machine/Dispatch.lean ====
section
/-! DEFINITION. One arm per operation, each one direct call of its meaning. -/

namespace Sys2Proof.Machine

def exec (i : Instr) (s : State) : Host.Outcome State Fault Refusal :=
  match i with
  | .wait => Sys2Proof.Machine.execWait s
  | .seed => Sys2Proof.Machine.execSeed s
  | .select => Sys2Proof.Machine.execSelect s
  | .absorbW => Sys2Proof.Machine.execAbsorbW s
  | .absorbH => Sys2Proof.Machine.execAbsorbH s
  | .absorbB => Sys2Proof.Machine.execAbsorbB s
  | .tailW12 => Sys2Proof.Machine.execTailW12 s
  | .tailW11 => Sys2Proof.Machine.execTailW11 s
  | .tailW10 => Sys2Proof.Machine.execTailW10 s
  | .tailW9 => Sys2Proof.Machine.execTailW9 s
  | .tailW8 => Sys2Proof.Machine.execTailW8 s
  | .tailW7 => Sys2Proof.Machine.execTailW7 s
  | .tailW6 => Sys2Proof.Machine.execTailW6 s
  | .tailW5 => Sys2Proof.Machine.execTailW5 s
  | .tailW4 => Sys2Proof.Machine.execTailW4 s
  | .tailW3 => Sys2Proof.Machine.execTailW3 s
  | .tailW2 => Sys2Proof.Machine.execTailW2 s
  | .tailW1 => Sys2Proof.Machine.execTailW1 s
  | .tailW0 => Sys2Proof.Machine.execTailW0 s
  | .tailH12 => Sys2Proof.Machine.execTailH12 s
  | .tailH11 => Sys2Proof.Machine.execTailH11 s
  | .tailH10 => Sys2Proof.Machine.execTailH10 s
  | .tailH9 => Sys2Proof.Machine.execTailH9 s
  | .tailH8 => Sys2Proof.Machine.execTailH8 s
  | .tailH7 => Sys2Proof.Machine.execTailH7 s
  | .tailH6 => Sys2Proof.Machine.execTailH6 s
  | .tailH5 => Sys2Proof.Machine.execTailH5 s
  | .tailH4 => Sys2Proof.Machine.execTailH4 s
  | .tailH3 => Sys2Proof.Machine.execTailH3 s
  | .tailH2 => Sys2Proof.Machine.execTailH2 s
  | .tailH1 => Sys2Proof.Machine.execTailH1 s
  | .tailH0 => Sys2Proof.Machine.execTailH0 s
  | .tailB12 => Sys2Proof.Machine.execTailB12 s
  | .tailB11 => Sys2Proof.Machine.execTailB11 s
  | .tailB10 => Sys2Proof.Machine.execTailB10 s
  | .tailB9 => Sys2Proof.Machine.execTailB9 s
  | .tailB8 => Sys2Proof.Machine.execTailB8 s
  | .tailB7 => Sys2Proof.Machine.execTailB7 s
  | .tailB6 => Sys2Proof.Machine.execTailB6 s
  | .tailB5 => Sys2Proof.Machine.execTailB5 s
  | .tailB4 => Sys2Proof.Machine.execTailB4 s
  | .tailB3 => Sys2Proof.Machine.execTailB3 s
  | .tailB2 => Sys2Proof.Machine.execTailB2 s
  | .tailB1 => Sys2Proof.Machine.execTailB1 s
  | .tailB0 => Sys2Proof.Machine.execTailB0 s
  | .m1 => Sys2Proof.Machine.execM1 s
  | .m2 => Sys2Proof.Machine.execM2 s
  | .m3 => Sys2Proof.Machine.execM3 s
  | .m4 => Sys2Proof.Machine.execM4 s
  | .m5 => Sys2Proof.Machine.execM5 s
  | .m6 => Sys2Proof.Machine.execM6 s
  | .adv => Sys2Proof.Machine.execAdv s
  | .f1 => Sys2Proof.Machine.execF1 s
  | .f2 => Sys2Proof.Machine.execF2 s
  | .f3 => Sys2Proof.Machine.execF3 s
  | .f4 => Sys2Proof.Machine.execF4 s
  | .f5 => Sys2Proof.Machine.execF5 s
  | .f6 => Sys2Proof.Machine.execF6 s
  | .f7 => Sys2Proof.Machine.execF7 s
  | .emit => Sys2Proof.Machine.execEmit s
  | .start => Sys2Proof.Machine.execStart s
  | .wrNop => Sys2Proof.Machine.execWrNop s
  | .wrLen v => Sys2Proof.Machine.execWrLen v s
  | .wrIgn => Sys2Proof.Machine.execWrIgn s
  | .rdCsr => Sys2Proof.Machine.execRdCsr s
  | .rdLen => Sys2Proof.Machine.execRdLen s
  | .rdDigestLo => Sys2Proof.Machine.execRdDigestLo s
  | .rdDigestHi => Sys2Proof.Machine.execRdDigestHi s
  | .rd8 off => Sys2Proof.Machine.execRd8 off s
  | .rd16 v off => Sys2Proof.Machine.execRd16 v off s
  | .rd32 v off => Sys2Proof.Machine.execRd32 v off s
  | .add => Sys2Proof.Machine.execAdd s
  | .sub => Sys2Proof.Machine.execSub s
  | .xor => Sys2Proof.Machine.execXor s
  | .and => Sys2Proof.Machine.execAnd s
  | .rol k => Sys2Proof.Machine.execRol k s

end Sys2Proof.Machine
end

