-- ==== Sys2Proof/Machine/Agents.lean ====
section
/-! DEFINITION. What one step of each agent does (R14): the sequencer's operation, a host access, a request or an ALU use
run alone, reset, and the host's and platform's dealings with the buffer. Also how a word of the opcode table is placed
where the next step takes its operation from. -/

namespace Sys2Proof.Machine

/-- The sequencer's step (R92): the operation the dispatch word selects; stuck on a reserved word (R99); nothing while
reset is asserted (R255, R280). -/
def runSequencer (s : State) : Host.Outcome State Fault Refusal :=
  if s.rst then .next s
  else match decodeDispatch s.dispatch with
    | .ok i => exec i s
    | .error _ => .fault .stuckReservedDispatch

/-- A host access (R95, R240); lost while reset is asserted (R280). -/
def runHost (hw : BitVec 35) (s : State) : Host.Outcome State Fault Refusal :=
  if s.rst then hostDuringReset hw s else exec (decodeHost hw) s

/-- A request run alone; nothing while reset is asserted. -/
def runRead (rr : BitVec 37) (s : State) : Host.Outcome State Fault Refusal :=
  if s.rst then .next s
  else match decodeRead rr with
    | .ok i => exec i s
    | .error _ => .refused .reservedReadRequest

/-- The ALU given a control word and operands; nothing while reset is asserted. -/
def runAlu (aw : BitVec 8) (x y : Word) (s : State) : Host.Outcome State Fault Refusal :=
  if s.rst then .next s
  else match decodeAlu aw with
    | .ok i => exec i { s with aluX := x, aluY := y }
    | .error _ => .refused .reservedAluControl

/-- One input of the machine. -/
def runEvent (e : Event) (s : State) : Host.Outcome State Fault Refusal :=
  match e with
  | .sequencer => runSequencer s
  | .host hw => runHost hw s
  | .read rr => runRead rr s
  | .alu aw x y => runAlu aw x y s
  | .assertReset => .next (assertReset s)
  | .releaseReset => .next (releaseReset s)
  | .writeBuffer off value => writeBuffer off value s
  | .serve n => .next { s with served := n }

/-- One step of the machine: the next input if one is waiting, the sequencer's operation otherwise (R92, R292). -/
def runStep (s : State) : Host.Outcome State Fault Refusal :=
  match s.agenda with
  | [] => runSequencer s
  | e :: rest => runEvent e { s with agenda := rest }

/-- The sequencer placed where the dispatch selects what `w` selects, about to begin that operation, and moving next: the
position `(ph, st)` with `(L, cur, path)` (R23), `L` from `gt12` and `l4`, at the start of a buffer of `L` bytes (R27), none
of the operation's requests issued yet. -/
def placeSequencer (w : BitVec 13) (s : State) : State :=
  let d := DispatchWord.unpack w
  let L : Word := if d.gt12 then 16#32 + d.l4.setWidth 32 else d.l4.setWidth 32
  { s with
    ph := d.ph, st := d.st, path := d.path, L := L, N := L, cur := 0#32, rq := none, answers := [], rqAlone := false,
    rst := false, agenda := .sequencer :: s.agenda }

/-- A word of the opcode table placed where the next step takes its operation from: the sequencer's position, or the
next input of the machine (log entry 10). -/
def placeWord (s : State) (nbits w : Nat) : State :=
  match tableFormat nbits w with
  | some .seq => placeSequencer (BitVec.ofNat 13 w) s
  | some .host => { s with rst := false, agenda := .host (BitVec.ofNat 35 w) :: s.agenda }
  | some .rdreq => { s with rst := false, agenda := .read (BitVec.ofNat 37 w) :: s.agenda }
  | some .alu => { s with rst := false, agenda := .alu (BitVec.ofNat 8 w) s.aluX s.aluY :: s.agenda }
  | none => s

end Sys2Proof.Machine
end

