-- ==== Sys2Proof/Machine/Step.lean ====
section
/-! DEFINITION. One step of the machine, and how an operation of the opcode table comes to be the next one. -/

namespace Sys2Proof.Machine

/-- One step (R14, R92): an input if one is waiting, the sequencer's operation otherwise. -/
def step (s : State) : Host.Outcome State Fault Refusal := runStep s

/-- The state in which the next step runs the operation of the table's word `w` (log entry 10). -/
def State.withFetchWord (s : State) (nbits w : Nat) : State := placeWord s nbits w

end Sys2Proof.Machine
end

