-- ==== Sys2Proof/Safety.lean ====
section
/-! DEFINITION. The terms claims are stated in: the words of the buffer, the function the core computes written down
from the source's own listings (R3), the amount of work of a job (R93, R301), and what holds in every state a run
reaches (R27, R99). Nothing here is used by the machine. -/

namespace Sys2Proof

open Machine

/-! ## Words of the buffer -/

/-- `sum over j < v of Buf(off + j) * 2^(8j)` (R62, R137). -/
def bytesLE (buf : Nat → Byte) (off : Nat) : Nat → Nat
  | 0 => 0
  | v + 1 => bytesLE buf off v + (buf (off + v)).toNat * 2 ^ (8 * v)

/-- The little-endian word of `v` bytes at offset `off`, zero above them. -/
def bufWord (buf : Nat → Byte) (off v : Nat) : Word := BitVec.ofNat 32 (bytesLE buf off v)

/-! ## The reads a path makes (R67, R131, R301) -/

/-- The requests for `n` consecutive bytes from offset `cur` on a path, `n <= 12`: whole and partial words; halfwords
and a last odd byte; or bytes. Ascending offsets (R71). -/
def blockReads (p : Path) (cur : Word) (n : Nat) : List ReadReq :=
  match p with
  | .W => (List.range ((n + 3) / 4)).map fun i => ⟨2#2, BitVec.ofNat 3 (min 4 (n - 4 * i)), cur + BitVec.ofNat 32 (4 * i)⟩
  | .H =>
    (List.range (n / 2)).map (fun i => ⟨1#2, 2#3, cur + BitVec.ofNat 32 (2 * i)⟩) ++
      (if n % 2 = 1 then [⟨0#2, 1#3, cur + BitVec.ofNat 32 (n - 1)⟩] else [])
  | .B => (List.range n).map fun j => ⟨0#2, 1#3, cur + BitVec.ofNat 32 j⟩

/-- All the requests of a job, in order (R65, R71): SELECT's, those of each block, those of the tail. -/
def jobRequests (p : Path) (N : Nat) : List ReadReq :=
  if N = 0 then []
  else
    let q := (N - 1) / 12
    ⟨2#2, BitVec.ofNat 3 (min N 4), 0#32⟩ ::
      ((List.range q).flatMap (fun j => blockReads p (BitVec.ofNat 32 (12 * j)) 12) ++
        blockReads p (BitVec.ofNat 32 (12 * q)) (N - 12 * q))

/-- How many requests a job makes (R301): SELECT's and the path's own. -/
def jobReads (p : Path) (N : Nat) : Nat :=
  if N = 0 then 0
  else match p with
    | .W => 1 + (N + 3) / 4
    | .H => 1 + N / 2 + N % 2
    | .B => 1 + N

/-- How many sequencer operations a job takes, START not counted (R93, R301). -/
def jobOps (N : Nat) : Nat := if N = 0 then 4 else 8 * ((N - 1) / 12) + 11

/-! ## An operation and its answers (R68) -/

/-- What the spec fixes of the answer to a request (R130): the buffer's bytes in the valid lanes, zero above the size. -/
def isAnswerTo (buf : Nat → Byte) (r : ReadReq) (l : Lanes) : Prop :=
  l.word &&& mask r.v.toNat = bufWord buf r.off.toNat r.v.toNat ∧ l.word.toNat < 2 ^ (8 * r.bytes)

/-- The answers are those to the first requests of the list, in order. -/
def answersFor (buf : Nat → Byte) : List ReadReq → List Lanes → Prop
  | _, [] => True
  | [], _ :: _ => False
  | r :: rs, l :: ls => isAnswerTo buf r l ∧ answersFor buf rs ls

/-- The operation whose requests are `rs` has been answered its first ones, perhaps none, and if a request of the
sequencer's is outstanding it is the next one (R68). -/
structure Underway (rs : List ReadReq) (s : Machine.State) : Prop where
  answered : answersFor s.bufByte rs s.answers
  asked : ∀ r, s.rq = some r → s.rqAlone = false → rs[s.answers.length]? = some r

/-- The path a `path` code stands for (R34). -/
def pathOf (code : BitVec 2) : Path := if code = 2#2 then .W else if code = 1#2 then .H else .B

/-- The requests of the operation the sequencer stands at (R141, R151, R165): SELECT's, a block's, a tail's, or none. -/
def positionReads (s : Machine.State) : List ReadReq :=
  if s.ph = 2#3 then (if s.N = 0#32 then [] else [⟨2#2, BitVec.ofNat 3 (min s.N.toNat 4), 0#32⟩])
  else if s.ph = 3#3 then blockReads (pathOf s.path) s.cur (min s.L.toNat 12)
  else []

/-! ## The operations of a path -/

/-- `ABSORB.p` (R92). -/
def absorbInstr : Path → Instr
  | .W => .absorbW
  | .H => .absorbH
  | .B => .absorbB

/-- `TAIL.W.n`, for `n <= 12` (R92). -/
def tailWInstr : Nat → Instr
  | 0 => .tailW0 | 1 => .tailW1 | 2 => .tailW2 | 3 => .tailW3 | 4 => .tailW4 | 5 => .tailW5 | 6 => .tailW6
  | 7 => .tailW7 | 8 => .tailW8 | 9 => .tailW9 | 10 => .tailW10 | 11 => .tailW11 | _ => .tailW12

/-- `TAIL.H.n`, for `n <= 12` (R92). -/
def tailHInstr : Nat → Instr
  | 0 => .tailH0 | 1 => .tailH1 | 2 => .tailH2 | 3 => .tailH3 | 4 => .tailH4 | 5 => .tailH5 | 6 => .tailH6
  | 7 => .tailH7 | 8 => .tailH8 | 9 => .tailH9 | 10 => .tailH10 | 11 => .tailH11 | _ => .tailH12

/-- `TAIL.B.n`, for `n <= 12` (R92). -/
def tailBInstr : Nat → Instr
  | 0 => .tailB0 | 1 => .tailB1 | 2 => .tailB2 | 3 => .tailB3 | 4 => .tailB4 | 5 => .tailB5 | 6 => .tailB6
  | 7 => .tailB7 | 8 => .tailB8 | 9 => .tailB9 | 10 => .tailB10 | 11 => .tailB11 | _ => .tailB12

/-- `TAIL.p.n`, for `n <= 12` (R92). -/
def tailInstr : Path → Nat → Instr
  | .W, n => tailWInstr n
  | .H, n => tailHInstr n
  | .B, n => tailBInstr n

/-- `ABSORB.p`, or a `TAIL.p.n` that has a byte to add: what writes the `w` registers (R20, R36). -/
def addsWords (i : Instr) : Prop := ∃ p, i = absorbInstr p ∨ ∃ n, 1 ≤ n ∧ n ≤ 12 ∧ i = tailInstr p n

/-- `M1` to `M6` and `F1` to `F7`. -/
def isStage (i : Instr) : Prop := i ∈ [.m1, .m2, .m3, .m4, .m5, .m6, .f1, .f2, .f3, .f4, .f5, .f6, .f7]

/-- The operations that use the reader (R38): SELECT, those that add words, and a request run alone. -/
def usesReader (i : Instr) : Prop := i = .select ∨ addsWords i ∨ i.format = .rdreq

/-! ## The function the core computes (R3), from the listings the rules quote -/

/-- The accumulator triple. -/
structure Acc where
  a : Word
  b : Word
  c : Word
  deriving DecidableEq, Repr

/-- The accumulators of a state. -/
def Machine.State.acc (s : Machine.State) : Acc := ⟨s.a, s.b, s.c⟩

/-- Mix, line by line (46_mix.md). -/
def mixRef (x : Acc) : Acc :=
  let ⟨a, b, c⟩ := x
  let a := a - c; let a := a ^^^ c.rotateLeft 4;  let c := c + b
  let b := b - a; let b := b ^^^ a.rotateLeft 6;  let a := a + c
  let c := c - b; let c := c ^^^ b.rotateLeft 8;  let b := b + a
  let a := a - c; let a := a ^^^ c.rotateLeft 16; let c := c + b
  let b := b - a; let b := b ^^^ a.rotateLeft 19; let a := a + c
  let c := c - b; let c := c ^^^ b.rotateLeft 4;  let b := b + a
  ⟨a, b, c⟩

/-- Final, line by line (47_final_emit.md). -/
def finalRef (x : Acc) : Acc :=
  let ⟨a, b, c⟩ := x
  let c := c ^^^ b; let c := c - b.rotateLeft 14
  let a := a ^^^ c; let a := a - c.rotateLeft 11
  let b := b ^^^ a; let b := b - a.rotateLeft 25
  let c := c ^^^ b; let c := c - b.rotateLeft 16
  let a := a ^^^ c; let a := a - c.rotateLeft 4
  let b := b ^^^ a; let b := b - a.rotateLeft 14
  let c := c ^^^ b; let c := c - b.rotateLeft 24
  ⟨a, b, c⟩

/-- Up to twelve bytes from `off` added as three little-endian words (R150, R165); a word with no byte adds 0. -/
def addBytes (buf : Nat → Byte) (off n : Nat) (x : Acc) : Acc :=
  ⟨x.a + bufWord buf off (min 4 n), x.b + bufWord buf (off + 4) (min 4 (n - 4)),
    x.c + bufWord buf (off + 8) (min 4 (n - 8))⟩

/-- The seed (R140). -/
def seedRef (N : Nat) : Acc :=
  let w : Word := 0xdeadbeef#32 + BitVec.ofNat 32 N
  ⟨w, w, w⟩

/-- The accumulators after `q` blocks (R150). -/
def loopRef (buf : Nat → Byte) (N : Nat) : Nat → Acc
  | 0 => seedRef N
  | q + 1 => mixRef (addBytes buf (12 * q) 12 (loopRef buf N q))

/-- The digest of a buffer of `N` bytes (R3): seed, the blocks of the loop, the last 1 to 12 bytes, Final; the seed
alone for the empty buffer (R230). -/
def lookup3 (buf : Nat → Byte) (N : Nat) : Digest :=
  if N = 0 then (seedRef 0).c ++ (seedRef 0).b
  else
    let q := (N - 1) / 12
    let x := finalRef (addBytes buf (12 * q) (N - 12 * q) (loopRef buf N q))
    x.c ++ x.b

/-! ## What every run keeps -/

/-- The sequencer stands at a position some row of R92 names (R23, R99): `st` runs inside MIX and FINAL and is 0
elsewhere. -/
def legalPosition (ph st : BitVec 3) : Prop :=
  ph ≠ 7#3 ∧ (ph = 4#3 ∨ ph = 5#3 → st ≠ 0#3) ∧ (ph ≠ 4#3 ∧ ph ≠ 5#3 → st = 0#3)

/-- The phases from LOOP to EMIT: the path is chosen and the job's bytes are being added. -/
def pastSelect (ph : BitVec 3) : Prop := ph = 3#3 ∨ ph = 4#3 ∨ ph = 5#3 ∨ ph = 6#3

/-- The `path` code that two low bits select (R142). -/
def pathOfBits (x : BitVec 2) : BitVec 2 := if x = 0#2 then 2#2 else if x = 2#2 then 1#2 else 0#2

/-- The path of a job: what the two low bits of the buffer's first byte select, W for the empty buffer (R142, R143). -/
def jobPath (buf : Nat → Byte) (N : Nat) : Path :=
  if N = 0 then .W
  else if (buf 0).toNat % 4 = 0 then .W
  else if (buf 0).toNat % 4 = 2 then .H
  else .B

/-- A job has just been started (R235): the sequencer is about to perform SEED, with no request outstanding, the platform
answering for the buffer's `N` bytes, no input waiting and reset not asserted. -/
structure JobStart (s : Machine.State) : Prop where
  phase : s.ph = 1#3
  noReset : s.rst = false
  noRead : s.rq = none ∧ s.answers = []
  noInput : s.agenda = []
  served : s.N.toNat ≤ s.limit

/-- What holds in every state a run reaches (R23, R27, R30, R34, R38, R96), whatever the host does. -/
structure Inv (s : Machine.State) : Prop where
  /-- The buffer is in canonical form. -/
  memory : Memory.wf s.mem = true
  /-- The position is one the dispatch knows (R99). -/
  position : legalPosition s.ph s.st
  /-- `BUSY` says whether a job runs (R30). -/
  busy : s.BUSY = true ↔ s.ph ≠ 0#3
  /-- `BUSY` and `DONE` are never both 1 (R30). -/
  status : ¬(s.BUSY = true ∧ s.DONE = true)
  /-- The path is what the first word selects (R141, R145), so never 3 (R34). -/
  pathChosen : pastSelect s.ph ∨ s.DONE = true → s.path = pathOfBits (s.fw.extractLsb' 0 2)
  /-- After SEED nothing has been added (R140). -/
  seeded : s.ph = 2#3 → s.cur = 0#32 ∧ s.L = s.N
  /-- Of the `N` bytes, `cur` have been added, a multiple of 12, and `L` have not (R27). -/
  progress : pastSelect s.ph → s.cur.toNat + s.L.toNat = s.N.toNat ∧ s.cur.toNat % 12 = 0
  /-- Nothing is left only of the empty buffer (R27). -/
  leftOver : pastSelect s.ph → s.L = 0#32 → s.N = 0#32
  /-- A block is being mixed only while more than 12 bytes are left (R150). -/
  inMix : s.ph = 4#3 → 12 < s.L.toNat
  /-- The tail has 1 to 12 bytes in FINAL and at most 12 in EMIT (R150, R220). -/
  inFinal : s.ph = 5#3 → 1 ≤ s.L.toNat ∧ s.L.toNat ≤ 12
  inEmit : s.ph = 6#3 → s.L.toNat ≤ 12
  /-- While reset is asserted the core is in its reset state (R280). -/
  held : s.rst = true → s.ph = 0#3 ∧ s.DONE = false ∧ s.LEN = 0#32 ∧ s.rq = none
  /-- Every request is one R96 allows (R99). -/
  request : ∀ r, s.rq = some r → r.legal = true
  requests : ∀ r, r ∈ s.readLog → r.legal = true
  /-- What the operation under way has been answered, and what it waits for, are its own (R68). -/
  underway : Underway (positionReads s) s
  /-- Only an outstanding request can be one run alone. -/
  alone : s.rq = none → s.rqAlone = false

end Sys2Proof
end

