-- ==== Sys2Proof/Certificates/Slice0/Obligations.lean ====
section
/-! DEFINITION. The statements for the provers, in the spec's order: encodings, the step and reset, the operations family
by family, the reader, the host, what every step keeps, and whole jobs. No statement rests on a free value. `s.limit` is
where the platform's answers end (log entry 3), so `… ≤ s.limit` says that the reads are answered; `draws`, `readLog`,
`agenda`, `answers` and `rqAlone` are the model's own (log entries 6, 7, 8, 17), and nothing is claimed of `draws`.
`Underway rs s` says that the operation whose requests are `rs` begins or waits in `s` (R68), `s.rqAlone = false` that no
request run alone is outstanding; AnOutstandingReadIsAnsweredFirst says what happens where one is. -/

open Sys2Proof Sys2Proof.Machine

/-! ## Encodings -/

/-- 30_encoding.md, all four formats: encoding and decoding agree, every operand at every value a word can hold. -/
def Obligations.DecodingAnEncodedOperationGivesItBack : Prop :=
  ∀ i : Instr, i.wf = true → encode i < 2 ^ i.format.width ∧ decode i.format (encode i) = .ok i

/-- What a decoder gives is well formed, of its own format, and the word is one of the operation's row of the opcode
table. -/
def Obligations.DecodedWordLiesInTheOperationsRow : Prop :=
  ∀ (f : Format) (w : Nat) (i : Instr), decode f w = .ok i →
    i.wf = true ∧ i.format = f ∧ i.row.format = f ∧ w &&& i.row.mask = i.row.pattern

/-- R91, R92: a 13-bit dispatch word selects exactly the operation whose row of the opcode table it matches. -/
def Obligations.DispatchWordSelectsTheRowItMatches : Prop :=
  ∀ (w : BitVec 13) (i : Instr),
    decodeSeq w = .ok i ↔ i.format = .seq ∧ w.toNat &&& i.row.mask = i.row.pattern

/-- R91: the dispatch word is made of the registers, `ph` in bits 12:10 down to `L[3:0]` in bits 3:0, and its bits give
the fields back. -/
def Obligations.DispatchWordIsMadeOfTheRegisters : Prop :=
  ∀ s : State,
    s.dispatch.pack.toNat = s.ph.toNat * 2 ^ 10 + s.st.toNat * 2 ^ 7 + s.path.toNat * 2 ^ 5 +
      (if 12 < s.L.toNat then 2 ^ 4 else 0) + s.L.toNat % 16 ∧
    DispatchWord.unpack s.dispatch.pack = s.dispatch

/-- R95: the host access word `{we, idx, wdata}` selects exactly one of the eight operations; none is reserved. -/
def Obligations.HostWordSelectsOneOfEightOperations : Prop :=
  ∀ (we : Bool) (idx : BitVec 2) (wdata : Word),
    decodeHost (BitVec.ofBool we ++ idx ++ wdata) =
      if we then
        (if idx = 0#2 then (if wdata.toNat % 2 = 1 then .start else .wrNop)
         else if idx = 1#2 then .wrLen wdata else .wrIgn)
      else if idx = 0#2 then .rdCsr
      else if idx = 1#2 then .rdLen
      else if idx = 2#2 then .rdDigestLo
      else .rdDigestHi

/-- R96: the request word `{size, v, off}` selects RD8, RD16 or RD32 exactly when `size` is not 3, `1 <= v <= 2^size`
and `off` is a multiple of `2^size`. -/
def Obligations.RequestWordSelectsAReaderOperation : Prop :=
  ∀ (size : BitVec 2) (v : BitVec 3) (off : Word) (i : Instr),
    decodeRead (size ++ v ++ off) = .ok i ↔
      (size ≠ 3#2 ∧ 1 ≤ v.toNat ∧ v.toNat ≤ 2 ^ size.toNat ∧ off.toNat % 2 ^ size.toNat = 0) ∧
      i = (if size = 0#2 then .rd8 off else if size = 1#2 then .rd16 v off else .rd32 v off)

/-- R97: the ALU control word `{fn, k}`; `k` is looked at by ROL alone, and `fn` 5, 6, 7 select nothing. -/
def Obligations.AluWordSelectsAFunction : Prop :=
  ∀ (fn : BitVec 3) (k : BitVec 5),
    decodeAlu (fn ++ k) =
      if fn = 0#3 then .ok .add else if fn = 1#3 then .ok .sub else if fn = 2#3 then .ok .xor
      else if fn = 3#3 then .ok .and else if fn = 4#3 then .ok (.rol k) else .error .reservedAluFunction

/-- R99: the reserved dispatch words, and no others, select no operation. -/
def Obligations.ReservedDispatchWordsAreTheOnesListed : Prop :=
  ∀ d : DispatchWord,
    decodeDispatch d = .error .reservedDispatch ↔
      d.ph = 7#3 ∨ (d.ph = 4#3 ∧ d.st = 0#3) ∨ (d.ph = 5#3 ∧ d.st = 0#3) ∨ (d.ph = 3#3 ∧ d.path = 3#2) ∨
      (d.ph = 3#3 ∧ d.gt12 = false ∧ 13 ≤ d.l4.toNat)

/-- Words written out from the tables of 30_encoding.md, one or more of each family, with bits that are not looked at
set: WAIT, SEED, SELECT, ABSORB.W, TAIL.W.1, TAIL.H.6, TAIL.B.0, M3, ADV, F7, EMIT; START, WR.NOP, WR.LEN, WR.IGN,
RD.CSR, RD.LEN, RD.DIGEST_LO, RD.DIGEST_HI; RD8 12, RD16 4, RD32 8, 3; ADD, SUB, XOR, AND, ROL 19. -/
def Obligations.WordsOfTheSpecDecodeAsWritten : Prop :=
  decode .seq 0x007f = .ok .wait ∧ decode .seq 0x0400 = .ok .seed ∧ decode .seq 0x0bff = .ok .select ∧
  decode .seq 0x0c57 = .ok .absorbW ∧ decode .seq 0x0c41 = .ok .tailW1 ∧ decode .seq 0x0c26 = .ok .tailH6 ∧
  decode .seq 0x0c00 = .ok .tailB0 ∧ decode .seq 0x11c5 = .ok .m3 ∧ decode .seq 0x1380 = .ok .adv ∧
  decode .seq 0x1780 = .ok .f7 ∧ decode .seq 0x1b9f = .ok .emit ∧
  decode .host 0x400000001 = .ok .start ∧ decode .host 0x4fffffffe = .ok .wrNop ∧
  decode .host 0x50000001e = .ok (.wrLen 0x1e#32) ∧ decode .host 0x612345678 = .ok .wrIgn ∧
  decode .host 0x000000000 = .ok .rdCsr ∧ decode .host 0x100000005 = .ok .rdLen ∧
  decode .host 0x200000000 = .ok .rdDigestLo ∧ decode .host 0x300000000 = .ok .rdDigestHi ∧
  decode .rdreq 0x010000000c = .ok (.rd8 12#32) ∧ decode .rdreq 0x0a00000004 = .ok (.rd16 2#3 4#32) ∧
  decode .rdreq 0x1300000008 = .ok (.rd32 3#3 8#32) ∧
  decode .alu 0x1f = .ok .add ∧ decode .alu 0x20 = .ok .sub ∧ decode .alu 0x40 = .ok .xor ∧
  decode .alu 0x7f = .ok .and ∧ decode .alu 0x93 = .ok (.rol 19#5)

/-! ## The step, its inputs, and reset -/

/-- R92, R95, R96, R97: a step runs the operation its agent's word selects: the sequencer's when no input is waiting or
the input lets it move, a host access, a request or an ALU use when that is the next input. -/
def Obligations.StepRunsTheSelectedOperation : Prop :=
  ∀ (s : State) (rest : List Event) (i : Instr), s.rst = false →
    (s.agenda = [] → decodeDispatch s.dispatch = .ok i → step s = exec i s) ∧
    (s.agenda = .sequencer :: rest → decodeDispatch s.dispatch = .ok i → step s = exec i { s with agenda := rest }) ∧
    (∀ hw, s.agenda = .host hw :: rest → step s = exec (decodeHost hw) { s with agenda := rest }) ∧
    (∀ rr, s.agenda = .read rr :: rest → decodeRead rr = .ok i → step s = exec i { s with agenda := rest }) ∧
    (∀ aw x y, s.agenda = .alu aw x y :: rest → decodeAlu aw = .ok i →
      step s = exec i { s with aluX := x, aluY := y, agenda := rest })

/-- R99: at a reserved dispatch word the sequencer is stuck. That a reserved or misaligned request word and a reserved ALU
control word, given as inputs, are refused by name is the model's choice (log entry 16): R99 says they are never issued. -/
def Obligations.ReservedWordsStopByName : Prop :=
  ∀ (s : State) (rest : List Event) (e : DecodeError), s.rst = false →
    (s.agenda = [] → decodeDispatch s.dispatch = .error e → step s = .fault .stuckReservedDispatch) ∧
    (s.agenda = .sequencer :: rest → decodeDispatch s.dispatch = .error e → step s = .fault .stuckReservedDispatch) ∧
    (∀ rr, s.agenda = .read rr :: rest → decodeRead rr = .error e → step s = .refused .reservedReadRequest) ∧
    (∀ aw x y, s.agenda = .alu aw x y :: rest → decodeAlu aw = .error e → step s = .refused .reservedAluControl)

/-- The model's own (log entry 10): the operation of a word of the opcode table, placed as the next one, is what the next
step runs; for a SEQ word the sequencer stands where the dispatch selects it, about to begin, otherwise nothing of the
core is changed. -/
def Obligations.PlacedTableWordRunsNext : Prop :=
  ∀ (s : State) (nbits w : Nat) (i : Instr), decodeTableWord nbits w = some i →
    ∃ t, step (s.withFetchWord nbits w) = exec i t ∧
      (i.format ≠ .seq → t = { s with rst := false }) ∧
      (i.format = .seq →
        t = { s with
          ph := t.ph, st := t.st, path := t.path, L := t.L, N := t.L, cur := 0#32, rq := none, answers := [],
          rqAlone := false, rst := false } ∧
        decodeDispatch t.dispatch = .ok i)

/-- R281: the reset values the spec states, the `done` output and the value a read of `CSR` returns (its `PATH` field is
unspecified) among them. -/
def Obligations.StateAfterReset : Prop :=
  State.reset.ph = 0#3 ∧ State.reset.st = 0#3 ∧ State.reset.BUSY = false ∧ State.reset.DONE = false ∧
  State.reset.done = false ∧ State.reset.LEN = 0#32 ∧ State.reset.rq = none ∧
  ∃ t, exec .rdCsr State.reset = .next t ∧ t.rdata &&& 0xfffffff3#32 = 0#32

/-- R280: whenever reset is asserted, also in a job, the control state takes its reset values at once, an outstanding
read is abandoned with what the operation has been answered, and the buffer is not touched. -/
def Obligations.ResetClearsTheControlState : Prop :=
  ∀ (s : State) (rest : List Event), s.agenda = .assertReset :: rest →
    ∃ t, step s = .next t ∧ t.ph = 0#3 ∧ t.st = 0#3 ∧ t.BUSY = false ∧ t.DONE = false ∧ t.LEN = 0#32 ∧ t.rq = none ∧
      t.answers = [] ∧ t.rst = true ∧ t.agenda = rest ∧ ∀ off, t.bufByte off = s.bufByte off

/-- R255, R280: while reset is asserted no sequencer step, with or without an input waiting, no host access, request or ALU
use has an effect on the core; a host read returns some value and a host write is lost. -/
def Obligations.NothingRunsWhileResetIsAsserted : Prop :=
  ∀ s : State, s.rst = true →
    (s.agenda = [] → step s = .next s) ∧
    ∀ (rest : List Event) (e : Event), s.agenda = e :: rest →
      (e = .sequencer ∨ (∃ hw, e = .host hw) ∨ (∃ rr, e = .read rr) ∨ ∃ aw x y, e = .alu aw x y) →
      ∃ t, step s = .next t ∧ t = { s with agenda := rest, rdata := t.rdata, draws := t.draws } ∧
        ((∀ hw, e ≠ .host hw) → t = { s with agenda := rest }) ∧
        (∀ hw, e = .host hw → hw.getLsbD 34 = true → t = { s with agenda := rest })

/-! ## Opening and closing a job -/

/-- R234: WAIT, at `ph = 0` whatever the other fields are; it does nothing, and the sequencer stays there. -/
def Obligations.WaitChangesNothing : Prop :=
  (∀ d : DispatchWord, d.ph = 0#3 → decodeDispatch d = .ok .wait) ∧
  (∀ s : State, exec .wait s = .next s) ∧
  ∀ s : State, s.ph = 0#3 → s.agenda = [] → step s = .next s

/-- R140: SEED. -/
def Obligations.SeedLoadsTheAccumulators : Prop :=
  (∀ d : DispatchWord, d.ph = 1#3 → decodeDispatch d = .ok .seed) ∧
  ∀ s : State,
    let w : Word := BitVec.ofNat 32 ((0xdeadbeef + s.N.toNat) % 2 ^ 32)
    exec .seed s = .next { s with a := w, b := w, c := w, L := s.N, cur := 0#32, ph := 2#3, st := 0#3 }

/-- R141, R142, R143: SELECT; the path is chosen by the two low bits of the first word, which are those of the buffer's
first byte; the empty buffer is not read and goes the word path. -/
def Obligations.SelectChoosesThePathByContent : Prop :=
  (∀ d : DispatchWord, d.ph = 2#3 → decodeDispatch d = .ok .select) ∧
  ∀ s : State,
    (s.N = 0#32 → exec .select s = .next { s with fw := 0#32, path := 2#2, ph := 3#3 }) ∧
    let r : ReadReq := ⟨2#2, BitVec.ofNat 3 (min s.N.toNat 4), 0#32⟩
    (s.N ≠ 0#32 → Underway [r] s → s.rqAlone = false → min s.N.toNat 4 ≤ s.limit →
      ∃ t, exec .select s = .next t ∧
        t = { s with
          fw := t.fw, path := pathOfBits (t.fw.extractLsb' 0 2), ph := 3#3, rq := none, answers := [],
          readLog := s.readLog ++ [r].drop s.answers.length, draws := t.draws } ∧
        t.fw &&& mask (min s.N.toNat 4) = bufWord s.bufByte 0 (min s.N.toNat 4) ∧
        t.fw.toNat % 4 = (s.bufByte 0).toNat % 4)

/-- R228: EMIT, all writes at once; the digest is `(c << 32) | b`. -/
def Obligations.EmitDeliversTheDigest : Prop :=
  (∀ d : DispatchWord, d.ph = 6#3 → decodeDispatch d = .ok .emit) ∧
  ∀ s : State, ∃ t, exec .emit s = .next t ∧
    t = { s with digest := t.digest, DONE := true, BUSY := false, ph := 0#3, st := 0#3 } ∧
    t.digest.toNat = s.c.toNat * 2 ^ 32 + s.b.toNat

/-! ## ABSORB and TAIL -/

/-- R151, R170, R190: ABSORB on each path adds the next twelve bytes as three whole little-endian words, with the path's
reads in ascending offset, and goes to M1; begun or taken up again (R68), the requests already answered are not made
again. -/
def Obligations.AbsorbAddsThreeWholeWords : Prop :=
  ∀ p : Path,
    (∀ d : DispatchWord, d.ph = 3#3 → d.path = p.code → d.gt12 = true → decodeDispatch d = .ok (absorbInstr p)) ∧
    ∀ s : State, Underway (blockReads p s.cur 12) s → s.rqAlone = false → s.cur.toNat + 12 ≤ s.limit →
      let x := bufWord s.bufByte s.cur.toNat 4
      let y := bufWord s.bufByte (s.cur.toNat + 4) 4
      let z := bufWord s.bufByte (s.cur.toNat + 8) 4
      ∃ t, exec (absorbInstr p) s = .next t ∧
        t = { s with
          w0 := x, w1 := y, w2 := z, a := s.a + x, b := s.b + y, c := s.c + z, ph := 4#3, st := 1#3,
          rq := none, answers := [], readLog := s.readLog ++ (blockReads p s.cur 12).drop s.answers.length,
          draws := t.draws }

/-- What the rules of `TAIL.p.n`, `1 <= n <= 12`, say: the row that selects it; the words of the last `n` bytes read in
ascending offset and added, the last one masked to its valid bytes; an accumulator and a `w` register whose word takes
no part are not changed; F1 follows. Begun or taken up again (R68), the requests already answered are not made again. A `w` register holds its word as read: the buffer's bytes in the valid lanes, and
on the halfword and byte paths zero above them. -/
def tailClauses (p : Path) (n : Nat) : Prop :=
  (∀ d : DispatchWord, d.ph = 3#3 → d.path = p.code → d.gt12 = false → d.l4.toNat = n →
    decodeDispatch d = .ok (tailInstr p n)) ∧
  ∀ s : State, Underway (blockReads p s.cur n) s → s.rqAlone = false → s.cur.toNat + n ≤ s.limit →
    let x := bufWord s.bufByte s.cur.toNat (min 4 n)
    let y := bufWord s.bufByte (s.cur.toNat + 4) (min 4 (n - 4))
    let z := bufWord s.bufByte (s.cur.toNat + 8) (min 4 (n - 8))
    ∃ t, exec (tailInstr p n) s = .next t ∧
      t = { s with
        w0 := t.w0, w1 := t.w1, w2 := t.w2,
        a := s.a + x, b := if 4 < n then s.b + y else s.b, c := if 8 < n then s.c + z else s.c,
        ph := 5#3, st := 1#3, rq := none, answers := [],
        readLog := s.readLog ++ (blockReads p s.cur n).drop s.answers.length, draws := t.draws } ∧
      t.w0 &&& mask (min 4 n) = x ∧ (4 < n → t.w1 &&& mask (min 4 (n - 4)) = y) ∧
      (8 < n → t.w2 &&& mask (min 4 (n - 8)) = z) ∧ (n ≤ 4 → t.w1 = s.w1) ∧ (n ≤ 8 → t.w2 = s.w2) ∧
      (p ≠ .W → t.w0 = x ∧ (4 < n → t.w1 = y) ∧ (8 < n → t.w2 = z))

/-- R152 to R163: the word path's tails of 12 down to 1 bytes. -/
def Obligations.WordPathTailAddsTheLastBytes : Prop :=
  ∀ n : Nat, 1 ≤ n → n ≤ 12 → tailClauses .W n

/-- R171 to R182: the halfword path's tails of 12 down to 1 bytes. -/
def Obligations.HalfwordPathTailAddsTheLastBytes : Prop :=
  ∀ n : Nat, 1 ≤ n → n ≤ 12 → tailClauses .H n

/-- R191 to R202: the byte path's tails of 12 down to 1 bytes. -/
def Obligations.BytePathTailAddsTheLastBytes : Prop :=
  ∀ n : Nat, 1 ≤ n → n ≤ 12 → tailClauses .B n

/-- R164, R183, R203: with no byte left nothing is read or added, Final is skipped and EMIT follows, on every path. -/
def Obligations.EmptyTailSkipsFinal : Prop :=
  ∀ p : Path,
    (∀ d : DispatchWord, d.ph = 3#3 → d.path = p.code → d.gt12 = false → d.l4 = 0#4 →
      decodeDispatch d = .ok (tailInstr p 0)) ∧
    ∀ s : State, exec (tailInstr p 0) s = .next { s with ph := 6#3, st := 0#3 }

/-! ## Mix, ADV and Final -/

/-- R210 to R215: the six lines of Mix; the third assignment of a line reads what the first two left. -/
def Obligations.MixStagesAreTheSixLines : Prop :=
  (∀ d : DispatchWord, d.ph = 4#3 →
    (d.st = 1#3 → decodeDispatch d = .ok .m1) ∧ (d.st = 2#3 → decodeDispatch d = .ok .m2) ∧
    (d.st = 3#3 → decodeDispatch d = .ok .m3) ∧ (d.st = 4#3 → decodeDispatch d = .ok .m4) ∧
    (d.st = 5#3 → decodeDispatch d = .ok .m5) ∧ (d.st = 6#3 → decodeDispatch d = .ok .m6)) ∧
  ∀ s : State,
    exec .m1 s = .next { s with a := (s.a - s.c) ^^^ s.c.rotateLeft 4, c := s.c + s.b, st := 2#3 } ∧
    exec .m2 s = .next { s with b := (s.b - s.a) ^^^ s.a.rotateLeft 6, a := s.a + s.c, st := 3#3 } ∧
    exec .m3 s = .next { s with c := (s.c - s.b) ^^^ s.b.rotateLeft 8, b := s.b + s.a, st := 4#3 } ∧
    exec .m4 s = .next { s with a := (s.a - s.c) ^^^ s.c.rotateLeft 16, c := s.c + s.b, st := 5#3 } ∧
    exec .m5 s = .next { s with b := (s.b - s.a) ^^^ s.a.rotateLeft 19, a := s.a + s.c, st := 6#3 } ∧
    exec .m6 s = .next { s with c := (s.c - s.b) ^^^ s.b.rotateLeft 4, b := s.b + s.a, st := 7#3 }

/-- R217: M1 to M6 one after the other are Mix, and touch nothing but the accumulators and the stage. -/
def Obligations.SixStagesAreMix : Prop :=
  ∀ s : State, ∃ s1 s2 s3 s4 s5 t,
    exec .m1 s = .next s1 ∧ exec .m2 s1 = .next s2 ∧ exec .m3 s2 = .next s3 ∧ exec .m4 s3 = .next s4 ∧
    exec .m5 s4 = .next s5 ∧ exec .m6 s5 = .next t ∧
    t.acc = mixRef s.acc ∧ t = { s with a := t.a, b := t.b, c := t.c, st := 7#3 }

/-- R216: ADV; where more than 12 bytes are left and the cursor stays below 2^32, neither update wraps. That the updates
are taken modulo 2^32 in the other states, which no run reaches (R27), is the model's choice (log entry 13). -/
def Obligations.AdvMovesOneBlockOn : Prop :=
  (∀ d : DispatchWord, d.ph = 4#3 → d.st = 7#3 → decodeDispatch d = .ok .adv) ∧
  ∀ s : State, ∃ t, exec .adv s = .next t ∧
    t = { s with L := t.L, cur := t.cur, ph := 3#3, st := 0#3 } ∧
    t.L = s.L - 12#32 ∧ t.cur = s.cur + 12#32 ∧
    (12 < s.L.toNat → t.L.toNat = s.L.toNat - 12) ∧ (s.cur.toNat + 12 < 2 ^ 32 → t.cur.toNat = s.cur.toNat + 12)

/-- R221 to R227: the seven lines of Final; the second assignment of a line reads what the first left. -/
def Obligations.FinalStagesAreTheSevenLines : Prop :=
  (∀ d : DispatchWord, d.ph = 5#3 →
    (d.st = 1#3 → decodeDispatch d = .ok .f1) ∧ (d.st = 2#3 → decodeDispatch d = .ok .f2) ∧
    (d.st = 3#3 → decodeDispatch d = .ok .f3) ∧ (d.st = 4#3 → decodeDispatch d = .ok .f4) ∧
    (d.st = 5#3 → decodeDispatch d = .ok .f5) ∧ (d.st = 6#3 → decodeDispatch d = .ok .f6) ∧
    (d.st = 7#3 → decodeDispatch d = .ok .f7)) ∧
  ∀ s : State,
    exec .f1 s = .next { s with c := (s.c ^^^ s.b) - s.b.rotateLeft 14, st := 2#3 } ∧
    exec .f2 s = .next { s with a := (s.a ^^^ s.c) - s.c.rotateLeft 11, st := 3#3 } ∧
    exec .f3 s = .next { s with b := (s.b ^^^ s.a) - s.a.rotateLeft 25, st := 4#3 } ∧
    exec .f4 s = .next { s with c := (s.c ^^^ s.b) - s.b.rotateLeft 16, st := 5#3 } ∧
    exec .f5 s = .next { s with a := (s.a ^^^ s.c) - s.c.rotateLeft 4, st := 6#3 } ∧
    exec .f6 s = .next { s with b := (s.b ^^^ s.a) - s.a.rotateLeft 14, st := 7#3 } ∧
    exec .f7 s = .next { s with c := (s.c ^^^ s.b) - s.b.rotateLeft 24, ph := 6#3, st := 0#3 }

/-- R229: F1 to F7 one after the other are Final, and touch nothing but the accumulators and the position. -/
def Obligations.SevenStagesAreFinal : Prop :=
  ∀ s : State, ∃ s1 s2 s3 s4 s5 s6 t,
    exec .f1 s = .next s1 ∧ exec .f2 s1 = .next s2 ∧ exec .f3 s2 = .next s3 ∧ exec .f4 s3 = .next s4 ∧
    exec .f5 s4 = .next s5 ∧ exec .f6 s5 = .next s6 ∧ exec .f7 s6 = .next t ∧
    t.acc = finalRef s.acc ∧ t = { s with a := t.a, b := t.b, c := t.c, ph := 6#3, st := 0#3 }

/-! ## The host -/

/-- R235: START takes the length and begins a job when none runs, and is dropped without effect otherwise. -/
def Obligations.StartBeginsAJobOnlyWhenIdle : Prop :=
  (∀ wdata : Word, wdata.toNat % 2 = 1 → decodeHost (1#1 ++ 0#2 ++ wdata) = .start) ∧
  ∀ s : State,
    (s.BUSY = false → exec .start s = .next { s with N := s.LEN, BUSY := true, DONE := false, ph := 1#3 }) ∧
    (s.BUSY = true → exec .start s = .next s)

/-- R236, R237, R238: WR.NOP and WR.IGN change nothing, WR.LEN changes `LEN` alone, whatever `BUSY` is. -/
def Obligations.HostWritesChangeLenAlone : Prop :=
  (∀ wdata : Word, wdata.toNat % 2 = 0 → decodeHost (1#1 ++ 0#2 ++ wdata) = .wrNop) ∧
  (∀ wdata : Word, decodeHost (1#1 ++ 1#2 ++ wdata) = .wrLen wdata) ∧
  (∀ wdata : Word, decodeHost (1#1 ++ 2#2 ++ wdata) = .wrIgn ∧ decodeHost (1#1 ++ 3#2 ++ wdata) = .wrIgn) ∧
  ∀ s : State,
    exec .wrNop s = .next s ∧ exec .wrIgn s = .next s ∧ ∀ v : Word, exec (.wrLen v) s = .next { s with LEN := v }

/-- R239: RD.LEN returns `LEN`. -/
def Obligations.ReadLenReturnsLen : Prop :=
  (∀ wdata : Word, decodeHost (0#1 ++ 1#2 ++ wdata) = .rdLen) ∧
  ∀ s : State, exec .rdLen s = .next { s with rdata := s.LEN }

/-- R242: RD.CSR returns `BUSY` in bit 0, `DONE` in bit 1, `path` in bits 3:2 when `DONE = 1` and some value there when
`DONE = 0`, and 0 above; it changes nothing of the core. In the states a run reaches the two status bits are never both 1
and `PATH` is never 3 while `DONE = 1`. -/
def Obligations.ReadCsrReturnsTheStatus : Prop :=
  (∀ wdata : Word, decodeHost (0#1 ++ 0#2 ++ wdata) = .rdCsr) ∧
  ∀ s : State, ∃ t, exec .rdCsr s = .next t ∧
    t = { s with rdata := t.rdata, draws := t.draws } ∧
    (∃ x : BitVec 2, (s.DONE = true → x = s.path) ∧
      t.rdata.toNat = (if s.BUSY then 1 else 0) + (if s.DONE then 2 else 0) + 4 * x.toNat) ∧
    (Inv s → t.rdata.toNat % 4 ≠ 3 ∧ (s.DONE = true → t.rdata.toNat / 4 < 3))

/-- R241, R243: RD.DIGEST_LO and RD.DIGEST_HI return the halves of `digest` when `DONE = 1` and some value when
`DONE = 0`; they change nothing of the core. -/
def Obligations.ReadDigestReturnsItsHalves : Prop :=
  (∀ wdata : Word, decodeHost (0#1 ++ 2#2 ++ wdata) = .rdDigestLo ∧ decodeHost (0#1 ++ 3#2 ++ wdata) = .rdDigestHi) ∧
  ∀ s : State, ∃ t u, exec .rdDigestLo s = .next t ∧ exec .rdDigestHi s = .next u ∧
    t = { s with rdata := t.rdata, draws := t.draws } ∧ u = { s with rdata := u.rdata, draws := u.draws } ∧
    (s.DONE = true → u.rdata.toNat * 2 ^ 32 + t.rdata.toNat = s.digest.toNat)

/-- R292: a host access made while a job runs changes nothing the sequencer's operation works on, so the operation that
follows it leaves the same job as without it: any operation where no answer to a request of the sequencer's is still to
come, and where one is, the operation that waits for it. -/
def Obligations.HostAccessDoesNotDisturbARunningJob : Prop :=
  ∀ (s t u v : State) (hw : BitVec 35) (i : Instr), s.BUSY = true → i.format = .seq →
    (s.rq = none ∨ s.rqAlone = true ∨ (Inv s ∧ decodeDispatch s.dispatch = .ok i)) →
    exec (decodeHost hw) s = .next t → exec i t = .next u → exec i s = .next v →
    u.acc = v.acc ∧ u.N = v.N ∧ u.L = v.L ∧ u.cur = v.cur ∧ u.path = v.path ∧ u.ph = v.ph ∧ u.st = v.st ∧
      u.digest = v.digest ∧ u.BUSY = v.BUSY ∧ u.DONE = v.DONE ∧ u.rq = v.rq ∧ u.readLog = v.readLog ∧
      u.answers.length = v.answers.length

/-! ## The reader and the ALU -/

/-- R130, R136, R138, R139: each reader operation, when the platform answers, returns the buffer's bytes in its valid
lanes and zero above its size, with some value in the lanes between; a whole request returns the buffer's word. Each is
selected by its request word. That a request run alone is bounded by what the platform serves and not by `N`, may be
unaligned, and that RD16 runs with `v = 1`, which R96 allows and no operation issues, is the model's choice (log entry
11). -/
def Obligations.ReaderOperationsReturnBufferBytes : Prop :=
  (∀ off : Word, decodeRead (0#2 ++ 1#3 ++ off) = .ok (.rd8 off) ∧
    (off.toNat % 2 = 0 → decodeRead (1#2 ++ 2#3 ++ off) = .ok (.rd16 2#3 off)) ∧
    ∀ v : BitVec 3, 1 ≤ v.toNat → v.toNat ≤ 4 → off.toNat % 4 = 0 → decodeRead (2#2 ++ v ++ off) = .ok (.rd32 v off)) ∧
  ∀ (s : State) (off : Word), s.rq = none →
    (off.toNat + 1 ≤ s.limit →
      ∃ t, exec (.rd8 off) s = .next t ∧
        t = { s with
          readData := bufWord s.bufByte off.toNat 1, rq := none, rqAlone := false,
          readLog := s.readLog ++ [⟨0#2, 1#3, off⟩], draws := t.draws }) ∧
    (∀ v : BitVec 3, 1 ≤ v.toNat → v.toNat ≤ 2 → off.toNat + v.toNat ≤ s.limit →
      ∃ t, exec (.rd16 v off) s = .next t ∧
        t = { s with
          readData := t.readData, rq := none, rqAlone := false, readLog := s.readLog ++ [⟨1#2, v, off⟩],
          draws := t.draws } ∧
        t.readData.toNat < 2 ^ 16 ∧ t.readData &&& mask v.toNat = bufWord s.bufByte off.toNat v.toNat ∧
        (v = 2#3 → t.readData = bufWord s.bufByte off.toNat 2)) ∧
    ∀ v : BitVec 3, 1 ≤ v.toNat → v.toNat ≤ 4 → off.toNat + v.toNat ≤ s.limit →
      ∃ t, exec (.rd32 v off) s = .next t ∧
        t = { s with
          readData := t.readData, rq := none, rqAlone := false, readLog := s.readLog ++ [⟨2#2, v, off⟩],
          draws := t.draws } ∧
        t.readData &&& mask v.toNat = bufWord s.bufByte off.toNat v.toNat ∧
        (v = 4#3 → t.readData = bufWord s.bufByte off.toNat 4)

/-- R62, R75, R137: after its mask the word composed on any path is the little-endian word of the buffer's bytes, so no
result depends on an unspecified lane or on the path; four whole bytes need no mask. -/
def Obligations.EveryPathComposesTheSameWord : Prop :=
  ∀ (p : Path) (s t : State) (o : Word) (v : Nat) (ls : List Lanes), 1 ≤ v → v ≤ 4 → o.toNat + v ≤ 2 ^ 32 →
    Underway (wordReads p o v) s → s.rqAlone = false → readAll (wordReads p o v) s = .answered ls t →
    and32 (composeWord p ls) (mask v) = bufWord s.bufByte o.toNat v ∧
      (v = 4 ∨ p ≠ .W → composeWord p ls = bufWord s.bufByte o.toNat v)

/-- What R68 says of an operation of the sequencer's with the requests `rs` one of which the platform does not answer:
the first such is outstanding, those before it are answered once each, no register has changed, and the operation is
taken up there. -/
def waitClauses (i : Instr) (rs : List ReadReq) (s : State) : Prop :=
  Underway rs s → s.rqAlone = false →
    ¬(∀ r ∈ rs.drop s.answers.length, r.off.toNat + r.v.toNat ≤ s.limit) →
    ∃ t pre r post, exec i s = .next t ∧ rs.drop s.answers.length = pre ++ r :: post ∧
      (∀ q ∈ pre, q.off.toNat + q.v.toNat ≤ s.limit) ∧ s.limit < r.off.toNat + r.v.toNat ∧
      t = { s with rq := some r, answers := t.answers, readLog := s.readLog ++ pre, draws := t.draws } ∧
      s.answers <+: t.answers ∧ t.answers.length = s.answers.length + pre.length ∧ Underway rs t

/-- R68, R252: an operation one of whose reads the platform does not answer leaves that request outstanding and every
register as it was; a request run alone too. Which requests the platform answers is the model's choice (log entry 3), and
what the operation has been answered is kept in a field of the model's own (log entry 17). -/
def Obligations.UnansweredReadLeavesTheCoreWaiting : Prop :=
  ∀ s : State,
    (∀ p : Path, waitClauses (absorbInstr p) (blockReads p s.cur 12) s) ∧
    (∀ (p : Path) (n : Nat), 1 ≤ n → n ≤ 12 → waitClauses (tailInstr p n) (blockReads p s.cur n) s) ∧
    (s.N ≠ 0#32 → waitClauses .select [⟨2#2, BitVec.ofNat 3 (min s.N.toNat 4), 0#32⟩] s) ∧
    (s.rq = none →
      (∀ off : Word, s.limit < off.toNat + 1 →
        exec (.rd8 off) s = .next { s with rq := some ⟨0#2, 1#3, off⟩, rqAlone := true }) ∧
      ∀ (v : BitVec 3) (off : Word), s.limit < off.toNat + v.toNat →
        exec (.rd16 v off) s = .next { s with rq := some ⟨1#2, v, off⟩, rqAlone := true } ∧
        exec (.rd32 v off) s = .next { s with rq := some ⟨2#2, v, off⟩, rqAlone := true })

/-- R120 to R123: ADD, SUB, XOR, AND on the ALU's operands, modulo 2^32 or bit by bit, `k` not looked at; nothing else
changes. -/
def Obligations.AluAddSubXorAnd : Prop :=
  (∀ k : BitVec 5, decodeAlu (0#3 ++ k) = .ok .add ∧ decodeAlu (1#3 ++ k) = .ok .sub ∧
    decodeAlu (2#3 ++ k) = .ok .xor ∧ decodeAlu (3#3 ++ k) = .ok .and) ∧
  ∀ s : State, ∃ t1 t2 t3 t4,
    exec .add s = .next t1 ∧ exec .sub s = .next t2 ∧ exec .xor s = .next t3 ∧ exec .and s = .next t4 ∧
    t1 = { s with aluOut := t1.aluOut } ∧ t2 = { s with aluOut := t2.aluOut } ∧
    t3 = { s with aluOut := t3.aluOut } ∧ t4 = { s with aluOut := t4.aluOut } ∧
    t1.aluOut.toNat = (s.aluX.toNat + s.aluY.toNat) % 2 ^ 32 ∧
    t2.aluOut.toNat = (s.aluX.toNat + 2 ^ 32 - s.aluY.toNat) % 2 ^ 32 ∧
    ∀ j : Nat, j < 32 →
      t3.aluOut.getLsbD j = (s.aluX.getLsbD j != s.aluY.getLsbD j) ∧
      t4.aluOut.getLsbD j = (s.aluX.getLsbD j && s.aluY.getLsbD j)

/-- R124: ROL moves bit `j` of `x` to bit `(j + k) mod 32`, which is the document's formula for `k >= 1` and `x` for
`k = 0`; nothing else changes. -/
def Obligations.RolMovesEachBitLeft : Prop :=
  (∀ k : BitVec 5, decodeAlu (4#3 ++ k) = .ok (.rol k)) ∧
  ∀ (s : State) (k : BitVec 5), ∃ t, exec (.rol k) s = .next t ∧ t = { s with aluOut := t.aluOut } ∧
    (∀ j : Nat, j < 32 → t.aluOut.getLsbD ((j + k.toNat) % 32) = s.aluX.getLsbD j) ∧
    (k ≠ 0#5 → t.aluOut.toNat = (s.aluX.toNat * 2 ^ k.toNat ||| s.aluX.toNat / 2 ^ (32 - k.toNat)) % 2 ^ 32) ∧
    (k = 0#5 → t.aluOut = s.aluX)

/-- R126 (2), (3): sums may be taken in any order, and operands with no 1 bit in common add as they OR and XOR. -/
def Obligations.AluSumsOfDisjointWordsAreTheirUnion : Prop :=
  ∀ x y z : Word,
    add32 x y = add32 y x ∧ add32 (add32 x y) z = add32 x (add32 y z) ∧
    (and32 x y = 0#32 → add32 x y = x ||| y ∧ add32 x y = xor32 x y)

/-! ## The buffer -/

/-- R66: no operation of the core changes a byte of the buffer. -/
def Obligations.NoOperationWritesTheBuffer : Prop :=
  ∀ (i : Instr) (s t : State), exec i s = .next t → ∀ off : Nat, t.bufByte off = s.bufByte off

/-- R60, R61: the host's write of a byte is read back, every other byte keeps its value, nothing else changes, and the
canonical form is kept (the form is the model's own). That while a job runs a write at or beyond `N`, and a write of the
value that is there already, are performed, as no change of the buffer, is the model's choice (log entry 14). -/
def Obligations.BufferWriteChangesOneByte : Prop :=
  ∀ (s : State) (off : Word) (value : Byte) (rest : List Event),
    s.agenda = .writeBuffer off value :: rest →
    (s.BUSY = false ∨ s.N.toNat ≤ off.toNat ∨ Memory.read s.mem off.toNat = some value) →
    ∃ t, step s = .next t ∧ t = { s with mem := t.mem, agenda := rest } ∧ t.bufByte off.toNat = value ∧
      (∀ other : Nat, other ≠ off.toNat → t.bufByte other = s.bufByte other) ∧
      (Memory.wf s.mem = true → Memory.wf t.mem = true)

/-- R61: a change of a byte of the running job's buffer has no meaning. Which writes count as a change is the model's
choice (log entry 14): those of another value than the one written before, a first write of a byte among them. -/
def Obligations.BufferChangeInAJobIsRefused : Prop :=
  ∀ (s : State) (off : Word) (value : Byte) (rest : List Event),
    s.agenda = .writeBuffer off value :: rest → s.BUSY = true → off.toNat < s.N.toNat →
    Memory.read s.mem off.toNat ≠ some value → step s = .refused .bufferChangedWhileBusy

/-! ## Rules about the whole machine -/

/-- R20, the column "written by", register by register: an operation changes only registers the table says it writes.
`st` is also written by SEED and EMIT, as 0 (R140, R228). An empty tail writes no accumulator and no `w` register (R164,
R183, R203). What an operation that uses the reader keeps of its answers is the model's own (log entry 17). -/
def Obligations.OnlyTheListedOperationsWriteARegister : Prop :=
  ∀ (i : Instr) (s t : State), exec i s = .next t →
    (i ≠ .seed → ¬addsWords i → ¬isStage i → t.acc = s.acc) ∧
    (i ≠ .start → t.N = s.N) ∧
    (i ≠ .seed → i ≠ .adv → t.L = s.L ∧ t.cur = s.cur) ∧
    (i ≠ .select → t.path = s.path ∧ t.fw = s.fw) ∧
    (¬addsWords i → t.w0 = s.w0 ∧ t.w1 = s.w1 ∧ t.w2 = s.w2) ∧
    (i.format ≠ .seq → i ≠ .start → t.ph = s.ph) ∧
    (¬addsWords i → ¬isStage i → i ≠ .adv → i ∉ [.tailW0, .tailH0, .tailB0] →
      t.st = s.st ∨ ((i = .seed ∨ i = .emit) ∧ t.st = 0#3)) ∧
    (i ≠ .emit → t.digest = s.digest) ∧
    (i ≠ .emit → i ≠ .start → t.BUSY = s.BUSY ∧ t.DONE = s.DONE) ∧
    ((∀ v, i ≠ .wrLen v) → t.LEN = s.LEN) ∧
    (¬usesReader i → t.rq = s.rq ∧ t.rqAlone = s.rqAlone ∧ t.answers = s.answers ∧ t.readLog = s.readLog)

/-- R247, R250: no operation of the core raises anything: every one of them answers a next state, in every state. -/
def Obligations.EveryOperationAnswersANextState : Prop :=
  ∀ (i : Instr) (s : State), ∃ t, exec i s = .next t

/-- The invariant holds right after reset. -/
def Obligations.ResetMeetsTheInvariant : Prop := Inv State.reset

/-- R23, R27, R30, R34, R38, R68, R99: what the invariant says holds after every step from a state where it holds, whichever
agent moves and whatever it does. -/
def Obligations.EveryStepKeepsTheInvariant : Prop :=
  ∀ s t : State, Inv s → step s = .next t → Inv t

/-- R99, R250: in a state that meets the invariant the sequencer's step is never stuck, so no run from reset faults. -/
def Obligations.NoFaultUnderTheInvariant : Prop :=
  ∀ (s : State) (f : Fault), Inv s → step s ≠ .fault f

/-- R63, R64, R131: what the sequencer asks of the read port in a job, answered in this step or outstanding after it, lies
inside the buffer's `N` bytes, is aligned, and has the size of the job's path (SELECT's has size 2). -/
def Obligations.RequestsStayInsideTheBuffer : Prop :=
  ∀ (s t : State) (r : ReadReq), Inv s → s.rst = false → s.rqAlone = false → (s.agenda = [] ∨ ∃ rest, s.agenda = .sequencer :: rest) →
    step s = .next t → (r ∈ t.readLog.drop s.readLog.length ∨ t.rq = some r) →
    r.off.toNat + r.v.toNat ≤ s.N.toNat ∧ r.legal = true ∧
      (s.ph = 2#3 → r.size = 2#2) ∧ (s.ph = 3#3 → s.path = 2#2 → r.size = 2#2) ∧
      (s.ph = 3#3 → s.path = 1#2 → r.size = 1#2 ∨ r.size = 0#2) ∧ (s.ph = 3#3 → s.path = 0#2 → r.size = 0#2)

/-! ## Whole jobs -/

/-- R3, R93, R231: a started job reaches EMIT after `8q + 11` operations (4 for the empty buffer), with `digest` the
lookup3 digest of its `N` bytes. -/
def Obligations.AJobComputesTheLookup3Digest : Prop :=
  ∀ s : State, JobStart s →
    ∃ t, core.run (jobOps s.N.toNat) s = .next t ∧ t.digest = lookup3 s.bufByte s.N.toNat ∧
      t.DONE = true ∧ t.BUSY = false ∧ t.ph = 0#3 ∧ t.st = 0#3

/-- R65, R71, R301: the reads of a whole job, in order, and how many they are; the path is the one the first byte
selects. -/
def Obligations.AJobMakesTheReadsOfItsPath : Prop :=
  ∀ s : State, JobStart s →
    let p := jobPath s.bufByte s.N.toNat
    (jobRequests p s.N.toNat).length = jobReads p s.N.toNat ∧
    ∃ t, core.run (jobOps s.N.toNat) s = .next t ∧ t.path = p.code ∧
      t.readLog = s.readLog ++ jobRequests p s.N.toNat

/-- R230: the empty buffer's digest is the seed alone, after four operations and no read. -/
def Obligations.EmptyBufferGivesTheSeed : Prop :=
  ∀ s : State, JobStart s → s.N = 0#32 →
    ∃ t, core.run 4 s = .next t ∧ t.digest = 0xdeadbeefdeadbeef#64 ∧ t.DONE = true ∧ t.readLog = s.readLog

/-- R47, R282: the digest of a job is a function of its `N` bytes: whatever any register, draw or other byte was at the
start of two jobs on the same bytes, they give the same digest. -/
def Obligations.DigestDependsOnTheBufferAlone : Prop :=
  ∀ s u : State, JobStart s → JobStart u → s.N = u.N →
    (∀ off : Nat, off < s.N.toNat → s.bufByte off = u.bufByte off) →
    ∃ t v, core.run (jobOps s.N.toNat) s = .next t ∧ core.run (jobOps u.N.toNat) u = .next v ∧ t.digest = v.digest

/-- R292: whatever host accesses fall between the operations of a running job, and however many, the job's digest is the
same. -/
def Obligations.DigestDoesNotDependOnTheInterleaving : Prop :=
  ∀ s : State, s.BUSY = true → JobStart { s with agenda := [] } →
    (∀ e ∈ s.agenda, e = .sequencer ∨ ∃ hw, e = .host hw) → s.agenda.count .sequencer = jobOps s.N.toNat →
    ∃ t, core.run s.agenda.length s = .next t ∧ t.digest = lookup3 s.bufByte s.N.toNat

/-- R245: a whole call. From any idle state with no request outstanding, the host's WR.LEN and START, the job, and the two reads: what they return,
put together, is the digest of the buffer. -/
def Obligations.ACallReturnsTheDigestOfTheBuffer : Prop :=
  ∀ (s : State) (n : Word), Inv s → s.BUSY = false → s.rst = false → s.rq = none → n.toNat ≤ s.limit →
    s.agenda = [.host (1#1 ++ 1#2 ++ n), .host (1#1 ++ 0#2 ++ 1#32)] →
    ∃ t lo hi, core.run (2 + jobOps n.toNat) s = .next t ∧ t.done = true ∧
      exec .rdDigestLo t = .next lo ∧ exec .rdDigestHi t = .next hi ∧
      hi.rdata ++ lo.rdata = lookup3 s.bufByte n.toNat

/-! ## Waiting for answers -/

/-- R68: one request in flight at most. While the outstanding request is not answered, no operation that reads does
anything; once it is, the answer goes to the one who asked (the sequencer's operation keeps it, a request run alone
returns it), and the operation then does what it does with no request outstanding. A request run alone that is given again
is ended by its own answer. That a request can be run alone at all, and where answers are kept, is the model's (log entries
11, 17); what the platform answers is log entry 3. -/
def Obligations.AnOutstandingReadIsAnsweredFirst : Prop :=
  ∀ (s : State) (r : ReadReq), s.rq = some r →
    (s.limit < r.off.toNat + r.v.toNat →
      ∀ i : Instr, addsWords i ∨ (i = .select ∧ s.N ≠ 0#32) ∨ i.format = .rdreq → exec i s = .next s) ∧
    (r.off.toNat + r.v.toNat ≤ s.limit → ∃ u : State,
      u = { s with
        rq := none, rqAlone := false, answers := u.answers, readData := u.readData, readLog := s.readLog ++ [r],
        draws := u.draws } ∧
      (∃ l : Lanes, (r.legal = true → isAnswerTo s.bufByte r l) ∧
        (s.rqAlone = true → u.answers = s.answers ∧ u.readData = l.word) ∧
        (s.rqAlone = false → u.answers = s.answers ++ [l] ∧ u.readData = s.readData)) ∧
      (∀ i : Instr, addsWords i ∨ (i = .select ∧ s.N ≠ 0#32) → exec i s = exec i u) ∧
      (∀ off : Word,
        exec (.rd8 off) s = if s.rqAlone = true ∧ r = ⟨0#2, 1#3, off⟩ then .next u else exec (.rd8 off) u) ∧
      ∀ (v : BitVec 3) (off : Word),
        exec (.rd16 v off) s = (if s.rqAlone = true ∧ r = ⟨1#2, v, off⟩ then .next u else exec (.rd16 v off) u) ∧
        exec (.rd32 v off) s = (if s.rqAlone = true ∧ r = ⟨2#2, v, off⟩ then .next u else exec (.rd32 v off) u))

/-- R65, R68, R71: however long the answers to a job's reads are in coming, and in whatever pattern the platform gives
them, a job that reaches EMIT has the digest of its buffer, and has made each of its reads once, in order. The patterns of
answers are those of log entry 3. -/
def Obligations.DigestAndReadsDoNotDependOnTheWaits : Prop :=
  ∀ (s t : State) (k : Nat), s.ph = 1#3 → s.BUSY = true → s.DONE = false → s.rst = false → s.rq = none →
    s.answers = [] → (∀ e ∈ s.agenda, e = .sequencer ∨ ∃ n, e = .serve n) →
    core.run k s = .next t → t.DONE = true →
    t.digest = lookup3 s.bufByte s.N.toNat ∧
      t.readLog = s.readLog ++ jobRequests (jobPath s.bufByte s.N.toNat) s.N.toNat
end

