-- ==== Sys2Proof/Laws/State.lean ====
section
/-! SUPPORT. One lemma per field per named update of State, true by rfl, so that no proof unfolds a record update; and
what reset leaves. -/

namespace Sys2Proof.Laws

open Machine

/-! ## issueRead -/

@[simp] theorem issueRead_a (alone : Bool) (r : ReadReq) (s : State) : (issueRead alone r s).a = s.a := rfl
@[simp] theorem issueRead_b (alone : Bool) (r : ReadReq) (s : State) : (issueRead alone r s).b = s.b := rfl
@[simp] theorem issueRead_c (alone : Bool) (r : ReadReq) (s : State) : (issueRead alone r s).c = s.c := rfl
@[simp] theorem issueRead_N (alone : Bool) (r : ReadReq) (s : State) : (issueRead alone r s).N = s.N := rfl
@[simp] theorem issueRead_L (alone : Bool) (r : ReadReq) (s : State) : (issueRead alone r s).L = s.L := rfl
@[simp] theorem issueRead_cur (alone : Bool) (r : ReadReq) (s : State) : (issueRead alone r s).cur = s.cur := rfl
@[simp] theorem issueRead_path (alone : Bool) (r : ReadReq) (s : State) : (issueRead alone r s).path = s.path := rfl
@[simp] theorem issueRead_fw (alone : Bool) (r : ReadReq) (s : State) : (issueRead alone r s).fw = s.fw := rfl
@[simp] theorem issueRead_w0 (alone : Bool) (r : ReadReq) (s : State) : (issueRead alone r s).w0 = s.w0 := rfl
@[simp] theorem issueRead_w1 (alone : Bool) (r : ReadReq) (s : State) : (issueRead alone r s).w1 = s.w1 := rfl
@[simp] theorem issueRead_w2 (alone : Bool) (r : ReadReq) (s : State) : (issueRead alone r s).w2 = s.w2 := rfl
@[simp] theorem issueRead_ph (alone : Bool) (r : ReadReq) (s : State) : (issueRead alone r s).ph = s.ph := rfl
@[simp] theorem issueRead_st (alone : Bool) (r : ReadReq) (s : State) : (issueRead alone r s).st = s.st := rfl
@[simp] theorem issueRead_digest (alone : Bool) (r : ReadReq) (s : State) : (issueRead alone r s).digest = s.digest := rfl
@[simp] theorem issueRead_BUSY (alone : Bool) (r : ReadReq) (s : State) : (issueRead alone r s).BUSY = s.BUSY := rfl
@[simp] theorem issueRead_DONE (alone : Bool) (r : ReadReq) (s : State) : (issueRead alone r s).DONE = s.DONE := rfl
@[simp] theorem issueRead_LEN (alone : Bool) (r : ReadReq) (s : State) : (issueRead alone r s).LEN = s.LEN := rfl
@[simp] theorem issueRead_rq (alone : Bool) (r : ReadReq) (s : State) : (issueRead alone r s).rq = some r := rfl
@[simp] theorem issueRead_answers (alone : Bool) (r : ReadReq) (s : State) : (issueRead alone r s).answers = s.answers := rfl
@[simp] theorem issueRead_rqAlone (alone : Bool) (r : ReadReq) (s : State) : (issueRead alone r s).rqAlone = alone := rfl
@[simp] theorem issueRead_mem (alone : Bool) (r : ReadReq) (s : State) : (issueRead alone r s).mem = s.mem := rfl
@[simp] theorem issueRead_served (alone : Bool) (r : ReadReq) (s : State) : (issueRead alone r s).served = s.served := rfl
@[simp] theorem issueRead_rst (alone : Bool) (r : ReadReq) (s : State) : (issueRead alone r s).rst = s.rst := rfl
@[simp] theorem issueRead_rdata (alone : Bool) (r : ReadReq) (s : State) : (issueRead alone r s).rdata = s.rdata := rfl
@[simp] theorem issueRead_readData (alone : Bool) (r : ReadReq) (s : State) : (issueRead alone r s).readData = s.readData := rfl
@[simp] theorem issueRead_aluX (alone : Bool) (r : ReadReq) (s : State) : (issueRead alone r s).aluX = s.aluX := rfl
@[simp] theorem issueRead_aluY (alone : Bool) (r : ReadReq) (s : State) : (issueRead alone r s).aluY = s.aluY := rfl
@[simp] theorem issueRead_aluOut (alone : Bool) (r : ReadReq) (s : State) : (issueRead alone r s).aluOut = s.aluOut := rfl
@[simp] theorem issueRead_readLog (alone : Bool) (r : ReadReq) (s : State) : (issueRead alone r s).readLog = s.readLog := rfl
@[simp] theorem issueRead_draws (alone : Bool) (r : ReadReq) (s : State) : (issueRead alone r s).draws = s.draws := rfl
@[simp] theorem issueRead_agenda (alone : Bool) (r : ReadReq) (s : State) : (issueRead alone r s).agenda = s.agenda := rfl

/-! ## releaseReset -/

@[simp] theorem releaseReset_a (s : State) : (releaseReset s).a = s.a := rfl
@[simp] theorem releaseReset_b (s : State) : (releaseReset s).b = s.b := rfl
@[simp] theorem releaseReset_c (s : State) : (releaseReset s).c = s.c := rfl
@[simp] theorem releaseReset_N (s : State) : (releaseReset s).N = s.N := rfl
@[simp] theorem releaseReset_L (s : State) : (releaseReset s).L = s.L := rfl
@[simp] theorem releaseReset_cur (s : State) : (releaseReset s).cur = s.cur := rfl
@[simp] theorem releaseReset_path (s : State) : (releaseReset s).path = s.path := rfl
@[simp] theorem releaseReset_fw (s : State) : (releaseReset s).fw = s.fw := rfl
@[simp] theorem releaseReset_w0 (s : State) : (releaseReset s).w0 = s.w0 := rfl
@[simp] theorem releaseReset_w1 (s : State) : (releaseReset s).w1 = s.w1 := rfl
@[simp] theorem releaseReset_w2 (s : State) : (releaseReset s).w2 = s.w2 := rfl
@[simp] theorem releaseReset_ph (s : State) : (releaseReset s).ph = s.ph := rfl
@[simp] theorem releaseReset_st (s : State) : (releaseReset s).st = s.st := rfl
@[simp] theorem releaseReset_digest (s : State) : (releaseReset s).digest = s.digest := rfl
@[simp] theorem releaseReset_BUSY (s : State) : (releaseReset s).BUSY = s.BUSY := rfl
@[simp] theorem releaseReset_DONE (s : State) : (releaseReset s).DONE = s.DONE := rfl
@[simp] theorem releaseReset_LEN (s : State) : (releaseReset s).LEN = s.LEN := rfl
@[simp] theorem releaseReset_rq (s : State) : (releaseReset s).rq = s.rq := rfl
@[simp] theorem releaseReset_answers (s : State) : (releaseReset s).answers = s.answers := rfl
@[simp] theorem releaseReset_rqAlone (s : State) : (releaseReset s).rqAlone = s.rqAlone := rfl
@[simp] theorem releaseReset_mem (s : State) : (releaseReset s).mem = s.mem := rfl
@[simp] theorem releaseReset_served (s : State) : (releaseReset s).served = s.served := rfl
@[simp] theorem releaseReset_rst (s : State) : (releaseReset s).rst = false := rfl
@[simp] theorem releaseReset_rdata (s : State) : (releaseReset s).rdata = s.rdata := rfl
@[simp] theorem releaseReset_readData (s : State) : (releaseReset s).readData = s.readData := rfl
@[simp] theorem releaseReset_aluX (s : State) : (releaseReset s).aluX = s.aluX := rfl
@[simp] theorem releaseReset_aluY (s : State) : (releaseReset s).aluY = s.aluY := rfl
@[simp] theorem releaseReset_aluOut (s : State) : (releaseReset s).aluOut = s.aluOut := rfl
@[simp] theorem releaseReset_readLog (s : State) : (releaseReset s).readLog = s.readLog := rfl
@[simp] theorem releaseReset_draws (s : State) : (releaseReset s).draws = s.draws := rfl
@[simp] theorem releaseReset_agenda (s : State) : (releaseReset s).agenda = s.agenda := rfl

/-! ## assertReset -/

@[simp] theorem assertReset_a (s : State) : (assertReset s).a = Config.freeWord s.draws := rfl
@[simp] theorem assertReset_b (s : State) : (assertReset s).b = Config.freeWord (s.draws + 1) := rfl
@[simp] theorem assertReset_c (s : State) : (assertReset s).c = Config.freeWord (s.draws + 2) := rfl
@[simp] theorem assertReset_N (s : State) : (assertReset s).N = Config.freeWord (s.draws + 3) := rfl
@[simp] theorem assertReset_L (s : State) : (assertReset s).L = Config.freeWord (s.draws + 4) := rfl
@[simp] theorem assertReset_cur (s : State) : (assertReset s).cur = Config.freeWord (s.draws + 5) := rfl
@[simp] theorem assertReset_path (s : State) : (assertReset s).path = (Config.freeWord (s.draws + 6)).extractLsb' 0 2 := rfl
@[simp] theorem assertReset_fw (s : State) : (assertReset s).fw = Config.freeWord (s.draws + 7) := rfl
@[simp] theorem assertReset_w0 (s : State) : (assertReset s).w0 = Config.freeWord (s.draws + 8) := rfl
@[simp] theorem assertReset_w1 (s : State) : (assertReset s).w1 = Config.freeWord (s.draws + 9) := rfl
@[simp] theorem assertReset_w2 (s : State) : (assertReset s).w2 = Config.freeWord (s.draws + 10) := rfl
@[simp] theorem assertReset_ph (s : State) : (assertReset s).ph = 0#3 := rfl
@[simp] theorem assertReset_st (s : State) : (assertReset s).st = 0#3 := rfl
@[simp] theorem assertReset_digest (s : State) : (assertReset s).digest = Config.freeWord (s.draws + 11) ++ Config.freeWord (s.draws + 12) := rfl
@[simp] theorem assertReset_BUSY (s : State) : (assertReset s).BUSY = false := rfl
@[simp] theorem assertReset_DONE (s : State) : (assertReset s).DONE = false := rfl
@[simp] theorem assertReset_LEN (s : State) : (assertReset s).LEN = 0#32 := rfl
@[simp] theorem assertReset_rq (s : State) : (assertReset s).rq = none := rfl
@[simp] theorem assertReset_answers (s : State) : (assertReset s).answers = [] := rfl
@[simp] theorem assertReset_rqAlone (s : State) : (assertReset s).rqAlone = false := rfl
@[simp] theorem assertReset_mem (s : State) : (assertReset s).mem = s.mem := rfl
@[simp] theorem assertReset_served (s : State) : (assertReset s).served = s.served := rfl
@[simp] theorem assertReset_rst (s : State) : (assertReset s).rst = true := rfl
@[simp] theorem assertReset_rdata (s : State) : (assertReset s).rdata = s.rdata := rfl
@[simp] theorem assertReset_readData (s : State) : (assertReset s).readData = s.readData := rfl
@[simp] theorem assertReset_aluX (s : State) : (assertReset s).aluX = s.aluX := rfl
@[simp] theorem assertReset_aluY (s : State) : (assertReset s).aluY = s.aluY := rfl
@[simp] theorem assertReset_aluOut (s : State) : (assertReset s).aluOut = s.aluOut := rfl
@[simp] theorem assertReset_readLog (s : State) : (assertReset s).readLog = s.readLog := rfl
@[simp] theorem assertReset_draws (s : State) : (assertReset s).draws = s.draws + 13 := rfl
@[simp] theorem assertReset_agenda (s : State) : (assertReset s).agenda = s.agenda := rfl

@[simp] theorem issueRead_bufByte (alone : Bool) (r : ReadReq) (s : State) (off : Nat) : (issueRead alone r s).bufByte off = s.bufByte off := rfl
@[simp] theorem issueRead_limit (alone : Bool) (r : ReadReq) (s : State) : (issueRead alone r s).limit = s.limit := rfl
@[simp] theorem issueRead_serves (alone : Bool) (r q : ReadReq) (s : State) : (issueRead alone r s).serves q = s.serves q := rfl

/-! ## The state after reset (R281) -/

@[simp] theorem reset_ph : State.reset.ph = 0#3 := rfl
@[simp] theorem reset_st : State.reset.st = 0#3 := rfl
@[simp] theorem reset_BUSY : State.reset.BUSY = false := rfl
@[simp] theorem reset_DONE : State.reset.DONE = false := rfl
@[simp] theorem reset_LEN : State.reset.LEN = 0#32 := rfl
@[simp] theorem reset_rq : State.reset.rq = none := rfl
@[simp] theorem reset_answers : State.reset.answers = [] := rfl
@[simp] theorem reset_rqAlone : State.reset.rqAlone = false := rfl
@[simp] theorem reset_mem : State.reset.mem = [] := rfl
@[simp] theorem reset_rst : State.reset.rst = false := rfl
@[simp] theorem reset_readLog : State.reset.readLog = [] := rfl
@[simp] theorem reset_agenda : State.reset.agenda = [] := rfl

theorem limit_le (s : State) : s.limit ≤ 2 ^ 32 := Nat.min_le_right _ _

end Sys2Proof.Laws
end

