-- ==== Sys2Proof/Laws/Encoding.lean ====
section
/-! SUPPORT. Words put together from their fields and taken apart again (R91, R95, R96, R97). -/

namespace Sys2Proof.Laws

open Machine

/-- A word made of a high part and a low part, as the encoder adds them up. -/
theorem ofNat_append (m n k : Nat) (v : BitVec n) :
    BitVec.ofNat (m + n) (k * 2 ^ n + v.toNat) = BitVec.ofNat m k ++ v := by
  have hv := v.isLt
  have hp : 0 < 2 ^ n := by positivity
  apply BitVec.eq_of_toNat_eq
  rw [BitVec.toNat_append, ← Nat.shiftLeft_add_eq_or_of_lt hv, BitVec.toNat_ofNat, BitVec.toNat_ofNat, Nat.shiftLeft_eq,
    Nat.pow_add, Nat.mul_comm (2 ^ m) (2 ^ n), Nat.mod_mul, Nat.mul_add_mod_of_lt hv, Nat.mul_comm k,
    Nat.mul_add_div hp, Nat.div_eq_of_lt hv]
  simp [Nat.add_comm, Nat.mul_comm]

/-- A word of three parts, the middle and the lowest taken out. -/
theorem extract_mid {l m n : Nat} (x : BitVec l) (y : BitVec m) (z : BitVec n) : (x ++ y ++ z).extractLsb' n m = y := by
  ext i hi
  simp [BitVec.getLsbD_append, hi]

theorem extract_low {m n : Nat} (x : BitVec m) (y : BitVec n) : (x ++ y).extractLsb' 0 n = y :=
  BitVec.extractLsb'_append_eq_right

@[simp] theorem unpack_append (size : BitVec 2) (v : BitVec 3) (off : Word) :
    ReadReq.unpack (size ++ v ++ off) = ⟨size, v, off⟩ := by
  have h : (size ++ v ++ off).extractLsb' 35 2 = size := by
    ext i hi
    simp
    grind
  simp only [ReadReq.unpack, h, extract_mid, extract_low]

@[simp] theorem unpack_pack (r : ReadReq) : ReadReq.unpack r.pack = r := unpack_append r.size r.v r.off

@[simp] theorem dispatch_unpack_pack (d : DispatchWord) : DispatchWord.unpack d.pack = d := by
  obtain ⟨ph, st, path, gt12, l4⟩ := d
  simp only [DispatchWord.unpack, DispatchWord.pack, DispatchWord.mk.injEq]
  refine ⟨?_, ?_, ?_, ?_, ?_⟩ <;> (try ext i hi) <;> simp <;> grind

/-- The fields of a host access word. -/
theorem host_we (we : Bool) (idx : BitVec 2) (wdata : Word) : (BitVec.ofBool we ++ idx ++ wdata).getLsbD 34 = we := by
  cases we <;> simp <;> grind

theorem host_idx (we : Bool) (idx : BitVec 2) (wdata : Word) :
    (BitVec.ofBool we ++ idx ++ wdata).extractLsb' 32 2 = idx := extract_mid _ _ _

theorem host_wdata (we : Bool) (idx : BitVec 2) (wdata : Word) :
    (BitVec.ofBool we ++ idx ++ wdata).extractLsb' 0 32 = wdata := extract_low _ _

theorem host_start (we : Bool) (idx : BitVec 2) (wdata : Word) :
    (BitVec.ofBool we ++ idx ++ wdata).getLsbD 0 = wdata.getLsbD 0 := by
  simp
  grind

/-- A request is decoded exactly when R96 allows it. -/
theorem decodeReadReq_legal (r : ReadReq) (h : r.legal = true) :
    decodeReadReq r = .ok (if r.size = 0#2 then .rd8 r.off else if r.size = 1#2 then .rd16 r.v r.off else .rd32 r.v r.off) := by
  obtain ⟨size, v, off⟩ := r
  simp only [ReadReq.legal, Bool.and_eq_true, bne_iff_ne, ne_eq, decide_eq_true_eq, beq_iff_eq] at h
  obtain ⟨⟨⟨h3, h1⟩, hn⟩, ho⟩ := h
  have hs : size = 0#2 ∨ size = 1#2 ∨ size = 2#2 := by
    clear hn ho
    revert size
    decide
  unfold decodeReadReq
  rw [if_neg h3, if_neg (by simp; omega), if_neg (by simpa using ho)]
  rcases hs with rfl | rfl | rfl <;> rfl

theorem decodeReadReq_illegal (r : ReadReq) (h : r.legal = false) : ∃ e, decodeReadReq r = .error e := by
  unfold decodeReadReq
  split
  · exact ⟨_, rfl⟩
  · split
    · exact ⟨_, rfl⟩
    · split
      · exact ⟨_, rfl⟩
      · rename_i h1 h2 h3
        exfalso
        simp only [ReadReq.legal, Bool.and_eq_false_iff, bne_eq_false_iff_eq, decide_eq_false_iff_not, beq_eq_false_iff_ne] at h
        simp only [Bool.or_eq_true, decide_eq_true_eq, not_or] at h2
        grind

end Sys2Proof.Laws
end

