-- ==== Sys2Proof/Laws/Reader.lean ====
section
/-! SUPPORT. What the reader does, said once: an operation's requests are all answered, or the core is left waiting at the
first one that is not, and is taken up there. -/

namespace Sys2Proof.Laws

open Machine

/-! ## Waiting for an answer -/

/-- All that waiting for an answer can do: there is none to wait for, it is not given, it goes to the request run alone,
or it is one more of the operation's. -/
theorem receive_cases (s : State) :
    (s.rq = none ∧ receive s = some s) ∨
    (∃ r, s.rq = some r ∧ s.serves r = false ∧ receive s = none) ∨
    (∃ r, s.rq = some r ∧ s.serves r = true ∧ s.rqAlone = true ∧ receive s = some { s with
      rq := none, readLog := s.readLog ++ [r], draws := s.draws + 1, readData := memReadV s s.nextFree r,
      rqAlone := false }) ∨
    (∃ r, s.rq = some r ∧ s.serves r = true ∧ s.rqAlone = false ∧ receive s = some { s with
      rq := none, readLog := s.readLog ++ [r], draws := s.draws + 1, answers := s.answers ++ [answerLanes s s.nextFree r] }) := by
  cases hq : s.rq with
  | none => exact Or.inl ⟨rfl, by simp only [receive, hq]⟩
  | some r =>
    cases hs : s.serves r <;> cases ha : s.rqAlone
    · exact Or.inr (Or.inl ⟨r, rfl, hs, by simp [receive, hq, hs]⟩)
    · exact Or.inr (Or.inl ⟨r, rfl, hs, by simp [receive, hq, hs]⟩)
    · exact Or.inr (Or.inr (Or.inr ⟨r, rfl, hs, rfl, by simp [receive, hq, hs, deliver, ha]⟩))
    · exact Or.inr (Or.inr (Or.inl ⟨r, rfl, hs, rfl, by simp [receive, hq, hs, deliver, ha, memReadV]⟩))

/-- After an answer no request is outstanding, so waiting once more changes nothing. -/
theorem receive_again (s t : State) (h : receive s = some t) : t.rq = none ∧ receive t = some t := by
  rcases receive_cases s with ⟨hq, e⟩ | ⟨r, _, _, e⟩ | ⟨r, _, _, _, e⟩ | ⟨r, _, _, _, e⟩ <;> rw [e] at h <;> cases h
  · exact ⟨hq, e⟩
  · exact ⟨rfl, rfl⟩
  · exact ⟨rfl, rfl⟩

theorem receive_issueRead (r : ReadReq) (s : State) :
    receive (issueRead false r s) =
      if s.serves r then
        some { s with
          rq := none, rqAlone := false, readLog := s.readLog ++ [r], draws := s.draws + 1,
          answers := s.answers ++ [answerLanes s s.nextFree r] }
      else none := rfl

theorem receive_issueRead_alone (r : ReadReq) (s : State) :
    receive (issueRead true r s) =
      if s.serves r then
        some { s with
          rq := none, rqAlone := false, readLog := s.readLog ++ [r], draws := s.draws + 1,
          readData := memReadV s s.nextFree r }
      else none := rfl

/-- What waiting writes: the reader's fields, and what a request run alone returns. -/
theorem receive_frame (s t : State) (h : receive s = some t) :
    t = { s with
      rq := t.rq, rqAlone := t.rqAlone, answers := t.answers, readData := t.readData, readLog := t.readLog, draws := t.draws } := by
  rcases receive_cases s with ⟨_, e⟩ | ⟨r, _, _, e⟩ | ⟨r, _, _, _, e⟩ | ⟨r, _, _, _, e⟩ <;> rw [e] at h <;> cases h <;> rfl

/-! ## A list of requests -/

/-- The answers to requests the platform serves, the first from draw `k`. -/
def answersFrom (s : State) : Nat → List ReadReq → List Lanes
  | _, [] => []
  | k, r :: rs => answerLanes s (Config.freeWord k) r :: answersFrom s (k + 1) rs

/-- The state after the last requests of an operation, all answered: they are in the log and none is outstanding. -/
def afterReads (rs : List ReadReq) (s : State) : State :=
  { s with
    rq := if rs = [] then s.rq else none, rqAlone := if rs = [] then s.rqAlone else false, answers := [],
    readLog := s.readLog ++ rs, draws := s.draws + rs.length }

/-- The state in which the core waits for the answer to `r`, the requests `pre` before it answered. -/
def waitingAt (pre : List ReadReq) (r : ReadReq) (s : State) : State :=
  { s with
    rq := some r, rqAlone := false, answers := s.answers ++ answersFrom s s.draws pre,
    readLog := s.readLog ++ pre, draws := s.draws + pre.length }

@[simp] theorem answersFrom_nil (s : State) (k : Nat) : answersFrom s k [] = [] := rfl

@[simp] theorem answersFrom_cons (s : State) (k : Nat) (r : ReadReq) (rs : List ReadReq) :
    answersFrom s k (r :: rs) = answerLanes s (Config.freeWord k) r :: answersFrom s (k + 1) rs := rfl

@[simp] theorem answersFrom_length (s : State) (k : Nat) (rs : List ReadReq) : (answersFrom s k rs).length = rs.length := by
  induction rs generalizing k with
  | nil => rfl
  | cons r rs ih => simp [ih]

/-- The answers depend on the buffer alone. -/
theorem answersFrom_congr (s t : State) (h : t.mem = s.mem) (k : Nat) (rs : List ReadReq) :
    answersFrom t k rs = answersFrom s k rs := by
  induction rs generalizing k with
  | nil => rfl
  | cons r rs ih => simp only [answersFrom_cons, ih, answerLanes, answerLane, State.bufByte, h]

@[simp] theorem afterReads_rq (rs : List ReadReq) (s : State) : (afterReads rs s).rq = if rs = [] then s.rq else none := rfl
@[simp] theorem afterReads_readLog (rs : List ReadReq) (s : State) : (afterReads rs s).readLog = s.readLog ++ rs := rfl
@[simp] theorem afterReads_answers (rs : List ReadReq) (s : State) : (afterReads rs s).answers = [] := rfl

@[simp] theorem waitingAt_rq (pre : List ReadReq) (r : ReadReq) (s : State) : (waitingAt pre r s).rq = some r := rfl
@[simp] theorem waitingAt_readLog (pre : List ReadReq) (r : ReadReq) (s : State) :
    (waitingAt pre r s).readLog = s.readLog ++ pre := rfl

theorem waitingAt_nil (r : ReadReq) (s : State) : waitingAt [] r s = issueRead false r s := by simp [waitingAt, issueRead]

/-- All that issuing requests does: each is answered, or the core waits at the first that is not. -/
theorem issueAll_cases (rs : List ReadReq) (s : State) :
    ((∀ r ∈ rs, s.serves r = true) ∧
      issueAll rs s = .answered (s.answers ++ answersFrom s s.draws rs) (afterReads rs s)) ∨
    (∃ pre r post, rs = pre ++ r :: post ∧ (∀ q ∈ pre, s.serves q = true) ∧ s.serves r = false ∧
      issueAll rs s = .waiting (waitingAt pre r s)) := by
  induction rs generalizing s with
  | nil => exact Or.inl ⟨by simp, by simp [issueAll, afterReads]⟩
  | cons r rs ih =>
    cases hr : s.serves r with
    | false => exact Or.inr ⟨[], r, rs, rfl, by simp, hr, by
      simp only [issueAll, receive_issueRead, hr, Bool.false_eq_true, if_false, waitingAt_nil]⟩
    | true =>
      let t : State := { s with
        rq := none, rqAlone := false, readLog := s.readLog ++ [r], draws := s.draws + 1,
        answers := s.answers ++ [answerLanes s s.nextFree r] }
      have hstep : issueAll (r :: rs) s = issueAll rs t := by simp only [issueAll, receive_issueRead, hr, if_true, t]
      have hc : ∀ qs, answersFrom t t.draws qs = answersFrom s (s.draws + 1) qs := fun qs => answersFrom_congr s t rfl _ qs
      rcases ih t with ⟨hs, e⟩ | ⟨pre, q, post, rfl, hs, hq, e⟩
      · refine Or.inl ⟨List.forall_mem_cons.2 ⟨hr, hs⟩, ?_⟩
        rw [hstep, e, hc]
        simp [t, afterReads, State.nextFree, Nat.add_comm, Nat.add_left_comm]
      · refine Or.inr ⟨r :: pre, q, post, rfl, List.forall_mem_cons.2 ⟨hr, hs⟩, hq, ?_⟩
        rw [hstep, e]
        simp only [waitingAt, hc]
        simp [t, State.nextFree, Nat.add_comm, Nat.add_left_comm]

/-- An operation under way is taken up where it waits: what is left to do is to issue the requests not answered yet. -/
theorem readAll_resumes (rs : List ReadReq) (s : State) (ha : s.rqAlone = false)
    (h : ∀ r, s.rq = some r → rs[s.answers.length]? = some r) :
    readAll rs s = issueAll (rs.drop s.answers.length) s := by
  rcases receive_cases s with ⟨_, e⟩ | ⟨r, hq, hs, e⟩ | ⟨r, _, _, ha', _⟩ | ⟨r, hq, hs, _, e⟩
  · simp only [readAll, e]
  all_goals try (rw [ha] at ha'; cases ha')
  all_goals
    have hr := h r hq
    have hdrop : rs.drop s.answers.length = r :: rs.drop (s.answers.length + 1) := by
      obtain ⟨hlt, hget⟩ := List.getElem?_eq_some_iff.1 hr
      rw [List.drop_eq_getElem_cons hlt, hget]
  · have hself : issueRead false r s = s := by rw [issueRead, ← hq, ← ha]
    rw [hdrop]
    simp only [readAll, e, issueAll, hself]
  · rw [hdrop]
    simp only [readAll, e, issueAll, receive_issueRead, hs, if_true, List.length_append, List.length_singleton]
    rw [← ha]

/-- What the reads of an operation write, whether they are all answered or not. -/
def readerOnly (s t : State) : Prop :=
  t = { s with
    rq := t.rq, rqAlone := t.rqAlone, answers := t.answers, readData := t.readData, readLog := t.readLog, draws := t.draws }

/-- All that the reads of an operation can do from any state: they end in a waiting state or with the answers, and only
the reader's fields, and what a request run alone returns, are written. -/
theorem readAll_frame (rs : List ReadReq) (s : State) :
    (∃ t, readAll rs s = .waiting t ∧ readerOnly s t ∧ t.rq ≠ none) ∨
    (∃ ls t, readAll rs s = .answered ls t ∧ readerOnly s t ∧ t.rq = none ∧ t.answers = []) := by
  cases hr : receive s with
  | none =>
    refine Or.inl ⟨s, by simp only [readAll, hr], rfl, fun hq => ?_⟩
    simp [receive, hq] at hr
  | some u =>
    have hf := receive_frame s u hr
    have hn := (receive_again s u hr).1
    rcases issueAll_cases (rs.drop u.answers.length) u with ⟨_, e⟩ | ⟨pre, r, post, _, _, _, e⟩
    · refine Or.inr ⟨_, _, by simp only [readAll, hr]; exact e, ?_, by simp [hn], rfl⟩
      rw [readerOnly, afterReads, hf]
    · refine Or.inl ⟨_, by simp only [readAll, hr]; exact e, ?_, by simp [waitingAt]⟩
      rw [readerOnly, waitingAt, hf]

/-! ## The operations -/

/-- The words of an operation added, with the whole of a block's words. -/
abbrev wholeWords (ws : List BlockWord) : List BlockWord := ws.map fun x => ⟨x.value, x.value⟩

/-- All that a reader operation run alone does: it waits behind the request outstanding, that request was its own, or its
own request is issued. -/
theorem readAlone_cases (r : ReadReq) (s : State) :
    (receive s = none ∧ readAlone r s = .next s) ∨
    (∃ t, receive s = some t ∧
      ((s.rqAlone = true ∧ s.rq = some r ∧ readAlone r s = .next t) ∨
       (¬(s.rqAlone = true ∧ s.rq = some r) ∧ readAlone r s = .next (requestAlone r t)))) := by
  cases hr : receive s with
  | none => exact Or.inl ⟨rfl, by simp only [readAlone, hr]⟩
  | some t =>
    refine Or.inr ⟨t, rfl, ?_⟩
    by_cases h : s.rqAlone = true ∧ s.rq = some r
    · exact Or.inl ⟨h.1, h.2, by simp [readAlone, hr, h.1, h.2]⟩
    · refine Or.inr ⟨h, ?_⟩
      have : (s.rqAlone && decide (s.rq = some r)) = false := by simpa using h
      simp only [readAlone, hr, this, Bool.false_eq_true, if_false]

/-- A request run alone with none outstanding: answered, or waited for. -/
theorem requestAlone_eq (r : ReadReq) (s : State) :
    requestAlone r s =
      if s.serves r then
        { s with
          rq := none, rqAlone := false, readLog := s.readLog ++ [r], draws := s.draws + 1,
          readData := memReadV s s.nextFree r }
      else issueRead true r s := by
  cases h : s.serves r <;>
    simp only [requestAlone, receive_issueRead_alone, h, if_true, Bool.false_eq_true, if_false, Option.getD_some,
      Option.getD_none]

end Sys2Proof.Laws
end

