-- ==== Sys2Proof/Laws/Words.lean ====
section
/-! SUPPORT. What the composed words are (R75, R137): the same bytes on every path, and no unspecified lane after the
mask. -/

namespace Sys2Proof.Laws

open Machine

/-! ## Words by lanes -/

theorem lanes_word_toNat (l : Lanes) :
    l.word.toNat = l.l0.toNat + 2 ^ 8 * l.l1.toNat + 2 ^ 16 * l.l2.toNat + 2 ^ 24 * l.l3.toNat := by
  have h0 := l.l0.isLt
  have h1 := l.l1.isLt
  have h2 := l.l2.isLt
  simp only [Lanes.word, BitVec.toNat_append]
  rw [← Nat.shiftLeft_add_eq_or_of_lt h2, ← Nat.shiftLeft_add_eq_or_of_lt h1, ← Nat.shiftLeft_add_eq_or_of_lt h0]
  simp only [Nat.shiftLeft_eq]
  omega

/-- A zero-extended byte. -/
theorem lanes_byte_toNat (x : Byte) : (Lanes.word ⟨x, 0#8, 0#8, 0#8⟩).toNat = x.toNat := by
  simp [lanes_word_toNat]

/-- A zero-extended halfword. -/
theorem lanes_half_toNat (x y : Byte) : (Lanes.word ⟨x, y, 0#8, 0#8⟩).toNat = x.toNat + y.toNat * 2 ^ 8 := by
  simp [lanes_word_toNat, Nat.mul_comm]

/-- Two values that share no bit, placed one above the other (R126, R127). -/
theorem or_shiftLeft_toNat (x y : Word) (n : Nat) (hx : x.toNat < 2 ^ n) (hy : y.toNat * 2 ^ n < 2 ^ 32) :
    (x ||| y <<< n).toNat = x.toNat + y.toNat * 2 ^ n := by
  rw [BitVec.toNat_or, BitVec.toNat_shiftLeft, Nat.shiftLeft_eq, Nat.mod_eq_of_lt hy, Nat.or_comm,
    ← Nat.shiftLeft_eq, ← Nat.shiftLeft_add_eq_or_of_lt hx, Nat.add_comm]

theorem add32_shiftLeft_toNat (x y : Word) (n : Nat) (h : x.toNat + y.toNat * 2 ^ n < 2 ^ 32) :
    (add32 x (y <<< n)).toNat = x.toNat + y.toNat * 2 ^ n := by
  rw [add32, BitVec.toNat_add, BitVec.toNat_shiftLeft, Nat.shiftLeft_eq,
    Nat.mod_eq_of_lt (a := y.toNat * 2 ^ n) (by omega), Nat.mod_eq_of_lt h]

/-- A mask keeps the low bytes (R123, R135). -/
theorem and32_mask_toNat (x : Word) (v : Nat) (h1 : 1 ≤ v) (h4 : v ≤ 4) :
    (and32 x (mask v)).toNat = x.toNat % 2 ^ (8 * v) := by
  have hcases : v = 1 ∨ v = 2 ∨ v = 3 ∨ v = 4 := by omega
  rw [and32, BitVec.toNat_and, ← Nat.and_two_pow_sub_one_eq_mod]
  rcases hcases with rfl | rfl | rfl | rfl <;> rfl

theorem keep_word_eq (l : Lanes) (v : Nat) (h1 : 1 ≤ v) (h4 : v ≤ 4) : (l.keep v).word = and32 l.word (mask v) := by
  have hcases : v = 1 ∨ v = 2 ∨ v = 3 ∨ v = 4 := by omega
  have b0 := l.l0.isLt
  have b1 := l.l1.isLt
  have b2 := l.l2.isLt
  have b3 := l.l3.isLt
  apply BitVec.eq_of_toNat_eq
  rw [and32_mask_toNat _ _ h1 h4, lanes_word_toNat, lanes_word_toNat]
  rcases hcases with rfl | rfl | rfl | rfl <;> simp [Lanes.keep] <;> omega

/-- The word with its mask applied is `and32 (Word_p, mask v)` (R135, R137), on every path. -/
theorem maskedWord_eq (p : Path) (v : Nat) (ls : List Lanes) (hls : ls ≠ []) (h1 : 1 ≤ v) (h4 : v ≤ 4) :
    maskedWord p v ls = and32 (composeWord p ls) (mask v) := by
  cases p <;> cases ls <;> simp_all [maskedWord, composeWord, keep_word_eq]

/-! ## The buffer's words -/

theorem bytesLE_lt (buf : Nat → Byte) (off v : Nat) : bytesLE buf off v < 2 ^ (8 * v) := by
  induction v with
  | zero => simp [bytesLE]
  | succ v ih =>
    have hb := (buf (off + v)).isLt
    have : 2 ^ (8 * (v + 1)) = 2 ^ 8 * 2 ^ (8 * v) := by rw [Nat.mul_add, Nat.mul_one, Nat.pow_add, Nat.mul_comm]
    simp only [bytesLE, this]
    nlinarith

theorem bufWord_toNat (buf : Nat → Byte) (off v : Nat) (hv : v ≤ 4) : (bufWord buf off v).toNat = bytesLE buf off v := by
  have h := bytesLE_lt buf off v
  have : 2 ^ (8 * v) ≤ 2 ^ 32 := Nat.pow_le_pow_right (by decide) (by omega)
  simp only [bufWord, BitVec.toNat_ofNat]
  exact Nat.mod_eq_of_lt (by omega)

theorem bytesLE_four (buf : Nat → Byte) (off : Nat) :
    bytesLE buf off 4 = (buf off).toNat + (buf (off + 1)).toNat * 2 ^ 8 + (buf (off + 2)).toNat * 2 ^ 16 +
      (buf (off + 3)).toNat * 2 ^ 24 := by simp [bytesLE]

theorem bytesLE_three (buf : Nat → Byte) (off : Nat) :
    bytesLE buf off 3 = (buf off).toNat + (buf (off + 1)).toNat * 2 ^ 8 + (buf (off + 2)).toNat * 2 ^ 16 := by
  simp [bytesLE]

theorem bytesLE_two (buf : Nat → Byte) (off : Nat) :
    bytesLE buf off 2 = (buf off).toNat + (buf (off + 1)).toNat * 2 ^ 8 := by simp [bytesLE]

theorem bytesLE_one (buf : Nat → Byte) (off : Nat) : bytesLE buf off 1 = (buf off).toNat := by simp [bytesLE]

/-- `cur + k` does not wrap inside the buffer. -/
theorem offset_add_toNat (o : Word) (k : Nat) (h : o.toNat + k < 2 ^ 32) : (o + BitVec.ofNat 32 k).toNat = o.toNat + k := by
  rw [BitVec.toNat_add, BitVec.toNat_ofNat, Nat.mod_eq_of_lt (a := k) (by omega), Nat.mod_eq_of_lt h]

/-! ## What an answer is -/

/-- A request whose size and valid count R96 allows, aligned or not. -/
def sized (r : ReadReq) : Prop := r.size ≠ 3#2 ∧ 1 ≤ r.v.toNat ∧ r.v.toNat ≤ r.bytes

theorem legal_sized (r : ReadReq) (h : r.legal = true) : sized r := by
  simp only [ReadReq.legal, Bool.and_eq_true, bne_iff_ne, ne_eq, decide_eq_true_eq] at h
  exact ⟨h.1.1.1, h.1.1.2, h.1.2⟩

/-- The answer the platform gives is one (R68, R130). -/
theorem answerLanes_isAnswerTo (s : State) (free : Word) (r : ReadReq) (h : sized r) :
    isAnswerTo s.bufByte r (answerLanes s free r) := by
  obtain ⟨size, v, off⟩ := r
  have key : (size = 0#2 ∨ size = 1#2 ∨ size = 2#2) ∧ 1 ≤ v.toNat ∧ v.toNat ≤ 2 ^ size.toNat ∧ v.toNat ≤ 4 := by
    obtain ⟨h3, h1, hn⟩ : size ≠ 3#2 ∧ 1 ≤ v.toNat ∧ v.toNat ≤ 2 ^ size.toNat := h
    have hs : size = 0#2 ∨ size = 1#2 ∨ size = 2#2 := by
      clear hn
      revert size
      decide
    refine ⟨hs, h1, hn, ?_⟩
    rcases hs with rfl | rfl | rfl <;> simp at hn <;> omega
  obtain ⟨hs, h1, hn, h4⟩ := key
  have b0 := (answerLane s free ⟨size, v, off⟩ 0).isLt
  have b1 := (answerLane s free ⟨size, v, off⟩ 1).isLt
  refine ⟨BitVec.eq_of_toNat_eq ?_, ?_⟩
  · show (and32 _ _).toNat = _
    rw [and32_mask_toNat _ _ h1 h4, bufWord_toNat _ _ _ h4, lanes_word_toNat]
    have hcases : v.toNat = 1 ∨ v.toNat = 2 ∨ v.toNat = 3 ∨ v.toNat = 4 := by omega
    rcases hcases with e | e | e | e <;> simp only [answerLanes, answerLane, e, bytesLE] <;> simp <;> omega
  · rcases hs with rfl | rfl | rfl
    · have : v.toNat ≤ 1 := hn
      simp [lanes_word_toNat, answerLanes, answerLane, ReadReq.bytes, show ¬1 < v.toNat by omega,
        show ¬2 < v.toNat by omega, show ¬3 < v.toNat by omega]
      omega
    · have : v.toNat ≤ 2 := hn
      simp [lanes_word_toNat, answerLanes, ReadReq.bytes, answerLane, show ¬2 < v.toNat by omega, show ¬3 < v.toNat by omega]
      omega
    · exact (answerLanes s free ⟨2#2, v, off⟩).word.isLt

theorem isAnswerTo_toNat (buf : Nat → Byte) (r : ReadReq) (l : Lanes) (h : isAnswerTo buf r l) (h1 : 1 ≤ r.v.toNat)
    (h4 : r.v.toNat ≤ 4) : l.word.toNat % 2 ^ (8 * r.v.toNat) = bytesLE buf r.off.toNat r.v.toNat := by
  rw [← bufWord_toNat _ _ _ h4, ← h.1, ← and32_mask_toNat _ _ h1 h4]
  rfl

/-- A request all of whose bytes are valid is answered with the buffer's word. -/
theorem isAnswerTo_whole (buf : Nat → Byte) (r : ReadReq) (l : Lanes) (h : isAnswerTo buf r l) (h1 : 1 ≤ r.v.toNat)
    (h4 : r.v.toNat ≤ 4) (hb : r.v.toNat = r.bytes) : l.word.toNat = bytesLE buf r.off.toNat r.v.toNat := by
  rw [← isAnswerTo_toNat buf r l h h1 h4, hb, Nat.mod_eq_of_lt h.2]

theorem isAnswerTo_rd8 (buf : Nat → Byte) (o : Word) (l : Lanes) (h : isAnswerTo buf (rd8Req o) l) :
    l.word.toNat = (buf o.toNat).toNat := by
  rw [isAnswerTo_whole buf _ l h (Nat.le_refl 1) (show 1 ≤ 4 by decide) rfl]
  exact bytesLE_one buf o.toNat

theorem isAnswerTo_rd16 (buf : Nat → Byte) (o : Word) (l : Lanes) (h : isAnswerTo buf (rd16Req o) l) :
    l.word.toNat = (buf o.toNat).toNat + (buf (o.toNat + 1)).toNat * 2 ^ 8 := by
  rw [isAnswerTo_whole buf _ l h (show 1 ≤ 2 by decide) (show 2 ≤ 4 by decide) rfl]
  exact bytesLE_two buf o.toNat

theorem isAnswerTo_rd32 (buf : Nat → Byte) (o : Word) (v : Nat) (l : Lanes) (h : isAnswerTo buf (rd32Req o v) l)
    (h1 : 1 ≤ v) (h4 : v ≤ 4) : l.word.toNat % 2 ^ (8 * v) = bytesLE buf o.toNat v := by
  have hv : (rd32Req o v).v.toNat = v := by
    show (BitVec.ofNat 3 v).toNat = v
    rw [BitVec.toNat_ofNat]
    omega
  have := isAnswerTo_toNat buf _ l h (by omega) (by omega)
  rwa [hv] at this

/-! ## The answers of an operation -/

theorem answersFor_length (buf : Nat → Byte) (rs : List ReadReq) (ls : List Lanes) (h : answersFor buf rs ls) :
    ls.length ≤ rs.length := by
  induction rs generalizing ls with
  | nil => cases ls with
    | nil => exact Nat.le_refl _
    | cons l ls => exact h.elim
  | cons r rs ih => cases ls with
    | nil => exact Nat.zero_le _
    | cons l ls => exact Nat.succ_le_succ (ih ls h.2)

/-- Answers after answers are those to the requests after their requests. -/
theorem answersFor_append (buf : Nat → Byte) (rs : List ReadReq) (ls ms : List Lanes) :
    answersFor buf rs (ls ++ ms) ↔ answersFor buf rs ls ∧ answersFor buf (rs.drop ls.length) ms := by
  induction rs generalizing ls with
  | nil => cases ls <;> cases ms <;> simp [answersFor]
  | cons r rs ih => cases ls <;> cases ms <;> simp [answersFor, ih, and_assoc]

/-- More requests after those answered change nothing of the answers. -/
theorem answersFor_more (buf : Nat → Byte) (rs qs : List ReadReq) (ls : List Lanes) (h : answersFor buf rs ls) :
    answersFor buf (rs ++ qs) ls := by
  induction rs generalizing ls with
  | nil => cases ls with
    | nil => cases qs <;> trivial
    | cons l ls => exact h.elim
  | cons r rs ih => cases ls with
    | nil => trivial
    | cons l ls => exact ⟨h.1, ih ls h.2⟩

/-- The platform's answers to legal requests are answers for them. -/
theorem answersFrom_answersFor (s : State) (k : Nat) (rs : List ReadReq) (h : ∀ r ∈ rs, sized r) :
    answersFor s.bufByte rs (answersFrom s k rs) := by
  induction rs generalizing k with
  | nil => trivial
  | cons r rs ih =>
    exact ⟨answerLanes_isAnswerTo s _ r (h r (by simp)), ih (k + 1) fun q hq => h q (by simp [hq])⟩

/-- The buffer's bytes are what an answer depends on. -/
theorem isAnswerTo_congr (buf buf' : Nat → Byte) (r : ReadReq) (l : Lanes)
    (hb : ∀ i, i < r.v.toNat → buf' (r.off.toNat + i) = buf (r.off.toNat + i)) (h : isAnswerTo buf r l) :
    isAnswerTo buf' r l := by
  have : ∀ v, v ≤ r.v.toNat → bytesLE buf' r.off.toNat v = bytesLE buf r.off.toNat v := by
    intro v hv
    induction v with
    | zero => rfl
    | succ v ih => simp only [bytesLE, ih (by omega), hb v (by omega)]
  refine ⟨?_, h.2⟩
  rw [h.1, bufWord, bufWord, this _ (Nat.le_refl _)]

theorem answersFor_congr (buf buf' : Nat → Byte) (rs : List ReadReq) (ls : List Lanes)
    (hb : ∀ r ∈ rs, ∀ i, i < r.v.toNat → buf' (r.off.toNat + i) = buf (r.off.toNat + i)) (h : answersFor buf rs ls) :
    answersFor buf' rs ls := by
  induction rs generalizing ls with
  | nil => cases ls with
    | nil => trivial
    | cons l ls => exact h
  | cons r rs ih => cases ls with
    | nil => trivial
    | cons l ls =>
      exact ⟨isAnswerTo_congr buf buf' r l (hb r (by simp)) h.1, ih ls (fun q hq => hb q (by simp [hq])) h.2⟩

/-- All the answers of an operation: one to each of its requests. -/
def complete (buf : Nat → Byte) (rs : List ReadReq) (ls : List Lanes) : Prop :=
  answersFor buf rs ls ∧ ls.length = rs.length

/-- All the answers of two lists of requests are those of the first and those of the second. -/
theorem complete_append (buf : Nat → Byte) (rs qs : List ReadReq) (ls : List Lanes) (h : complete buf (rs ++ qs) ls) :
    complete buf rs (ls.take rs.length) ∧ complete buf qs (ls.drop rs.length) := by
  induction rs generalizing ls with
  | nil => exact ⟨⟨trivial, rfl⟩, h⟩
  | cons r rs ih => cases ls with
    | nil => exact absurd h.2 (by simp)
    | cons l ls =>
      obtain ⟨⟨ha, hl⟩, hq⟩ := ih ls ⟨h.1.2, by simpa using h.2⟩
      exact ⟨⟨⟨h.1.1, ha⟩, by simp [hl]⟩, hq⟩

/-! ## The composed words -/

theorem complete_wordReads_ne (buf : Nat → Byte) (p : Path) (o : Word) (v : Nat) (ls : List Lanes)
    (h : complete buf (wordReads p o v) ls) : ls ≠ [] := by
  rintro rfl
  have hl := h.2
  unfold wordReads at hl
  cases p <;> simp at hl <;> split at hl <;> simp at hl

/-- On the halfword and byte paths no lane is unspecified, and the composed word is the buffer's (R133, R134); so it is
of a whole word on every path. -/
theorem composeWord_eq (buf : Nat → Byte) (p : Path) (o : Word) (v : Nat) (ls : List Lanes) (hp : p ≠ .W ∨ v = 4)
    (h1 : 1 ≤ v) (h4 : v ≤ 4) (ho : o.toNat + v ≤ 2 ^ 32) (h : complete buf (wordReads p o v) ls) :
    composeWord p ls = bufWord buf o.toNat v := by
  have o1 := fun h => offset_add_toNat o 1 h
  have o2 := fun h => offset_add_toNat o 2 h
  have o3 := fun h => offset_add_toNat o 3 h
  have b0 := (buf o.toNat).isLt
  have b1 := (buf (o.toNat + 1)).isLt
  have b2 := (buf (o.toNat + 2)).isLt
  have b3 := (buf (o.toNat + 3)).isLt
  apply BitVec.eq_of_toNat_eq
  rw [bufWord_toNat _ _ _ h4]
  have hcases : v = 1 ∨ v = 2 ∨ v = 3 ∨ v = 4 := by omega
  obtain ⟨h, hl⟩ := h
  cases p with
  | W =>
    have hv : v = 4 := hp.resolve_left (by simp)
    subst hv
    match ls, hl with
    | [l], _ =>
      have := isAnswerTo_rd32 buf o 4 l h.1 (by omega) (by omega)
      rw [Nat.mod_eq_of_lt l.word.isLt] at this
      exact this
  | H =>
    rcases hcases with rfl | rfl | rfl | rfl
    · match ls, hl with
      | [l], _ => exact (isAnswerTo_rd8 buf o l h.1).trans (bytesLE_one buf _).symm
    · match ls, hl with
      | [l], _ => exact (isAnswerTo_rd16 buf o l h.1).trans (bytesLE_two buf _).symm
    · match ls, hl with
      | [l, m], _ =>
        have e := isAnswerTo_rd16 buf o l h.1
        have f := isAnswerTo_rd8 buf (o + 2#32) m h.2.1
        rw [o2 (by omega)] at f
        rw [composeWord, add32_shiftLeft_toNat _ _ 16 (by omega), e, f, bytesLE_three]
    · match ls, hl with
      | [l, m], _ =>
        have e := isAnswerTo_rd16 buf o l h.1
        have f := isAnswerTo_rd16 buf (o + 2#32) m h.2.1
        rw [o2 (by omega), Nat.add_assoc o.toNat 2 1, show 2 + 1 = 3 from rfl] at f
        rw [composeWord, add32_shiftLeft_toNat _ _ 16 (by omega), e, f, bytesLE_four]
        omega
  | B =>
    rcases hcases with rfl | rfl | rfl | rfl
    · match ls, hl with
      | [k], _ => exact (isAnswerTo_rd8 buf o k h.1).trans (bytesLE_one buf _).symm
    · match ls, hl with
      | [k, l], _ =>
        have e0 := isAnswerTo_rd8 buf o k h.1
        have e1 := isAnswerTo_rd8 buf (o + 1#32) l h.2.1
        rw [o1 (by omega)] at e1
        rw [composeWord, or_shiftLeft_toNat _ _ 8 (by omega) (by omega), e0, e1, bytesLE_two]
    · match ls, hl with
      | [k, l, m], _ =>
        have e0 := isAnswerTo_rd8 buf o k h.1
        have e1 := isAnswerTo_rd8 buf (o + 1#32) l h.2.1
        have e2 := isAnswerTo_rd8 buf (o + 2#32) m h.2.2.1
        rw [o1 (by omega)] at e1
        rw [o2 (by omega)] at e2
        have f1 := or_shiftLeft_toNat k.word l.word 8 (by omega) (by omega)
        rw [composeWord, or_shiftLeft_toNat _ _ 16 (by omega) (by omega), f1, e0, e1, e2, bytesLE_three]
    · match ls, hl with
      | [k, l, m, n], _ =>
        have e0 := isAnswerTo_rd8 buf o k h.1
        have e1 := isAnswerTo_rd8 buf (o + 1#32) l h.2.1
        have e2 := isAnswerTo_rd8 buf (o + 2#32) m h.2.2.1
        have e3 := isAnswerTo_rd8 buf (o + 3#32) n h.2.2.2.1
        rw [o1 (by omega)] at e1
        rw [o2 (by omega)] at e2
        rw [o3 (by omega)] at e3
        have f1 := or_shiftLeft_toNat k.word l.word 8 (by omega) (by omega)
        have f2 := or_shiftLeft_toNat (k.word ||| l.word <<< 8) m.word 16 (by omega) (by omega)
        rw [composeWord, or_shiftLeft_toNat _ _ 24 (by omega) (by omega), f2, f1, e0, e1, e2, e3, bytesLE_four]

/-- What is added to an accumulator is the buffer's bytes and nothing else (R137), on every path. -/
theorem maskedWord_value (buf : Nat → Byte) (p : Path) (o : Word) (v : Nat) (ls : List Lanes) (h1 : 1 ≤ v) (h4 : v ≤ 4)
    (ho : o.toNat + v ≤ 2 ^ 32) (h : complete buf (wordReads p o v) ls) :
    maskedWord p v ls = bufWord buf o.toNat v := by
  have hlt := bytesLE_lt buf o.toNat v
  apply BitVec.eq_of_toNat_eq
  rw [maskedWord_eq p v _ (complete_wordReads_ne buf p o v ls h) h1 h4, and32_mask_toNat _ _ h1 h4, bufWord_toNat _ _ _ h4]
  by_cases hp : p = .W
  · subst hp
    obtain ⟨h, hl⟩ := h
    match ls, hl with
    | [l], _ => exact isAnswerTo_rd32 buf o v l h.1 h1 h4
  · rw [composeWord_eq buf p o v ls (Or.inl hp) h1 h4 ho h, bufWord_toNat _ _ _ h4, Nat.mod_eq_of_lt hlt]

/-- The first word of a list of words, and the rest, from all their answers. -/
theorem complete_readsOf_cons (buf : Nat → Byte) (p : Path) (o : Word) (v : Nat) (ws : List (Word × Nat))
    (ls : List Lanes) (h : complete buf (readsOf p ((o, v) :: ws)) ls) :
    ∃ as bs, complete buf (wordReads p o v) as ∧ complete buf (readsOf p ws) bs ∧
      composeWords p ((o, v) :: ws) ls = ⟨composeWord p as, maskedWord p v as⟩ :: composeWords p ws bs := by
  obtain ⟨ha, hb⟩ := complete_append buf (wordReads p o v) (readsOf p ws) ls h
  exact ⟨_, _, ha, hb, rfl⟩

end Sys2Proof.Laws
end

