-- ==== Sys2Proof/Laws/Frames.lean ====
section
/-! SUPPORT. What the shared shapes of operation leave alone, what an operation under way comes to, which
operation each decoder can give, and the requests of a block. Provers cite these and unfold neither the reader nor a decoder. -/

namespace Sys2Proof.Laws

open Machine

/-! ## Frames -/

/-- ABSORB writes the accumulators, the `w` registers, the position and the reader's fields, and nothing else. -/
theorem absorb_frame (p : Path) (s t : State) (h : absorb p s = .next t) :
    t = { s with
      a := t.a, b := t.b, c := t.c, w0 := t.w0, w1 := t.w1, w2 := t.w2, ph := t.ph, st := t.st, rq := t.rq,
      rqAlone := t.rqAlone, answers := t.answers, readData := t.readData, readLog := t.readLog, draws := t.draws } := by
  rcases readAll_frame (readsOf p (blockWords s.cur)) s with ⟨u, e, hu, -⟩ | ⟨ls, u, e, hu, -, -⟩ <;>
    simp only [absorb, e] at h <;> cases h <;> unfold readerOnly at hu <;> rw [hu]
  simp [addWords, composeWords, blockWords]

/-- TAIL writes what ABSORB writes. -/
theorem tail_frame (p : Path) (n : Nat) (s t : State) (h : tail p n s = .next t) :
    t = { s with
      a := t.a, b := t.b, c := t.c, w0 := t.w0, w1 := t.w1, w2 := t.w2, ph := t.ph, st := t.st, rq := t.rq,
      rqAlone := t.rqAlone, answers := t.answers, readData := t.readData, readLog := t.readLog, draws := t.draws } := by
  rcases readAll_frame (readsOf p (tailWords s.cur n)) s with ⟨u, e, hu, -⟩ | ⟨ls, u, e, hu, -, -⟩ <;>
    simp only [tail, e] at h <;> cases h <;> unfold readerOnly at hu <;> rw [hu]
  unfold addWords
  split <;> rfl

/-- A read run alone writes its result and the reader's fields. -/
theorem readAlone_frame (r : ReadReq) (s t : State) (h : readAlone r s = .next t) : readerOnly s t := by
  rcases readAlone_cases r s with ⟨_, e⟩ | ⟨u, hu, ⟨_, _, e⟩ | ⟨_, e⟩⟩ <;> rw [e] at h <;> cases h
  · rfl
  · exact receive_frame s _ hu
  · have hf := receive_frame s u hu
    rw [requestAlone_eq]
    split
    · rw [readerOnly, hf]
    · rw [readerOnly, hf, issueRead]

/-- SELECT writes the first word, the path, the phase and the reader's fields. -/
theorem execSelect_frame (s t : State) (h : execSelect s = .next t) :
    t = { s with
      fw := t.fw, path := t.path, ph := t.ph, rq := t.rq, rqAlone := t.rqAlone, answers := t.answers,
      readData := t.readData, readLog := t.readLog, draws := t.draws } := by
  unfold execSelect at h
  split at h
  · cases h
    rfl
  · rcases readAll_frame [rd32Req 0#32 (selectCount s.N)] s with ⟨u, e, hu, -⟩ | ⟨ls, u, e, hu, -, -⟩ <;>
      rw [e] at h <;> cases h <;> unfold readerOnly at hu <;> rw [hu]

/-! ## An operation under way -/

/-- An operation of which nothing has been asked yet. -/
theorem underway_fresh (rs : List ReadReq) (s : State) (hq : s.rq = none) (ha : s.answers = []) : Underway rs s :=
  ⟨by rw [ha]; cases rs <;> trivial, fun r h => by rw [hq] at h; cases h⟩

/-- All that the reads of an operation under way can do: it gets the answers it has not had yet, or it waits for the first
that is not given, and is still under way. -/
theorem readAll_underway (rs : List ReadReq) (s : State) (hu : Underway rs s) (ha : s.rqAlone = false)
    (hl : ∀ r ∈ rs, sized r) :
    ((∀ r ∈ rs.drop s.answers.length, s.serves r = true) ∧ ∃ ls, complete s.bufByte rs ls ∧
      readAll rs s = .answered ls { s with
        rq := none, answers := [], readLog := s.readLog ++ rs.drop s.answers.length,
        draws := s.draws + (rs.drop s.answers.length).length }) ∨
    (∃ pre r post, rs.drop s.answers.length = pre ++ r :: post ∧ (∀ q ∈ pre, s.serves q = true) ∧ s.serves r = false ∧
      readAll rs s = .waiting (waitingAt pre r s) ∧ Underway rs (waitingAt pre r s)) := by
  have hlen := answersFor_length _ _ _ hu.answered
  have hleft : ∀ r ∈ rs.drop s.answers.length, sized r := fun r hr => hl r (List.mem_of_mem_drop hr)
  rw [readAll_resumes rs s ha fun r hr => hu.asked r hr ha]
  rcases issueAll_cases (rs.drop s.answers.length) s with ⟨hs, e⟩ | ⟨pre, r, post, hd, hs, hr, e⟩
  · refine Or.inl ⟨hs, _, ⟨(answersFor_append _ _ _ _).2 ⟨hu.answered, answersFrom_answersFor s s.draws _ hleft⟩, ?_⟩, ?_⟩
    · simp only [List.length_append, answersFrom_length, List.length_drop]
      omega
    · rw [e]
      by_cases hn : rs.drop s.answers.length = []
      · have hq : s.rq = none := by
          cases hq : s.rq with
          | none => rfl
          | some r =>
            have hr := hu.asked r hq ha
            rw [List.drop_eq_nil_iff] at hn
            rw [List.getElem?_eq_none hn] at hr
            cases hr
        simp [afterReads, hn, hq]
      · simp [afterReads, hn, ha]
  · refine Or.inr ⟨pre, r, post, hd, hs, hr, e, ?_, ?_⟩
    · refine (answersFor_append _ _ _ _).2 ⟨hu.answered, ?_⟩
      rw [hd]
      refine answersFor_more _ pre (r :: post) _ (answersFrom_answersFor s _ pre fun q hq => hleft q ?_)
      rw [hd]
      simp [hq]
    · intro q hq _
      cases hq
      have : (waitingAt pre r s).answers.length = s.answers.length + pre.length := by simp [waitingAt]
      rw [this, ← List.getElem?_drop, hd]
      simp

/-- The three words of a block, from all their answers (R151, R170, R190). -/
theorem composeWords_block (buf : Nat → Byte) (p : Path) (cur : Word) (ls : List Lanes) (hc : cur.toNat + 12 ≤ 2 ^ 32)
    (h : complete buf (readsOf p (blockWords cur)) ls) :
    wholeWords (composeWords p (blockWords cur) ls) =
      [⟨bufWord buf cur.toNat 4, bufWord buf cur.toNat 4⟩,
        ⟨bufWord buf (cur.toNat + 4) 4, bufWord buf (cur.toNat + 4) 4⟩,
        ⟨bufWord buf (cur.toNat + 8) 4, bufWord buf (cur.toNat + 8) 4⟩] := by
  have o4 := offset_add_toNat cur 4 (by omega)
  have o8 := offset_add_toNat cur 8 (by omega)
  obtain ⟨l0, r0, h0, hr0, e0⟩ := complete_readsOf_cons buf p _ _ _ _ h
  obtain ⟨l1, r1, h1, hr1, e1⟩ := complete_readsOf_cons buf p _ _ _ _ hr0
  obtain ⟨l2, r2, h2, -, e2⟩ := complete_readsOf_cons buf p _ _ _ _ hr1
  rw [blockWords, e0, e1, e2]
  simp only [wholeWords, List.map, composeWords,
    composeWord_eq buf p cur 4 l0 (Or.inr rfl) (by omega) (by omega) (by omega) h0,
    composeWord_eq buf p (cur + 4#32) 4 l1 (Or.inr rfl) (by omega) (by omega) (by omega) h1,
    composeWord_eq buf p (cur + 8#32) 4 l2 (Or.inr rfl) (by omega) (by omega) (by omega) h2, o4, o8]

/-- One word of a tail, from its answers: what is added is the buffer's bytes, and the word as read is that under its mask,
and without one on the paths that have no unspecified lane (R137, R165). -/
theorem tailWord_value (buf : Nat → Byte) (p : Path) (o : Word) (v : Nat) (ls : List Lanes) (h1 : 1 ≤ v) (h4 : v ≤ 4)
    (ho : o.toNat + v ≤ 2 ^ 32) (h : complete buf (wordReads p o v) ls) :
    maskedWord p v ls = bufWord buf o.toNat v ∧ composeWord p ls &&& mask v = bufWord buf o.toNat v ∧
      (p ≠ .W → composeWord p ls = bufWord buf o.toNat v) := by
  have hm := maskedWord_value buf p o v ls h1 h4 ho h
  refine ⟨hm, ?_, fun hp => composeWord_eq buf p o v ls (Or.inl hp) h1 h4 ho h⟩
  rw [maskedWord_eq p v ls (complete_wordReads_ne buf p o v ls h) h1 h4] at hm
  exact hm

/-! ## What a decoder can give -/

theorem decodeDispatch_format (d : DispatchWord) (i : Instr) (h : decodeDispatch d = .ok i) : i.format = .seq := by
  simp only [decodeDispatch, decodeLoop, decodeTailW, decodeTailH, decodeTailB, decodeMix, decodeFinal] at h
  split at h <;> (try split at h) <;> (try split at h) <;> cases h <;> rfl

theorem decodeHost_format (hw : BitVec 35) : (decodeHost hw).format = .host := by
  unfold decodeHost
  split <;> (try split) <;> rfl

theorem decodeRead_format (rr : BitVec 37) (i : Instr) (h : decodeRead rr = .ok i) : i.format = .rdreq := by
  unfold decodeRead decodeReadReq at h
  (repeat' split at h) <;> cases h <;> rfl

theorem decodeAlu_format (aw : BitVec 8) (i : Instr) (h : decodeAlu aw = .ok i) : i.format = .alu := by
  unfold decodeAlu at h
  split at h <;> cases h <;> rfl

/-- In LOOP the row is `ABSORB.p` while more than 12 bytes are left and `TAIL.p.n` otherwise (R92). -/
theorem decodeLoop_rows (path : BitVec 2) (g : Bool) (l4 : BitVec 4) (i : Instr) (h : decodeLoop path g l4 = .ok i) :
    ∃ p : Path, path = p.code ∧
      ((g = true ∧ i = absorbInstr p) ∨ (g = false ∧ l4.toNat ≤ 12 ∧ i = tailInstr p l4.toNat)) := by
  have hp : path = 0#2 ∨ path = 1#2 ∨ path = 2#2 ∨ path = 3#2 := by
    clear h
    revert path
    decide
  have key : ∀ l4 : BitVec 4, (l4.toNat ≤ 12 ∧ decodeTailW l4.toNat = .ok (tailWInstr l4.toNat) ∧
      decodeTailH l4.toNat = .ok (tailHInstr l4.toNat) ∧ decodeTailB l4.toNat = .ok (tailBInstr l4.toNat)) ∨
      (decodeTailW l4.toNat = .error .reservedDispatch ∧ decodeTailH l4.toNat = .error .reservedDispatch ∧
        decodeTailB l4.toNat = .error .reservedDispatch) := by decide
  rcases hp with rfl | rfl | rfl | rfl <;> cases g <;> rcases key l4 with ⟨hn, hw, hh, hb⟩ | ⟨hw, hh, hb⟩ <;>
    simp only [decodeLoop, BitVec.toNat_ofNat, Nat.reducePow, Nat.reduceMod, hw, hh, hb, reduceCtorEq, Except.ok.injEq] at h
  · exact ⟨.B, rfl, Or.inr ⟨rfl, hn, h.symm⟩⟩
  · exact ⟨.B, rfl, Or.inl ⟨rfl, h.symm⟩⟩
  · exact ⟨.B, rfl, Or.inl ⟨rfl, h.symm⟩⟩
  · exact ⟨.H, rfl, Or.inr ⟨rfl, hn, h.symm⟩⟩
  · exact ⟨.H, rfl, Or.inl ⟨rfl, h.symm⟩⟩
  · exact ⟨.H, rfl, Or.inl ⟨rfl, h.symm⟩⟩
  · exact ⟨.W, rfl, Or.inr ⟨rfl, hn, h.symm⟩⟩
  · exact ⟨.W, rfl, Or.inl ⟨rfl, h.symm⟩⟩
  · exact ⟨.W, rfl, Or.inl ⟨rfl, h.symm⟩⟩

/-- A reader operation that is decoded is one legal request run alone. -/
theorem decodeRead_exec (rr : BitVec 37) (i : Instr) (h : decodeRead rr = .ok i) :
    (ReadReq.unpack rr).legal = true ∧ ∀ s : State, exec i s = readAlone (ReadReq.unpack rr) s := by
  unfold decodeRead at h
  generalize ReadReq.unpack rr = r at h
  cases hl : r.legal
  · obtain ⟨e, he⟩ := decodeReadReq_illegal r hl
    rw [he] at h
    cases h
  · refine ⟨rfl, fun s => ?_⟩
    rw [decodeReadReq_legal r hl] at h
    obtain ⟨size, v, off⟩ := r
    simp only [ReadReq.legal, ReadReq.bytes, Bool.and_eq_true, bne_iff_ne, ne_eq, decide_eq_true_eq] at hl
    obtain ⟨⟨⟨h3, h1⟩, hn⟩, -⟩ := hl
    have hs : size = 0#2 ∨ size = 1#2 ∨ size = 2#2 := by
      clear h hn
      revert size
      decide
    rcases hs with rfl | rfl | rfl
    · have hn1 : v.toNat ≤ 1 := of_decide_eq_true hn
      have hv : v = 1#3 := BitVec.eq_of_toNat_eq (show v.toNat = 1 by omega)
      cases h
      rw [hv]
      rfl
    · cases h
      rfl
    · cases h
      rfl

/-! ## The operations by path, and their requests -/

theorem exec_absorbInstr (p : Path) (s : State) : exec (absorbInstr p) s = absorb p s := by cases p <;> rfl

theorem exec_tailInstr (p : Path) (n : Nat) (h1 : 1 ≤ n) (hn : n ≤ 12) (s : State) :
    exec (tailInstr p n) s = tail p n s := by
  interval_cases n <;> cases p <;> rfl

theorem readsOf_block (p : Path) (cur : Word) : readsOf p (blockWords cur) = blockReads p cur 12 := by
  cases p <;>
    simp [readsOf, blockWords, wordReads, blockReads, List.range, List.range.loop, rd32Req, rd16Req, rd8Req, BitVec.add_assoc]

theorem readsOf_tail (p : Path) (cur : Word) (n : Nat) (h1 : 1 ≤ n) (hn : n ≤ 12) :
    readsOf p (tailWords cur n) = blockReads p cur n := by
  interval_cases n <;> cases p <;>
    simp [readsOf, tailWords, wordReads, blockReads, List.range, List.range.loop, rd32Req, rd16Req, rd8Req,
      BitVec.add_assoc]

/-- A request for some of `n` bytes from `cur`: where it ends, that it is aligned, and its size (R63, R64, R131). -/
theorem blockReads_bounds (p : Path) (cur : Word) (n : Nat) (hc : cur.toNat + n ≤ 2 ^ 32) (r : ReadReq)
    (hr : r ∈ blockReads p cur n) :
    cur.toNat ≤ r.off.toNat ∧ r.off.toNat + r.v.toNat ≤ cur.toNat + n ∧ (cur.toNat % 4 = 0 → r.legal = true) ∧
      (p = .W → r.size = 2#2) ∧ (p = .H → r.size = 1#2 ∨ r.size = 0#2) ∧ (p = .B → r.size = 0#2) := by
  have off : ∀ k, k < n → (cur + BitVec.ofNat 32 k).toNat = cur.toNat + k := fun k hk => offset_add_toNat _ _ (by omega)
  cases p with
  | W =>
    simp only [blockReads, List.mem_map, List.mem_range] at hr
    obtain ⟨i, hi, rfl⟩ := hr
    have ho := off (4 * i) (by omega)
    have hv : (BitVec.ofNat 3 (min 4 (n - 4 * i))).toNat = min 4 (n - 4 * i) := by
      rw [BitVec.toNat_ofNat]
      omega
    simp only [ho, hv, ReadReq.legal, ReadReq.bytes, reduceCtorEq, false_implies, and_true, forall_const]
    refine ⟨by omega, by omega, fun h4 => ?_⟩
    simp
    omega
  | H =>
    simp only [blockReads, List.mem_append, List.mem_map, List.mem_range] at hr
    rcases hr with ⟨i, hi, rfl⟩ | hr
    · have ho := off (2 * i) (by omega)
      refine ⟨by simp only [ho]; omega, by simp only [ho, BitVec.toNat_ofNat]; omega, fun h4 => ?_, by simp, by simp, by simp⟩
      simp only [ReadReq.legal, ReadReq.bytes, ho]
      simp
      omega
    · split at hr
      · simp only [List.mem_singleton] at hr
        subst hr
        have ho := off (n - 1) (by omega)
        refine ⟨by simp only [ho]; omega, by simp only [ho, BitVec.toNat_ofNat]; omega, fun _ => ?_, by simp, by simp, by simp⟩
        simp [ReadReq.legal, ReadReq.bytes, Nat.mod_one]
      · simp at hr
  | B =>
    simp only [blockReads, List.mem_map, List.mem_range] at hr
    obtain ⟨i, hi, rfl⟩ := hr
    have ho := off i (by omega)
    refine ⟨by simp only [ho]; omega, by simp only [ho, BitVec.toNat_ofNat]; omega, fun _ => ?_, by simp, by simp, by simp⟩
    simp [ReadReq.legal, ReadReq.bytes, Nat.mod_one]

/-- The platform answers every request for `n` bytes it serves. -/
theorem blockReads_served (p : Path) (s : State) (n : Nat) (h : s.cur.toNat + n ≤ s.limit) :
    ∀ r ∈ blockReads p s.cur n, s.serves r = true := by
  have hl := limit_le s
  intro r hr
  have hb := blockReads_bounds p s.cur n (by omega) r hr
  simp only [State.serves, decide_eq_true_eq]
  omega

/-! ## Selection and rotation -/

theorem choosePath_code (x : Byte) : (choosePath x).code = pathOfBits (x.extractLsb' 0 2) := by
  revert x
  decide

/-- The two low bits of a word are those of its lane 0. -/
theorem lanes_word_low (l : Lanes) : l.word.extractLsb' 0 2 = l.l0.extractLsb' 0 2 := by
  have h := lanes_word_toNat l
  apply BitVec.eq_of_toNat_eq
  simp only [BitVec.extractLsb'_toNat, Nat.shiftRight_zero]
  omega

theorem rol32_eq (x : Word) (k : Nat) (h : 1 ≤ k) (hk : k < 32) : rol32 x k = x.rotateLeft k := by
  have : k % 32 = k := Nat.mod_eq_of_lt hk
  simp only [rol32, if_neg (show k ≠ 0 by omega), BitVec.rotateLeft, this, BitVec.rotateLeftAux]

end Sys2Proof.Laws
end

