-- ==== Sys2Proof/Laws/Memory.lean ====
section
/-! SUPPORT. The laws of the buffer's memory: a read after a write, the rest left alone, the canonical form kept. -/

namespace Sys2Proof.Laws

open Machine

@[simp] theorem memory_read_nil (off : Nat) : Memory.read [] off = none := rfl

@[simp] theorem memory_read_cons (k : Nat) (v : Byte) (m : Memory) (off : Nat) :
    Memory.read ((k, v) :: m) off = if off = k then some v else Memory.read m off := rfl

@[simp] theorem memory_write_nil (off : Nat) (v : Byte) : Memory.write [] off v = [(off, v)] := rfl

theorem memory_write_cons (k : Nat) (u : Byte) (m : Memory) (off : Nat) (v : Byte) :
    Memory.write ((k, u) :: m) off v =
      if off < k then (off, v) :: (k, u) :: m
      else if off = k then (off, v) :: m
      else (k, u) :: Memory.write m off v := rfl

@[simp] theorem memory_risesAbove_cons (k : Nat) (v : Byte) (m : Memory) (lo : Nat) :
    Memory.risesAbove ((k, v) :: m) lo = true ↔
      lo < k ∧ k < Config.offsetSpace ∧ Memory.risesAbove m k = true := by
  simp [Memory.risesAbove, and_assoc]

@[simp] theorem memory_wf_cons (k : Nat) (v : Byte) (m : Memory) :
    Memory.wf ((k, v) :: m) = true ↔ k < Config.offsetSpace ∧ Memory.risesAbove m k = true := by
  simp [Memory.wf]

theorem memory_read_write_same (m : Memory) (off : Nat) (v : Byte) :
    Memory.read (Memory.write m off v) off = some v := by
  induction m with
  | nil => simp
  | cons cell m ih =>
    obtain ⟨k, u⟩ := cell
    rw [memory_write_cons]
    split
    · simp
    · split
      · simp
      · rename_i hne
        simp [hne, ih]

theorem memory_read_write_other (m : Memory) (off other : Nat) (v : Byte) (h : other ≠ off) :
    Memory.read (Memory.write m off v) other = Memory.read m other := by
  induction m with
  | nil => simp [h]
  | cons cell m ih =>
    obtain ⟨k, u⟩ := cell
    rw [memory_write_cons]
    split
    · simp [h]
    · split
      · rename_i heq
        simp [h, ← heq]
      · simp [ih]

/-- A write above the bound keeps the offsets rising above it. -/
theorem memory_write_risesAbove (m : Memory) (off lo : Nat) (v : Byte) (hlo : lo < off) (hoff : off < Config.offsetSpace)
    (h : Memory.risesAbove m lo = true) : Memory.risesAbove (Memory.write m off v) lo = true := by
  induction m generalizing lo with
  | nil => simp [Memory.risesAbove, hlo, hoff]
  | cons cell m ih =>
    obtain ⟨k, u⟩ := cell
    rw [memory_risesAbove_cons] at h
    rw [memory_write_cons]
    split
    · simp only [memory_risesAbove_cons]; exact ⟨hlo, hoff, ‹_›, h.2⟩
    · split
      · rename_i heq
        simp only [memory_risesAbove_cons]; exact ⟨hlo, hoff, heq ▸ h.2.2⟩
      · simp only [memory_risesAbove_cons]
        exact ⟨h.1, h.2.1, ih k (by omega) h.2.2⟩

/-- Every memory operation keeps the canonical form. -/
theorem memory_write_wf (m : Memory) (off : Nat) (v : Byte) (hoff : off < Config.offsetSpace)
    (h : Memory.wf m = true) : Memory.wf (Memory.write m off v) = true := by
  cases m with
  | nil => simp [Memory.risesAbove, hoff]
  | cons cell m =>
    obtain ⟨k, u⟩ := cell
    rw [memory_wf_cons] at h
    rw [memory_write_cons]
    split
    · simp only [memory_wf_cons, memory_risesAbove_cons]; exact ⟨hoff, ‹_›, h⟩
    · split
      · rename_i heq
        simp only [memory_wf_cons]; exact ⟨hoff, heq ▸ h.2⟩
      · simp only [memory_wf_cons]
        exact ⟨h.1, memory_write_risesAbove m off k v (by omega) hoff h.2⟩

theorem reset_memory_wf : Memory.wf State.reset.mem = true := rfl

/-- The one way the buffer's memory changes: a host write that is no change of a running job's byte (R61). -/
theorem writeBuffer_next (off : Word) (v : Byte) (s t : State) (h : writeBuffer off v s = .next t) :
    t = { s with mem := Memory.write s.mem off.toNat v } := by
  unfold writeBuffer at h
  split at h
  · cases h
  · cases h; rfl

end Sys2Proof.Laws
end

