-- ==== Sys2Proof/Laws/PerInstr.lean ====
section
/-! SUPPORT. The round trip of the encoding, one lemma per constructor of Instr: the word `encode` gives fits the format
and decodes to the operation again. -/

namespace Sys2Proof.Laws.RoundTrip

open Sys2Proof Machine

/-- A read request word is its `size` and `v` fields above the offset. -/
theorem request_word (k : Nat) (off : Word) (hk : k < 32) :
    k * 2 ^ 32 + off.toNat < 2 ^ 37 ∧
      decode .rdreq (k * 2 ^ 32 + off.toNat) = decodeRead (BitVec.ofNat 5 k ++ off) := by
  have hv := off.isLt
  have hlt : k * 2 ^ 32 + off.toNat < 2 ^ 37 := by omega
  refine ⟨hlt, ?_⟩
  rw [← ofNat_append 5 32 k off]
  exact if_neg (by simpa [Format.width] using hlt)

/-- The offset a well-formed request names is decoded whole. -/
theorem decodeRead_legal (size : BitVec 2) (v : BitVec 3) (off : Word) (h : ReadReq.legal ⟨size, v, off⟩ = true) :
    decodeRead (size ++ v ++ off) =
      .ok (if size = 0#2 then .rd8 off else if size = 1#2 then .rd16 v off else .rd32 v off) := by
  rw [decodeRead, unpack_append, decodeReadReq_legal _ h]

/-- Encoding and decoding agree on the operation, at every operand value a word of its format can hold. -/
def Statement (i : Instr) : Prop :=
  i.wf = true → encode i < 2 ^ i.format.width ∧ decode i.format (encode i) = .ok i

theorem wait : Statement .wait := by unfold Statement; decide
theorem seed : Statement .seed := by unfold Statement; decide
theorem select : Statement .select := by unfold Statement; decide
theorem absorbW : Statement .absorbW := by unfold Statement; decide
theorem absorbH : Statement .absorbH := by unfold Statement; decide
theorem absorbB : Statement .absorbB := by unfold Statement; decide
theorem tailW12 : Statement .tailW12 := by unfold Statement; decide
theorem tailW11 : Statement .tailW11 := by unfold Statement; decide
theorem tailW10 : Statement .tailW10 := by unfold Statement; decide
theorem tailW9 : Statement .tailW9 := by unfold Statement; decide
theorem tailW8 : Statement .tailW8 := by unfold Statement; decide
theorem tailW7 : Statement .tailW7 := by unfold Statement; decide
theorem tailW6 : Statement .tailW6 := by unfold Statement; decide
theorem tailW5 : Statement .tailW5 := by unfold Statement; decide
theorem tailW4 : Statement .tailW4 := by unfold Statement; decide
theorem tailW3 : Statement .tailW3 := by unfold Statement; decide
theorem tailW2 : Statement .tailW2 := by unfold Statement; decide
theorem tailW1 : Statement .tailW1 := by unfold Statement; decide
theorem tailW0 : Statement .tailW0 := by unfold Statement; decide
theorem tailH12 : Statement .tailH12 := by unfold Statement; decide
theorem tailH11 : Statement .tailH11 := by unfold Statement; decide
theorem tailH10 : Statement .tailH10 := by unfold Statement; decide
theorem tailH9 : Statement .tailH9 := by unfold Statement; decide
theorem tailH8 : Statement .tailH8 := by unfold Statement; decide
theorem tailH7 : Statement .tailH7 := by unfold Statement; decide
theorem tailH6 : Statement .tailH6 := by unfold Statement; decide
theorem tailH5 : Statement .tailH5 := by unfold Statement; decide
theorem tailH4 : Statement .tailH4 := by unfold Statement; decide
theorem tailH3 : Statement .tailH3 := by unfold Statement; decide
theorem tailH2 : Statement .tailH2 := by unfold Statement; decide
theorem tailH1 : Statement .tailH1 := by unfold Statement; decide
theorem tailH0 : Statement .tailH0 := by unfold Statement; decide
theorem tailB12 : Statement .tailB12 := by unfold Statement; decide
theorem tailB11 : Statement .tailB11 := by unfold Statement; decide
theorem tailB10 : Statement .tailB10 := by unfold Statement; decide
theorem tailB9 : Statement .tailB9 := by unfold Statement; decide
theorem tailB8 : Statement .tailB8 := by unfold Statement; decide
theorem tailB7 : Statement .tailB7 := by unfold Statement; decide
theorem tailB6 : Statement .tailB6 := by unfold Statement; decide
theorem tailB5 : Statement .tailB5 := by unfold Statement; decide
theorem tailB4 : Statement .tailB4 := by unfold Statement; decide
theorem tailB3 : Statement .tailB3 := by unfold Statement; decide
theorem tailB2 : Statement .tailB2 := by unfold Statement; decide
theorem tailB1 : Statement .tailB1 := by unfold Statement; decide
theorem tailB0 : Statement .tailB0 := by unfold Statement; decide
theorem m1 : Statement .m1 := by unfold Statement; decide
theorem m2 : Statement .m2 := by unfold Statement; decide
theorem m3 : Statement .m3 := by unfold Statement; decide
theorem m4 : Statement .m4 := by unfold Statement; decide
theorem m5 : Statement .m5 := by unfold Statement; decide
theorem m6 : Statement .m6 := by unfold Statement; decide
theorem adv : Statement .adv := by unfold Statement; decide
theorem f1 : Statement .f1 := by unfold Statement; decide
theorem f2 : Statement .f2 := by unfold Statement; decide
theorem f3 : Statement .f3 := by unfold Statement; decide
theorem f4 : Statement .f4 := by unfold Statement; decide
theorem f5 : Statement .f5 := by unfold Statement; decide
theorem f6 : Statement .f6 := by unfold Statement; decide
theorem f7 : Statement .f7 := by unfold Statement; decide
theorem emit : Statement .emit := by unfold Statement; decide
theorem start : Statement .start := by unfold Statement; decide
theorem wrNop : Statement .wrNop := by unfold Statement; decide
theorem wrLen (v : Word) : Statement (.wrLen v) := by
  intro _
  have hv := v.isLt
  have hlt : encode (.wrLen v) < 2 ^ 35 := by simp only [encode]; omega
  have hw : BitVec.ofNat 35 (encode (.wrLen v)) = BitVec.ofBool true ++ 1#2 ++ v := by
    have := ofNat_append 3 32 5 v
    exact this
  refine ⟨hlt, ?_⟩
  simp only [Instr.format, decode, if_neg (Nat.not_le.2 (show encode (.wrLen v) < 2 ^ Format.host.width from hlt)), hw]
  simp only [decodeHost, host_we, host_idx, host_wdata]
  rfl

theorem wrIgn : Statement .wrIgn := by unfold Statement; decide
theorem rdCsr : Statement .rdCsr := by unfold Statement; decide
theorem rdLen : Statement .rdLen := by unfold Statement; decide
theorem rdDigestLo : Statement .rdDigestLo := by unfold Statement; decide
theorem rdDigestHi : Statement .rdDigestHi := by unfold Statement; decide
theorem rd8 (off : Word) : Statement (.rd8 off) := by
  intro _
  obtain ⟨hlt, hd⟩ := request_word 1 off (by omega)
  have he : encode (.rd8 off) = 1 * 2 ^ 32 + off.toNat := rfl
  rw [he]
  exact ⟨hlt, hd.trans (decodeRead_legal 0#2 1#3 off (by simp [ReadReq.legal, ReadReq.bytes, Nat.mod_one]))⟩

theorem rd16 (v : BitVec 3) (off : Word) : Statement (.rd16 v off) := by
  intro hwf
  simp only [Instr.wf, Bool.and_eq_true, Bool.or_eq_true, beq_iff_eq] at hwf
  obtain ⟨hlt, hd⟩ := request_word (8 + v.toNat) off (by omega)
  have he : encode (.rd16 v off) = (8 + v.toNat) * 2 ^ 32 + off.toNat := by simp only [encode]; ring
  have hs : BitVec.ofNat 5 (8 + v.toNat) = 1#2 ++ v := ofNat_append 2 3 1 v
  rw [he]
  refine ⟨hlt, hd.trans ?_⟩
  rw [hs]
  refine decodeRead_legal 1#2 v off ?_
  rcases hwf with ⟨rfl | rfl, h⟩ <;> simp [ReadReq.legal, ReadReq.bytes, h]

theorem rd32 (v : BitVec 3) (off : Word) : Statement (.rd32 v off) := by
  intro hwf
  simp only [Instr.wf, Bool.and_eq_true, Bool.or_eq_true, beq_iff_eq] at hwf
  obtain ⟨hlt, hd⟩ := request_word (16 + v.toNat) off (by omega)
  have he : encode (.rd32 v off) = (16 + v.toNat) * 2 ^ 32 + off.toNat := by simp only [encode]; ring
  have hs : BitVec.ofNat 5 (16 + v.toNat) = 2#2 ++ v := ofNat_append 2 3 2 v
  rw [he]
  refine ⟨hlt, hd.trans ?_⟩
  rw [hs]
  refine decodeRead_legal 2#2 v off ?_
  rcases hwf with ⟨((rfl | rfl) | rfl) | rfl, h⟩ <;> simp [ReadReq.legal, ReadReq.bytes, h]

theorem add : Statement .add := by unfold Statement; decide
theorem sub : Statement .sub := by unfold Statement; decide
theorem xor : Statement .xor := by unfold Statement; decide
theorem and : Statement .and := by unfold Statement; decide
theorem rol (k : BitVec 5) : Statement (.rol k) := by revert k; unfold Statement; decide


end Sys2Proof.Laws.RoundTrip
end

