-- ==== Sys2Proof/Tests/Slice0.lean ====
section
/-! SUPPORT. The model's own tests: ill-formed terms refused, words of the spec's tables decoded, single steps against
the spec's worked examples, and a witness for the hypotheses of every statement that has some. -/

namespace Sys2Proof.Tests

open Sys2Proof Machine

/-! ## Helpers -/

/-- A state for tests: registers zero, nothing listed, no job, no input. -/
def blank : State where
  a := 0#32
  b := 0#32
  c := 0#32
  N := 0#32
  L := 0#32
  cur := 0#32
  path := 0#2
  fw := 0#32
  w0 := 0#32
  w1 := 0#32
  w2 := 0#32
  ph := 0#3
  st := 0#3
  digest := 0#64
  BUSY := false
  DONE := false
  LEN := 0#32
  rq := none
  answers := []
  rqAlone := false
  mem := []
  served := 2 ^ 32
  rst := false
  rdata := 0#32
  readData := 0#32
  aluX := 0#32
  aluY := 0#32
  aluOut := 0#32
  readLog := []
  draws := 0
  agenda := []

/-- The examples' buffer (43_word_path.md, 44_halfword_path.md, 45_byte_path.md): the first byte is chosen for the path,
the rest is `22 33 44 55 66 77 88 99 AA BB CC DD`. -/
def buffer (first : Byte) : Memory :=
  [(0, first), (1, 0x22#8), (2, 0x33#8), (3, 0x44#8), (4, 0x55#8), (5, 0x66#8), (6, 0x77#8), (7, 0x88#8),
    (8, 0x99#8), (9, 0xaa#8), (10, 0xbb#8), (11, 0xcc#8), (12, 0xdd#8)]

/-- The first byte of the example buffer of each path. -/
def firstByte : Path → Byte
  | .W => 0x10#8
  | .H => 0x12#8
  | .B => 0x11#8

/-- A job on the path's example buffer cut to `n` bytes, in LOOP. -/
def inLoop (p : Path) (n : Nat) : State :=
  { blank with
    mem := buffer (firstByte p), N := BitVec.ofNat 32 n, L := BitVec.ofNat 32 n, BUSY := true, ph := 3#3, path := p.code,
    fw := 0x44332200#32 + (firstByte p).setWidth 32,
    a := 0xdeadbeef#32 + BitVec.ofNat 32 n, b := 0xdeadbeef#32 + BitVec.ofNat 32 n,
    c := 0xdeadbeef#32 + BitVec.ofNat 32 n }

/-- A state with the accumulators given, at a stage. -/
def withAcc (a b c : Word) : State := { blank with a := a, b := b, c := c }

/-- What a check finds in the next state; false where there is none. -/
def ok (o : Host.Outcome State Fault Refusal) (f : State → Bool) : Bool :=
  match o with
  | .next t => f t
  | .fault _ => false
  | .refused _ => false

/-- The accumulators after a step, if there is a next state. -/
def accAfter (o : Host.Outcome State Fault Refusal) : Option Acc :=
  match o with
  | .next t => some t.acc
  | .fault _ => none
  | .refused _ => none

/-- The accumulators after the tail of the path's example of `n` bytes. -/
def added (p : Path) (n : Nat) : Option Acc := accAfter (step (inLoop p n))

/-! ## Well-formedness: each check refuses an ill-formed term -/

/-- R96: `v = 0`. -/
theorem test_wf_rd16_v0 : (Instr.rd16 0#3 0#32).wf = false := by decide
/-- R96: `v > 2^size`. -/
theorem test_wf_rd16_v3 : (Instr.rd16 3#3 0#32).wf = false := by decide
/-- R96: `off` not a multiple of 2. -/
theorem test_wf_rd16_odd : (Instr.rd16 2#3 5#32).wf = false := by decide
/-- R96: `v = 0`. -/
theorem test_wf_rd32_v0 : (Instr.rd32 0#3 0#32).wf = false := by decide
/-- R96: `v = 5` is never issued. -/
theorem test_wf_rd32_v5 : (Instr.rd32 5#3 0#32).wf = false := by decide
/-- R96: `off` not a multiple of 4. -/
theorem test_wf_rd32_misaligned : (Instr.rd32 4#3 6#32).wf = false := by decide
/-- The widest offsets the checks let through. -/
theorem test_wf_bounds : (Instr.rd32 4#3 0xfffffffc#32).wf = true ∧ (Instr.rd16 2#3 0xfffffffe#32).wf = true ∧
    (Instr.rd8 0xffffffff#32).wf = true := by decide

/-! ## Decoding: words written out from the tables of R91, R92, R95, R96, R97 -/

/-- `ph = 0`, all other bits set: WAIT. -/
theorem test_decode_wait : decode .seq 0b000_111_11_1_1111 = .ok .wait := by decide
/-- `ph = 1`: SEED; `ph = 2`: SELECT; `ph = 6`: EMIT. -/
theorem test_decode_open_close : decode .seq 0b001_000_00_0_0000 = .ok .seed ∧ decode .seq 0b010_101_10_0_1001 = .ok .select ∧
    decode .seq 0b110_000_01_0_0011 = .ok .emit := by decide
/-- `ph = 3`, `path = 2`: the word path. -/
theorem test_decode_word_path : decode .seq 0b011_000_10_1_0101 = .ok .absorbW ∧ decode .seq 0b011_000_10_0_1100 = .ok .tailW12 ∧
    decode .seq 0b011_000_10_0_0001 = .ok .tailW1 ∧ decode .seq 0b011_000_10_0_0000 = .ok .tailW0 := by decide
/-- `ph = 3`, `path = 1`: the halfword path. -/
theorem test_decode_halfword_path : decode .seq 0b011_000_01_1_0000 = .ok .absorbH ∧
    decode .seq 0b011_000_01_0_1001 = .ok .tailH9 := by decide
/-- `ph = 3`, `path = 0`: the byte path. -/
theorem test_decode_byte_path : decode .seq 0b011_000_00_1_1111 = .ok .absorbB ∧
    decode .seq 0b011_000_00_0_0110 = .ok .tailB6 := by decide
/-- `ph = 4`: Mix and ADV. -/
theorem test_decode_mix : decode .seq 0b100_001_10_1_0000 = .ok .m1 ∧ decode .seq 0b100_110_00_0_0000 = .ok .m6 ∧
    decode .seq 0b100_111_01_1_1010 = .ok .adv := by decide
/-- `ph = 5`: Final. -/
theorem test_decode_final : decode .seq 0b101_001_10_0_0001 = .ok .f1 ∧ decode .seq 0b101_111_00_0_1100 = .ok .f7 := by decide
/-- R99: the reserved dispatch words, one of each kind. -/
theorem test_decode_reserved_seq : decode .seq 0b111_000_00_0_0000 = .error .reservedDispatch ∧
    decode .seq 0b100_000_00_0_0000 = .error .reservedDispatch ∧
    decode .seq 0b101_000_11_1_1111 = .error .reservedDispatch ∧
    decode .seq 0b011_000_11_1_0000 = .error .reservedDispatch ∧
    decode .seq 0b011_000_10_0_1101 = .error .reservedDispatch := by decide
/-- R95: `we` in bit 34, `idx` in bits 33:32. -/
theorem test_decode_host : decode .host 0x4_0000_0001 = .ok .start ∧ decode .host 0x4_ffff_fffe = .ok .wrNop ∧
    decode .host 0x5_0000_001e = .ok (.wrLen 30#32) ∧ decode .host 0x6_0000_0000 = .ok .wrIgn ∧
    decode .host 0x7_0000_0001 = .ok .wrIgn := by decide
/-- R95: the reads. -/
theorem test_decode_host_reads : decode .host 0x0_0000_0000 = .ok .rdCsr ∧ decode .host 0x1_ffff_ffff = .ok .rdLen ∧
    decode .host 0x2_0000_0000 = .ok .rdDigestLo ∧ decode .host 0x3_0000_0000 = .ok .rdDigestHi := by decide
/-- R96: `size` in bits 36:35, `v` in bits 34:32. -/
theorem test_decode_rdreq : decode .rdreq 0x01_0000_0008 = .ok (.rd8 8#32) ∧ decode .rdreq 0x0a_0000_0004 = .ok (.rd16 2#3 4#32) ∧
    decode .rdreq 0x14_0000_0004 = .ok (.rd32 4#3 4#32) ∧ decode .rdreq 0x11_0000_000c = .ok (.rd32 1#3 12#32) := by decide
/-- R96, R99: the requests never issued. -/
theorem test_decode_reserved_rdreq : decode .rdreq 0x1f_0000_0000 = .error .reservedReadSize ∧
    decode .rdreq 0x00_0000_0000 = .error .reservedValidCount ∧ decode .rdreq 0x0b_0000_0000 = .error .reservedValidCount ∧
    decode .rdreq 0x15_0000_0000 = .error .reservedValidCount ∧ decode .rdreq 0x14_0000_0002 = .error .misalignedOffset := by decide
/-- R97: `fn` in bits 7:5. -/
theorem test_decode_alu : decode .alu 0x1f = .ok .add ∧ decode .alu 0x20 = .ok .sub ∧ decode .alu 0x5a = .ok .xor ∧
    decode .alu 0x60 = .ok .and ∧ decode .alu 0x93 = .ok (.rol 19#5) ∧ decode .alu 0xa0 = .error .reservedAluFunction := by decide

/-! ## Single steps: the worked examples of the spec -/

/-- R140: `N = 30` gives `0xdeadbf0d`; and the wrap of `N = 0x21524111`. -/
theorem test_seed : accAfter (exec .seed { blank with N := 30#32 }) = some ⟨0xdeadbf0d#32, 0xdeadbf0d#32, 0xdeadbf0d#32⟩ ∧
    accAfter (exec .seed { blank with N := 0x21524111#32 }) = some ⟨0#32, 0#32, 0#32⟩ := by decide

/-- R142: `Buf(0) mod 4` of 0, 2, 1 selects W, H, B. -/
theorem test_select : ok (exec .select { blank with N := 13#32, mem := buffer 0x10#8 }) (fun t => t.path == 2#2 && t.fw == 0x44332210#32) = true ∧
    ok (exec .select { blank with N := 1#32, mem := buffer 0x12#8 }) (fun t => t.path == 1#2) = true ∧
    ok (exec .select { blank with N := 2#32, mem := buffer 0x13#8 }) (fun t => t.path == 0#2) = true := by decide

/-- R143: the empty buffer goes the word path, with no read. -/
theorem test_select_empty : ok (exec .select blank) (fun t => t.path == 2#2 && t.readLog == []) = true := by decide

/-- R151, R170, R190: the examples. -/
theorem test_absorb :
    accAfter (exec .absorbW (inLoop .W 13)) = some ⟨0x22e0e10c#32, 0x67252551#32, 0xab696995#32⟩ ∧
    accAfter (exec .absorbH (inLoop .H 13)) = some ⟨0x22e0e10e#32, 0x67252551#32, 0xab696995#32⟩ ∧
    accAfter (exec .absorbB (inLoop .B 13)) = some ⟨0x22e0e10d#32, 0x67252551#32, 0xab696995#32⟩ := by decide

/-- 43_word_path.md, R152 to R163: the examples. -/
theorem test_tail_w_high :
  added .W 12 = some (⟨0x22e0e10b#32, 0x67252550#32, 0xab696994#32⟩ : Acc) ∧
  added .W 11 = some (⟨0x22e0e10a#32, 0x6725254f#32, 0xdf696993#32⟩ : Acc) ∧
  added .W 10 = some (⟨0x22e0e109#32, 0x6725254e#32, 0xdeae6992#32⟩ : Acc) ∧
  added .W 9 = some (⟨0x22e0e108#32, 0x6725254d#32, 0xdeadbf91#32⟩ : Acc) := by decide

/-- 43_word_path.md, R152 to R163: the examples. -/
theorem test_tail_w_mid :
  added .W 8 = some (⟨0x22e0e107#32, 0x6725254c#32, 0xdeadbef7#32⟩ : Acc) ∧
  added .W 7 = some (⟨0x22e0e106#32, 0xdf25254b#32, 0xdeadbef6#32⟩ : Acc) ∧
  added .W 6 = some (⟨0x22e0e105#32, 0xdeae254a#32, 0xdeadbef5#32⟩ : Acc) ∧
  added .W 5 = some (⟨0x22e0e104#32, 0xdeadbf49#32, 0xdeadbef4#32⟩ : Acc) := by decide

/-- 43_word_path.md, R152 to R163: the examples. -/
theorem test_tail_w_low :
  added .W 4 = some (⟨0x22e0e103#32, 0xdeadbef3#32, 0xdeadbef3#32⟩ : Acc) ∧
  added .W 3 = some (⟨0xdee0e102#32, 0xdeadbef2#32, 0xdeadbef2#32⟩ : Acc) ∧
  added .W 2 = some (⟨0xdeade101#32, 0xdeadbef1#32, 0xdeadbef1#32⟩ : Acc) ∧
  added .W 1 = some (⟨0xdeadbf00#32, 0xdeadbef0#32, 0xdeadbef0#32⟩ : Acc) := by decide

/-- 44_halfword_path.md, R171 to R182: the examples. -/
theorem test_tail_h_high :
  added .H 12 = some (⟨0x22e0e10d#32, 0x67252550#32, 0xab696994#32⟩ : Acc) ∧
  added .H 11 = some (⟨0x22e0e10c#32, 0x6725254f#32, 0xdf696993#32⟩ : Acc) ∧
  added .H 10 = some (⟨0x22e0e10b#32, 0x6725254e#32, 0xdeae6992#32⟩ : Acc) ∧
  added .H 9 = some (⟨0x22e0e10a#32, 0x6725254d#32, 0xdeadbf91#32⟩ : Acc) := by decide

/-- 44_halfword_path.md, R171 to R182: the examples. -/
theorem test_tail_h_mid :
  added .H 8 = some (⟨0x22e0e109#32, 0x6725254c#32, 0xdeadbef7#32⟩ : Acc) ∧
  added .H 7 = some (⟨0x22e0e108#32, 0xdf25254b#32, 0xdeadbef6#32⟩ : Acc) ∧
  added .H 6 = some (⟨0x22e0e107#32, 0xdeae254a#32, 0xdeadbef5#32⟩ : Acc) ∧
  added .H 5 = some (⟨0x22e0e106#32, 0xdeadbf49#32, 0xdeadbef4#32⟩ : Acc) := by decide

/-- 44_halfword_path.md, R171 to R182: the examples. -/
theorem test_tail_h_low :
  added .H 4 = some (⟨0x22e0e105#32, 0xdeadbef3#32, 0xdeadbef3#32⟩ : Acc) ∧
  added .H 3 = some (⟨0xdee0e104#32, 0xdeadbef2#32, 0xdeadbef2#32⟩ : Acc) ∧
  added .H 2 = some (⟨0xdeade103#32, 0xdeadbef1#32, 0xdeadbef1#32⟩ : Acc) ∧
  added .H 1 = some (⟨0xdeadbf02#32, 0xdeadbef0#32, 0xdeadbef0#32⟩ : Acc) := by decide

/-- 45_byte_path.md, R191 to R202: the examples. -/
theorem test_tail_b_high :
  added .B 12 = some (⟨0x22e0e10c#32, 0x67252550#32, 0xab696994#32⟩ : Acc) ∧
  added .B 11 = some (⟨0x22e0e10b#32, 0x6725254f#32, 0xdf696993#32⟩ : Acc) ∧
  added .B 10 = some (⟨0x22e0e10a#32, 0x6725254e#32, 0xdeae6992#32⟩ : Acc) ∧
  added .B 9 = some (⟨0x22e0e109#32, 0x6725254d#32, 0xdeadbf91#32⟩ : Acc) := by decide

/-- 45_byte_path.md, R191 to R202: the examples. -/
theorem test_tail_b_mid :
  added .B 8 = some (⟨0x22e0e108#32, 0x6725254c#32, 0xdeadbef7#32⟩ : Acc) ∧
  added .B 7 = some (⟨0x22e0e107#32, 0xdf25254b#32, 0xdeadbef6#32⟩ : Acc) ∧
  added .B 6 = some (⟨0x22e0e106#32, 0xdeae254a#32, 0xdeadbef5#32⟩ : Acc) ∧
  added .B 5 = some (⟨0x22e0e105#32, 0xdeadbf49#32, 0xdeadbef4#32⟩ : Acc) := by decide

/-- 45_byte_path.md, R191 to R202: the examples. -/
theorem test_tail_b_low :
  added .B 4 = some (⟨0x22e0e104#32, 0xdeadbef3#32, 0xdeadbef3#32⟩ : Acc) ∧
  added .B 3 = some (⟨0xdee0e103#32, 0xdeadbef2#32, 0xdeadbef2#32⟩ : Acc) ∧
  added .B 2 = some (⟨0xdeade102#32, 0xdeadbef1#32, 0xdeadbef1#32⟩ : Acc) ∧
  added .B 1 = some (⟨0xdeadbf01#32, 0xdeadbef0#32, 0xdeadbef0#32⟩ : Acc) := by decide

/-- R164, R183, R203: nothing left goes to EMIT. -/
theorem test_tail_empty : ok (exec .tailW0 (inLoop .W 0)) (fun t => t.ph == 6#3 && t.st == 0#3) = true ∧
    ok (exec .tailH0 (inLoop .H 0)) (fun t => t.ph == 6#3) = true ∧ ok (exec .tailB0 (inLoop .B 0)) (fun t => t.ph == 6#3) = true := by
  decide

/-- R133, C2: the odd last byte of a halfword tail is one RD8, at the low end of the word. -/
theorem test_tail_h9_reads : ok (exec .tailH9 (inLoop .H 9)) (fun t =>
    t.readLog == [⟨1#2, 2#3, 0#32⟩, ⟨1#2, 2#3, 2#32⟩, ⟨1#2, 2#3, 4#32⟩, ⟨1#2, 2#3, 6#32⟩, ⟨0#2, 1#3, 8#32⟩]) = true := by
  decide

/-- The first word of the word path's example buffer, as an answer. -/
def firstAnswer : Lanes := ⟨0x10#8, 0x22#8, 0x33#8, 0x44#8⟩

/-- ABSORB.W that has had its first answer and waits for its second. -/
def waiting : State := { inLoop .W 13 with served := 4, rq := some ⟨2#2, 4#3, 4#32⟩, answers := [firstAnswer] }

/-- R68: the second request is not answered; the first, answered, is kept, and no register has changed. -/
theorem test_wait : ok (step { inLoop .W 13 with served := 4 }) (fun t =>
    t == { waiting with readLog := [⟨2#2, 4#3, 0#32⟩], draws := 1 }) = true := by decide

/-- R68: while it is not answered the core waits for the second, even if the platform would no longer answer the first;
once it is, only the second and the third are asked for, and the operation ends. -/
theorem test_wait_resumed : ok (step { waiting with served := 0 }) (fun t => t == { waiting with served := 0 }) = true ∧
    ok (step { waiting with served := 12 }) (fun t =>
      t.readLog == [⟨2#2, 4#3, 4#32⟩, ⟨2#2, 4#3, 8#32⟩] && t.rq == none && t.answers == [] && t.ph == 4#3) = true ∧
    accAfter (step { waiting with served := 12 }) = some ⟨0x22e0e10c#32, 0x67252551#32, 0xab696995#32⟩ := by decide

/-- R68: one request in flight: a request run alone waits behind the sequencer's. -/
theorem test_wait_alone : ok (exec (.rd8 8#32) waiting) (fun t => t == waiting) = true ∧
    ok (exec (.rd8 8#32) { waiting with served := 12 }) (fun t =>
      t.readData == 0x99#32 && t.answers.length == 2 && t.readLog == [⟨2#2, 4#3, 4#32⟩, ⟨0#2, 1#3, 8#32⟩]) = true := by decide

/-- R280: reset ends the wait. -/
theorem test_wait_reset : ok (step { waiting with agenda := [.assertReset] }) (fun t => t.rq == none && t.answers == [] && t.ph == 0#3) =
    true := by decide

/-- R210 to R212: the examples. -/
theorem test_m1 : accAfter (exec .m1 (withAcc 0x22e0e10c#32 0x67252551#32 0xab696995#32)) =
    some ⟨0xc1e1ee2d#32, 0x67252551#32, 0x128e8ee6#32⟩ := by decide
theorem test_m2 : accAfter (exec .m2 (withAcc 0xc1e1ee2d#32 0x67252551#32 0x128e8ee6#32)) =
    some ⟨0xd4707d13#32, 0xdd38bc54#32, 0x128e8ee6#32⟩ := by decide
theorem test_m3 : accAfter (exec .m3 (withAcc 0xd4707d13#32 0xdd38bc54#32 0x128e8ee6#32)) =
    some ⟨0xd4707d13#32, 0xb1a93967#32, 0x0de9864f#32⟩ := by decide
/-- R213 to R215: the examples. -/
theorem test_m4 : accAfter (exec .m4 (withAcc 0xd4707d13#32 0xb1a93967#32 0x0de9864f#32)) =
    some ⟨0x40c9fb2d#32, 0xb1a93967#32, 0xbf92bfb6#32⟩ := by decide
theorem test_m5 : accAfter (exec .m5 (withAcc 0x40c9fb2d#32 0xb1a93967#32 0xbf92bfb6#32)) =
    some ⟨0x005cbae3#32, 0xa9b53875#32, 0xbf92bfb6#32⟩ := by decide
theorem test_m6 : accAfter (exec .m6 (withAcc 0x005cbae3#32 0xa9b53875#32 0xbf92bfb6#32)) =
    some ⟨0x005cbae3#32, 0xaa11f358#32, 0x8e8e001b#32⟩ := by decide
/-- R216: the example. -/
theorem test_adv : ok (exec .adv { blank with L := 13#32, ph := 4#3, st := 7#3 })
    (fun t => t.L == 1#32 && t.cur == 12#32 && t.ph == 3#3 && t.st == 0#3) = true := by decide
/-- R221 to R224: the examples. -/
theorem test_f1 : accAfter (exec .f1 (withAcc 0x005cbbc0#32 0xaa11f358#32 0x8e8e001b#32)) =
    some ⟨0x005cbbc0#32, 0xaa11f358#32, 0xa7c9c8bf#32⟩ := by decide
theorem test_f2 : accAfter (exec .f2 (withAcc 0x005cbbc0#32 0xaa11f358#32 0xa7c9c8bf#32)) =
    some ⟨0x594f7641#32, 0xaa11f358#32, 0xa7c9c8bf#32⟩ := by decide
theorem test_f3 : accAfter (exec .f3 (withAcc 0x594f7641#32 0xaa11f358#32 0xa7c9c8bf#32)) =
    some ⟨0x594f7641#32, 0x70abe62d#32, 0xa7c9c8bf#32⟩ := by decide
theorem test_f4 : accAfter (exec .f4 (withAcc 0x594f7641#32 0x70abe62d#32 0xa7c9c8bf#32)) =
    some ⟨0x594f7641#32, 0x70abe62d#32, 0xf134bde7#32⟩ := by decide
/-- R225 to R227: the examples. -/
theorem test_f5 : accAfter (exec .f5 (withAcc 0x594f7641#32 0x70abe62d#32 0xf134bde7#32)) =
    some ⟨0x952fed27#32, 0x70abe62d#32, 0xf134bde7#32⟩ := by decide
theorem test_f6 : accAfter (exec .f6 (withAcc 0x952fed27#32 0x70abe62d#32 0xf134bde7#32)) =
    some ⟨0x952fed27#32, 0xea3a25bf#32, 0xf134bde7#32⟩ := by decide
theorem test_f7 : accAfter (exec .f7 (withAcc 0x952fed27#32 0xea3a25bf#32 0xf134bde7#32)) =
    some ⟨0x952fed27#32, 0xea3a25bf#32, 0x5b245e33#32⟩ := by decide
/-- R228: the example. -/
theorem test_emit : ok (exec .emit { blank with b := 0xea3a25bf#32, c := 0x5b245e33#32, BUSY := true, ph := 6#3 })
    (fun t => t.digest == 0x5b245e33ea3a25bf#64 && t.DONE && !t.BUSY && t.ph == 0#3) = true := by decide

/-- R235: the example, after `WR.LEN 13`; and a START while busy. -/
theorem test_start : ok (exec .start { blank with LEN := 13#32 }) (fun t => t.N == 13#32 && t.BUSY && !t.DONE && t.ph == 1#3) = true ∧
    ok (exec .start { blank with LEN := 13#32, BUSY := true, ph := 4#3, st := 2#3 })
      (fun t => t.N == 0#32 && t.ph == 4#3 && t.st == 2#3) = true := by decide
/-- R236, R238: nothing. -/
theorem test_wr_nop_ign : ok (exec .wrNop blank) (fun t => t == blank) = true ∧ ok (exec .wrIgn blank) (fun t => t == blank) = true := by
  decide
/-- R237, R239: the example. -/
theorem test_wr_len : ok (exec (.wrLen 0x1e#32) blank) (fun t => ok (exec .rdLen t) fun u => u.rdata == 0x1e#32) = true := by
  decide
/-- R242: the examples: path W, H and B, finished. -/
theorem test_rd_csr : ok (exec .rdCsr { blank with DONE := true, path := 2#2 }) (fun t => t.rdata == 0xa#32) = true ∧
    ok (exec .rdCsr { blank with DONE := true, path := 1#2 }) (fun t => t.rdata == 6#32) = true ∧
    ok (exec .rdCsr { blank with DONE := true }) (fun t => t.rdata == 2#32) = true := by decide
/-- R241, R243: the examples. -/
theorem test_rd_digest : ok (exec .rdDigestLo { blank with DONE := true, digest := 0x5b245e33ea3a25bf#64 })
      (fun t => t.rdata == 0xea3a25bf#32) = true ∧
    ok (exec .rdDigestHi { blank with DONE := true, digest := 0x5b245e33ea3a25bf#64 })
      (fun t => t.rdata == 0x5b245e33#32) = true := by decide

/-- R136, R138, R139: the examples, on `11 22 33 ...`. -/
theorem test_rd8 : ok (exec (.rd8 8#32) { blank with mem := buffer 0x11#8 }) (fun t => t.readData == 0x99#32) = true := by
  decide
theorem test_rd16 : ok (exec (.rd16 2#3 4#32) { blank with mem := buffer 0x11#8 }) (fun t => t.readData == 0x6655#32) = true := by
  decide
theorem test_rd32 : ok (exec (.rd32 4#3 4#32) { blank with mem := buffer 0x11#8 }) (fun t => t.readData == 0x88776655#32) = true := by
  decide

/-- R120 to R124: the examples. -/
theorem test_add : ok (exec .add { blank with aluX := 0xdeadbeef#32, aluY := 0x21524111#32 }) (fun t => t.aluOut == 0#32) = true := by
  decide
theorem test_sub : ok (exec .sub { blank with aluX := 5#32, aluY := 7#32 }) (fun t => t.aluOut == 0xfffffffe#32) = true := by
  decide
theorem test_xor : ok (exec .xor { blank with aluX := 0xdeadbeef#32, aluY := 0xffff#32 }) (fun t => t.aluOut == 0xdead4110#32) = true := by
  decide
theorem test_and : ok (exec .and { blank with aluX := 0x44332211#32, aluY := 0x00ffffff#32 }) (fun t => t.aluOut == 0x00332211#32) = true := by
  decide
theorem test_rol : ok (exec (.rol 4#5) { blank with aluX := 0xdeadbeef#32 }) (fun t => t.aluOut == 0xeadbeefd#32) = true ∧
    ok (exec (.rol 0#5) { blank with aluX := 0xdeadbeef#32 }) (fun t => t.aluOut == 0xdeadbeef#32) = true := by decide

/-! ## Witnesses: the hypotheses of each statement can be met, at the ends of their ranges -/

theorem witness_DecodingAnEncodedOperationGivesItBack : (Instr.rd32 4#3 0xfffffffc#32).wf = true ∧ (Instr.rd16 1#3 0#32).wf = true := by
  decide

theorem witness_DecodedWordLiesInTheOperationsRow : decode .rdreq 0x14fffffffc = .ok (.rd32 4#3 0xfffffffc#32) ∧
    decode .seq 0x1fff ≠ .ok .emit ∧ decode .seq 0x1bff = .ok .emit ∧ decode .host 0x7ffffffff = .ok .wrIgn ∧
    decode .alu 0x9f = .ok (.rol 31#5) := by decide

/-- Every clause: the sequencer with and without an input, a host access, a request, an ALU use. -/
theorem witness_StepRunsTheSelectedOperation : blank.rst = false ∧ decodeDispatch blank.dispatch = .ok .wait ∧
    (inLoop .W 13).rst = false ∧ (inLoop .W 13).agenda = [] ∧ decodeDispatch (inLoop .W 13).dispatch = .ok .absorbW ∧
    (let s : State := { inLoop .B 12 with agenda := [.sequencer] };
      s.rst = false ∧ s.agenda = [.sequencer] ∧ decodeDispatch s.dispatch = .ok .tailB12) ∧
    (let s : State := { blank with agenda := [.host 0x400000001#35] };
      s.rst = false ∧ s.agenda = [.host 0x400000001#35]) ∧
    (let s : State := { blank with agenda := [.read 0x14fffffffc#37] };
      s.rst = false ∧ s.agenda = [.read 0x14fffffffc#37] ∧ decodeRead 0x14fffffffc#37 = .ok (.rd32 4#3 0xfffffffc#32)) ∧
    (let s : State := { blank with agenda := [.alu 0x9f#8 1#32 2#32] };
      s.rst = false ∧ s.agenda = [.alu 0x9f#8 1#32 2#32] ∧ decodeAlu 0x9f#8 = .ok (.rol 31#5)) := by decide

theorem witness_ReservedWordsStopByName :
    (let s : State := { blank with ph := 7#3 };
      s.rst = false ∧ s.agenda = [] ∧ decodeDispatch s.dispatch = .error .reservedDispatch) ∧
    (let s : State := { blank with ph := 4#3, agenda := [.sequencer] };
      s.rst = false ∧ s.agenda = [.sequencer] ∧ decodeDispatch s.dispatch = .error .reservedDispatch) ∧
    (let s : State := { blank with agenda := [.read 0x1800000000#37] };
      s.rst = false ∧ s.agenda = [.read 0x1800000000#37] ∧ decodeRead 0x1800000000#37 = .error .reservedReadSize) ∧
    (let s : State := { blank with agenda := [.alu 0xa0#8 1#32 2#32] };
      s.rst = false ∧ s.agenda = [.alu 0xa0#8 1#32 2#32] ∧ decodeAlu 0xa0#8 = .error .reservedAluFunction) := by decide

theorem witness_PlacedTableWordRunsNext : decodeTableWord 16 0x0c4c = some .tailW12 ∧ decodeTableWord 16 0x0c10 = some .absorbB ∧
    decodeTableWord 40 0x400000001 = some .start ∧ decodeTableWord 40 0x1400000004 = some (.rd32 4#3 4#32) ∧
    decodeTableWord 8 0x93 = some (.rol 19#5) := by decide

theorem witness_ResetClearsTheControlState :
    ({ inLoop .W 13 with agenda := [.assertReset, .releaseReset] } : State).agenda = .assertReset :: [.releaseReset] := rfl

/-- No input, and every kind of event; a host write and a host read. -/
theorem witness_NothingRunsWhileResetIsAsserted :
    (let s : State := { blank with rst := true };
      s.rst = true ∧ s.agenda = []) ∧
    (let s : State := { blank with rst := true, agenda := [.sequencer, .host 0x500000003#35, .host 0#35, .read 0#37, .alu 0#8 1#32 2#32] };
      s.rst = true ∧ s.agenda = .sequencer :: [.host 0x500000003#35, .host 0#35, .read 0#37, .alu 0#8 1#32 2#32]) ∧
    (0x500000003#35).getLsbD 34 = true := by decide

theorem witness_WaitChangesNothing : blank.ph = 0#3 ∧ blank.agenda = [] ∧ blank.dispatch.ph = 0#3 := by decide

theorem witness_SeedLoadsTheAccumulators : ({ blank with ph := 1#3 } : State).dispatch.ph = 1#3 := by decide

/-- Both clauses; the second at `N = 1` served exactly, and at the largest `N`. -/
theorem witness_SelectChoosesThePathByContent : ({ blank with ph := 2#3 } : State).dispatch.ph = 2#3 ∧ blank.N = 0#32 ∧
    (let s : State := { blank with N := 1#32, served := 1 };
      s.N ≠ 0#32 ∧ Underway [⟨2#2, 1#3, 0#32⟩] s ∧ s.rqAlone = false ∧ min s.N.toNat 4 ≤ s.limit) ∧
    (let s : State := { blank with N := 0xffffffff#32, rq := some ⟨2#2, 4#3, 0#32⟩ };
      s.N ≠ 0#32 ∧ Underway [⟨2#2, 4#3, 0#32⟩] s ∧ s.rqAlone = false ∧ min s.N.toNat 4 ≤ s.limit) :=
  ⟨by decide, by decide, ⟨by decide, Laws.underway_fresh _ _ rfl rfl, rfl, by decide⟩,
    by decide, ⟨trivial, fun _ h _ => h⟩, rfl, by decide⟩

theorem witness_EmitDeliversTheDigest : ({ blank with ph := 6#3 } : State).dispatch.ph = 6#3 := by decide

theorem firstAnswer_isAnswerTo : isAnswerTo waiting.bufByte ⟨2#2, 4#3, 0#32⟩ firstAnswer := by
  constructor <;> decide

/-- The operation that waits for its second answer. -/
theorem waiting_underway (n : Nat) : Underway (blockReads .W 0#32 12) { waiting with served := n } :=
  ⟨⟨firstAnswer_isAnswerTo, trivial⟩, fun _ h _ => h⟩

/-- Begun at the largest cursor that leaves room for a block, on a platform that serves just the block, and taken up
again. -/
theorem witness_AbsorbAddsThreeWholeWords :
    (let d := (inLoop .H 13).dispatch;
      d.ph = 3#3 ∧ d.path = Path.code .H ∧ d.gt12 = true) ∧
    (let s : State := { inLoop .W 13 with cur := 0xfffffff4#32 };
      Underway (blockReads .W s.cur 12) s ∧ s.rqAlone = false ∧ s.cur.toNat + 12 ≤ s.limit) ∧
    (let s : State := { waiting with served := 12 };
      Underway (blockReads .W s.cur 12) s ∧ s.rqAlone = false ∧ s.cur.toNat + 12 ≤ s.limit) :=
  ⟨by decide, ⟨Laws.underway_fresh _ _ rfl rfl, rfl, by decide⟩, waiting_underway 12, rfl, by decide⟩

/-- `n = 1` and `n = 12`, at the last byte the platform serves and at the top of the offsets. -/
theorem witness_TailAddsTheLastBytes :
    (let d := (inLoop .W 12).dispatch;
      d.ph = 3#3 ∧ d.path = Path.code .W ∧ d.gt12 = false ∧ d.l4.toNat = 12) ∧
    (let d := (inLoop .H 1).dispatch;
      d.ph = 3#3 ∧ d.path = Path.code .H ∧ d.gt12 = false ∧ d.l4.toNat = 1) ∧
    (let d := (inLoop .B 5).dispatch;
      d.ph = 3#3 ∧ d.path = Path.code .B ∧ d.gt12 = false ∧ d.l4.toNat = 5) ∧
    (let s : State := { waiting with served := 12 };
      Underway (blockReads .W s.cur 12) s ∧ s.rqAlone = false ∧ s.cur.toNat + 12 ≤ s.limit) ∧
    (let s : State := { inLoop .W 12 with cur := 0xffffffff#32 };
      Underway (blockReads .W s.cur 1) s ∧ s.rqAlone = false ∧ s.cur.toNat + 1 ≤ s.limit) :=
  ⟨by decide, by decide, by decide, ⟨waiting_underway 12, rfl, by decide⟩, Laws.underway_fresh _ _ rfl rfl, rfl, by decide⟩

theorem witness_EmptyTailSkipsFinal :
    (let d := (inLoop .W 0).dispatch;
      d.ph = 3#3 ∧ d.path = Path.code .W ∧ d.gt12 = false ∧ d.l4 = 0#4) := by decide

theorem witness_MixStagesAreTheSixLines : ({ blank with ph := 4#3, st := 1#3 } : State).dispatch.ph = 4#3 ∧
    ({ blank with ph := 4#3, st := 1#3 } : State).dispatch.st = 1#3 ∧ ({ blank with ph := 4#3, st := 6#3 } : State).dispatch.st = 6#3 := by
  decide

/-- `L = 13`, and the largest cursor that does not wrap. -/
theorem witness_AdvMovesOneBlockOn :
    (let s : State := { blank with ph := 4#3, st := 7#3, L := 13#32, cur := 0xfffffff3#32 };
      s.dispatch.ph = 4#3 ∧ s.dispatch.st = 7#3 ∧ 12 < s.L.toNat ∧ s.cur.toNat + 12 < 2 ^ 32) := by decide

theorem witness_FinalStagesAreTheSevenLines : ({ blank with ph := 5#3, st := 1#3 } : State).dispatch.ph = 5#3 ∧
    ({ blank with ph := 5#3, st := 1#3 } : State).dispatch.st = 1#3 ∧ ({ blank with ph := 5#3, st := 7#3 } : State).dispatch.st = 7#3 := by
  decide

theorem witness_StartBeginsAJobOnlyWhenIdle : (0xffffffff#32).toNat % 2 = 1 ∧ blank.BUSY = false ∧ (inLoop .W 13).BUSY = true := by
  decide

theorem witness_HostWritesChangeLenAlone : (0xfffffffe#32).toNat % 2 = 0 := by decide

/-- A finished job's state: the invariant holds, `DONE` is 1. -/
def finished : State := { blank with DONE := true, path := 2#2, fw := 0x44332210#32, digest := 0x5b245e33ea3a25bf#64, N := 13#32 }

theorem finished_inv : Inv finished := by
  constructor <;> first | exact Laws.underway_fresh _ _ rfl rfl |
    simp [finished, blank, legalPosition, pastSelect, pathOfBits, Memory.wf]

theorem witness_ReadCsrReturnsTheStatus : Inv finished ∧ finished.DONE = true := ⟨finished_inv, rfl⟩

theorem witness_ReadDigestReturnsItsHalves : finished.DONE = true := rfl

/-- Every clause, at the last offset of the space, and just inside what the platform serves. -/
theorem witness_ReaderOperationsReturnBufferBytes : blank.rq = none ∧ (0xffffffff#32).toNat + 1 ≤ blank.limit ∧
    (0xfffffffe#32).toNat + (2#3).toNat ≤ blank.limit ∧ 1 ≤ (1#3).toNat ∧ (2#3).toNat ≤ 2 ∧
    (0xfffffffc#32).toNat + (4#3).toNat ≤ blank.limit ∧ (0xfffffffe#32).toNat % 2 = 0 ∧ (0xfffffffc#32).toNat % 4 = 0 ∧
    (12#32).toNat + (1#3).toNat ≤ ({ blank with served := 13 } : State).limit := by decide

theorem witness_EveryPathComposesTheSameWord : (0#32).toNat + 3 ≤ 2 ^ 32 ∧ ∀ p : Path, ∃ ls t,
    Underway (wordReads p 0#32 3) (inLoop .W 13) ∧ (inLoop .W 13).rqAlone = false ∧
    readAll (wordReads p 0#32 3) (inLoop .W 13) = .answered ls t := by
  refine ⟨by decide, fun p => ?_⟩
  cases p <;> exact ⟨_, _, Laws.underway_fresh _ _ rfl rfl, rfl, rfl⟩

/-- Every clause, one byte short: a block begun and one that waits already, a tail, SELECT, and the three reader
operations. -/
theorem witness_UnansweredReadLeavesTheCoreWaiting :
    (let s : State := { inLoop .W 13 with served := 11 };
      Underway (blockReads .W s.cur 12) s ∧ s.rqAlone = false ∧
        ¬(∀ r ∈ (blockReads .W s.cur 12).drop s.answers.length, r.off.toNat + r.v.toNat ≤ s.limit)) ∧
    (let s : State := { waiting with served := 0 };
      Underway (blockReads .W s.cur 12) s ∧ s.rqAlone = false ∧
        ¬(∀ r ∈ (blockReads .W s.cur 12).drop s.answers.length, r.off.toNat + r.v.toNat ≤ s.limit)) ∧
    (let s : State := { inLoop .B 1 with served := 0 };
      Underway (blockReads .B s.cur 1) s ∧ s.rqAlone = false ∧
        ¬(∀ r ∈ (blockReads .B s.cur 1).drop s.answers.length, r.off.toNat + r.v.toNat ≤ s.limit)) ∧
    (let s : State := { inLoop .W 3 with served := 2 };
      s.N ≠ 0#32 ∧ Underway [⟨2#2, 3#3, 0#32⟩] s ∧ s.rqAlone = false ∧
        ¬(∀ r ∈ [(⟨2#2, 3#3, 0#32⟩ : ReadReq)].drop s.answers.length, r.off.toNat + r.v.toNat ≤ s.limit)) ∧
    (let s : State := { blank with served := 8 };
      s.rq = none ∧ s.limit < (8#32).toNat + 1 ∧ s.limit < (7#32).toNat + (2#3).toNat) :=
  ⟨⟨Laws.underway_fresh _ _ rfl rfl, rfl, by decide⟩, ⟨waiting_underway 0, rfl, by decide⟩,
    ⟨Laws.underway_fresh _ _ rfl rfl, rfl, by decide⟩,
    ⟨by decide, Laws.underway_fresh _ _ rfl rfl, rfl, by decide⟩, by decide⟩

theorem witness_RolMovesEachBitLeft : (31#5) ≠ 0#5 ∧ 31 < 32 := by decide

theorem witness_AluSumsOfDisjointWordsAreTheirUnion : and32 0x0000ffff#32 0xffff0000#32 = 0#32 := by decide

theorem witness_NoOperationWritesTheBuffer : ∃ t, exec .absorbW (inLoop .W 13) = .next t := ⟨_, rfl⟩

/-- All three ways: no job, the first byte after the running job's buffer, and a byte of it written once more; from a
canonical memory. -/
theorem witness_BufferWriteChangesOneByte :
    (let s : State := { blank with agenda := [.writeBuffer 0xffffffff#32 0x7f#8] };
      s.agenda = .writeBuffer 0xffffffff#32 0x7f#8 :: [] ∧ s.BUSY = false) ∧
    (let s : State := { inLoop .W 13 with agenda := [.writeBuffer 13#32 0x7f#8] };
      s.agenda = .writeBuffer 13#32 0x7f#8 :: [] ∧ s.N.toNat ≤ (13#32).toNat ∧ Memory.wf s.mem = true) ∧
    (let s : State := { inLoop .W 13 with agenda := [.writeBuffer 12#32 0xdd#8] };
      s.agenda = .writeBuffer 12#32 0xdd#8 :: [] ∧ Memory.read s.mem (12#32).toNat = some 0xdd#8) := by decide

/-- The last byte of the running job's buffer. -/
theorem witness_BufferChangeInAJobIsRefused :
    (let s : State := { inLoop .W 13 with agenda := [.writeBuffer 12#32 0x7f#8] };
      s.agenda = .writeBuffer 12#32 0x7f#8 :: [] ∧ s.BUSY = true ∧ (12#32).toNat < s.N.toNat ∧
      Memory.read s.mem (12#32).toNat ≠ some 0x7f#8) := by decide

/-- An operation of each kind the clauses tell apart completes. -/
theorem witness_OnlyTheListedOperationsWriteARegister : ∃ t u v w, exec .seed (inLoop .W 13) = .next t ∧
    exec (.rd8 0#32) (inLoop .W 13) = .next u ∧ exec .tailW12 (inLoop .W 12) = .next v ∧ exec .f7 blank = .next w ∧
    addsWords .tailW12 ∧ isStage .f7 ∧ usesReader (.rd8 0#32) ∧ ¬isStage .seed :=
  ⟨_, _, _, _, rfl, rfl, rfl, rfl, ⟨.W, .inr ⟨12, by decide, by decide, rfl⟩⟩, by simp [isStage], .inr (.inr rfl),
    by simp [isStage]⟩

/-- A job in LOOP: the invariant holds, and its next step answers a next state. -/
theorem inLoop_inv : Inv (inLoop .W 13) := by
  have hm : Memory.wf (inLoop .W 13).mem = true := by decide
  have hp : (inLoop .W 13).path = pathOfBits ((inLoop .W 13).fw.extractLsb' 0 2) := by decide
  constructor <;> first | exact Laws.underway_fresh _ _ rfl rfl | assumption | exact fun _ => hp |
    simp [inLoop, blank, legalPosition, pastSelect]

/-- So it does where the job waits for an answer. -/
theorem waiting_inv (n : Nat) : Inv { waiting with served := n } :=
  ⟨inLoop_inv.1, inLoop_inv.2, inLoop_inv.3, inLoop_inv.4, inLoop_inv.5, inLoop_inv.6, inLoop_inv.7, inLoop_inv.8,
    inLoop_inv.9, inLoop_inv.10, inLoop_inv.11, fun h => (by cases h), fun r h => (by cases h; decide), inLoop_inv.14,
    waiting_underway n, fun h => (by cases h)⟩

/-- An operation with no answer to come, and the one that waits for an answer of its own. -/
theorem witness_HostAccessDoesNotDisturbARunningJob : ∃ t u v, (inLoop .W 13).BUSY = true ∧ Instr.absorbW.format = .seq ∧
    (inLoop .W 13).rq = none ∧ Inv { waiting with served := 12 } ∧
    decodeDispatch ({ waiting with served := 12 } : State).dispatch = .ok .absorbW ∧
    exec (decodeHost 0x500000003#35) (inLoop .W 13) = .next t ∧ exec .absorbW t = .next u ∧
    exec .absorbW (inLoop .W 13) = .next v := 
  ⟨_, _, _, rfl, rfl, rfl, waiting_inv 12, by decide, rfl, rfl, rfl⟩

theorem witness_EveryStepKeepsTheInvariant : ∃ t u, Inv (inLoop .W 13) ∧ step (inLoop .W 13) = .next t ∧
    Inv { waiting with served := 0 } ∧ step { waiting with served := 0 } = .next u :=
  ⟨_, _, inLoop_inv, rfl, waiting_inv 0, rfl⟩

theorem witness_NoFaultUnderTheInvariant : Inv (inLoop .W 13) := inLoop_inv

/-- A step that makes requests, one whose request is not answered, and one that is waiting already. -/
theorem witness_RequestsStayInsideTheBuffer : Inv (inLoop .W 13) ∧ (inLoop .W 13).rst = false ∧
    (inLoop .W 13).rqAlone = false ∧ (inLoop .W 13).agenda = [] ∧
    ok (step (inLoop .W 13)) (fun t => decide ((⟨2#2, 4#3, 8#32⟩ : ReadReq) ∈ t.readLog.drop (inLoop .W 13).readLog.length)) = true ∧
    ok (step { inLoop .W 13 with served := 11 }) (fun t => t.rq == some ⟨2#2, 4#3, 8#32⟩) = true ∧
    Inv { waiting with served := 0 } ∧ ok (step { waiting with served := 0 }) (fun t => t.rq == some ⟨2#2, 4#3, 4#32⟩) = true :=
  ⟨inLoop_inv, rfl, rfl, rfl, by decide, by decide, waiting_inv 0, by decide⟩

/-- A job of the largest `N`, just started. -/
theorem largest_job_start : JobStart { blank with N := 0xffffffff#32, BUSY := true, ph := 1#3 } := by
  constructor <;> decide

/-- The empty job, just started, on a platform that serves nothing. -/
theorem empty_job_start : JobStart { blank with BUSY := true, ph := 1#3, served := 0 } := by
  constructor <;> decide

theorem witness_AJobComputesTheLookup3Digest : ∃ s : State, JobStart s ∧ s.N = 0xffffffff#32 := ⟨_, largest_job_start, rfl⟩

theorem witness_AJobMakesTheReadsOfItsPath : ∃ s : State, JobStart s ∧ s.N = 0#32 := ⟨_, empty_job_start, rfl⟩

theorem witness_EmptyBufferGivesTheSeed : ∃ s : State, JobStart s ∧ s.N = 0#32 := ⟨_, empty_job_start, rfl⟩

/-- Two states that differ in registers and in a byte beyond the buffer. -/
theorem witness_DigestDependsOnTheBufferAlone : ∃ s u : State, JobStart s ∧ JobStart u ∧ s.N = u.N ∧ s.a ≠ u.a ∧
    (∀ off : Nat, off < s.N.toNat → s.bufByte off = u.bufByte off) := by
  refine ⟨{ blank with mem := [(0, 5#8), (1, 6#8)], N := 1#32, ph := 1#3 },
    { blank with mem := [(0, 5#8)], N := 1#32, ph := 1#3, a := 9#32 }, ?_, ?_, rfl, by decide, ?_⟩
  · constructor <;> decide
  · constructor <;> decide
  · intro off h
    have : off = 0 := by
      have h1 : off < 1 := h
      omega
    subst this
    rfl

/-- The empty job with a host access before its last operation. -/
theorem witness_DigestDoesNotDependOnTheInterleaving :
    (let s : State := { blank with BUSY := true, ph := 1#3, agenda := [.sequencer, .sequencer, .host 0x500000003#35, .sequencer, .sequencer] };
      s.BUSY = true ∧ JobStart { s with agenda := [] } ∧ (∀ e ∈ s.agenda, e = .sequencer ∨ ∃ hw, e = .host hw) ∧
        s.agenda.count .sequencer = jobOps s.N.toNat) := by
  refine ⟨rfl, ?_, ?_, by decide⟩
  · constructor <;> decide
  · simp

theorem witness_ACallReturnsTheDigestOfTheBuffer :
    (let s : State := { finished with agenda := [.host (1#1 ++ 1#2 ++ 0xffffffff#32), .host (1#1 ++ 0#2 ++ 1#32)] };
      Inv s ∧ s.BUSY = false ∧ s.rst = false ∧ s.rq = none ∧ (0xffffffff#32).toNat ≤ s.limit) := by
  refine ⟨?_, rfl, rfl, rfl, by decide⟩
  have h := finished_inv
  exact ⟨h.1, h.2, h.3, h.4, h.5, h.6, h.7, h.8, h.9, h.10, h.11, h.12, h.13, h.14, Laws.underway_fresh _ _ rfl rfl, h.alone⟩

/-- Both halves, for the sequencer's request and for one run alone, at the edge of what the platform serves. -/
theorem witness_AnOutstandingReadIsAnsweredFirst :
    (waiting.rq = some ⟨2#2, 4#3, 4#32⟩ ∧ waiting.limit < (4#32).toNat + (4#3).toNat ∧ waiting.rqAlone = false) ∧
    (let s : State := { waiting with served := 8 };
      s.rq = some ⟨2#2, 4#3, 4#32⟩ ∧ (4#32).toNat + (4#3).toNat ≤ s.limit ∧ (⟨2#2, 4#3, 4#32⟩ : ReadReq).legal = true) ∧
    (let s : State := { blank with rq := some ⟨0#2, 1#3, 7#32⟩, rqAlone := true, served := 8 };
      s.rq = some ⟨0#2, 1#3, 7#32⟩ ∧ (7#32).toNat + (1#3).toNat ≤ s.limit ∧ s.rqAlone = true) ∧
    addsWords .absorbB ∧ (Instr.rd8 7#32).format = .rdreq :=
  ⟨by decide, by decide, by decide, ⟨.B, .inl rfl⟩, rfl⟩

/-- A job of one byte on a platform that answers late. -/
theorem witness_DigestAndReadsDoNotDependOnTheWaits :
    (let s : State := { blank with
        mem := [(0, 0x10#8)], N := 1#32, BUSY := true, ph := 1#3, served := 0,
        agenda := [.sequencer, .sequencer, .sequencer, .serve 1] };
      s.ph = 1#3 ∧ s.BUSY = true ∧ s.DONE = false ∧ s.rst = false ∧ s.rq = none ∧ s.answers = [] ∧
      (∀ e ∈ s.agenda, e = .sequencer ∨ ∃ n, e = .serve n) ∧ ok (core.run 15 s) (fun t => t.DONE) = true) := by
  refine ⟨rfl, rfl, rfl, rfl, rfl, rfl, ?_, by decide⟩
  simp

end Sys2Proof.Tests
end

section
/-! PROOFS. A whole job (R3, R231): the sequencer's runs by parts (SEED and SELECT, a block of the loop, the tail with
Final and EMIT), an invariant at LOOP kept by every block, and the job put together by induction on the blocks. -/

namespace Sys2Proof.Laws

open Machine

/-! ## Runs of the sequencer -/

/-- Nothing but the sequencer moves, and it is between two operations: no reset, no input waiting, no read begun. -/
structure Quiet (s : State) : Prop where
  noReset : s.rst = false
  noInput : s.agenda = []
  noRead : s.rq = none
  noAnswers : s.answers = []

/-- A step taken is one fewer to run. -/
theorem run_succ (k : Nat) (s t : State) (h : step s = .next t) : core.run (k + 1) s = core.run k t := by
  simp only [Host.Core.run, show core.step s = .next t from h]

/-- A run that has come to `t` goes on from `t`. -/
theorem run_add (m n : Nat) (s t : State) (h : core.run m s = .next t) : core.run (m + n) s = core.run n t := by
  induction m generalizing s with
  | zero =>
    cases h
    rw [Nat.zero_add]
  | succ m ih =>
    rw [Nat.add_right_comm]
    cases hs : step s with
    | next u =>
      rw [run_succ _ s u hs] at h ⊢
      exact ih u h
    | fault f => simp only [Host.Core.run, show core.step s = .fault f from hs, reduceCtorEq] at h
    | refused r => simp only [Host.Core.run, show core.step s = .refused r from hs, reduceCtorEq] at h

/-- One operation of the sequencer, then the rest of the run (R92). -/
theorem run_exec (k : Nat) (s t : State) (i : Instr) (hq : Quiet s) (hd : decodeDispatch s.dispatch = .ok i)
    (he : exec i s = .next t) : core.run (k + 1) s = core.run k t := by
  refine run_succ k s t ?_
  rw [← he]
  simp only [step, runStep, runSequencer, hq.noInput, hq.noReset, hd, Bool.false_eq_true, if_false]

/-! ## Mix and Final -/

/-- The accumulators replaced. -/
def withAcc (x : Acc) (s : State) : State := { s with a := x.a, b := x.b, c := x.c }

/-- What M1 to ADV leave: Mix of the accumulators, and the next block at LOOP (R216, R217). -/
def afterMix (s : State) : State :=
  { withAcc (mixRef s.acc) s with L := s.L - 12#32, cur := s.cur + 12#32, ph := 3#3, st := 0#3 }

/-- What F1 to EMIT leave: Final of the accumulators, and its digest delivered (R228, R229). -/
def afterFinal (s : State) : State :=
  { withAcc (finalRef s.acc) s with
    digest := (finalRef s.acc).c ++ (finalRef s.acc).b, DONE := true, BUSY := false, ph := 0#3, st := 0#3 }

@[simp] theorem afterMix_acc (s : State) : (afterMix s).acc = mixRef s.acc := rfl
@[simp] theorem afterMix_L (s : State) : (afterMix s).L = s.L - 12#32 := rfl
@[simp] theorem afterMix_cur (s : State) : (afterMix s).cur = s.cur + 12#32 := rfl
@[simp] theorem afterMix_path (s : State) : (afterMix s).path = s.path := rfl
@[simp] theorem afterMix_mem (s : State) : (afterMix s).mem = s.mem := rfl
@[simp] theorem afterMix_served (s : State) : (afterMix s).served = s.served := rfl
@[simp] theorem afterMix_readLog (s : State) : (afterMix s).readLog = s.readLog := rfl

theorem afterMix_quiet (s : State) (hq : Quiet s) : Quiet (afterMix s) := ⟨hq.noReset, hq.noInput, hq.noRead, hq.noAnswers⟩

@[simp] theorem afterFinal_digest (s : State) : (afterFinal s).digest = (finalRef s.acc).c ++ (finalRef s.acc).b := rfl
@[simp] theorem afterFinal_path (s : State) : (afterFinal s).path = s.path := rfl
@[simp] theorem afterFinal_readLog (s : State) : (afterFinal s).readLog = s.readLog := rfl

/-- M1 to M6 and ADV one after the other. With the position known every dispatch is decided, so the machine itself
computes the seven steps on unknown accumulators. -/
theorem run_mix (s : State) (hq : Quiet s) (hp : s.ph = 4#3) (hs : s.st = 1#3) : core.run 7 s = .next (afterMix s) := by
  obtain ⟨hr, hi, -, -⟩ := hq
  cases s
  subst hp hs hr hi
  rfl

/-- F1 to F7 and EMIT one after the other, computed as `run_mix` is. -/
theorem run_final (s : State) (hq : Quiet s) (hp : s.ph = 5#3) (hs : s.st = 1#3) : core.run 8 s = .next (afterFinal s) := by
  obtain ⟨hr, hi, -, -⟩ := hq
  cases s
  subst hp hs hr hi
  rfl

/-! ## The reads of an operation that begins -/

/-- Requests the platform serves, none begun: all are answered in this step. -/
theorem readAll_fresh (rs : List ReadReq) (s : State) (hq : Quiet s) (hs : ∀ r ∈ rs, s.serves r = true) :
    readAll rs s = .answered (answersFrom s s.draws rs) (afterReads rs s) := by
  have hr : receive s = some s := by simp only [receive, hq.noRead]
  rcases issueAll_cases rs s with ⟨-, e⟩ | ⟨pre, r, post, rfl, -, hn, -⟩
  · simpa only [readAll, hr, hq.noAnswers, List.length_nil, List.drop_zero, List.nil_append] using e
  · rw [hs r (by simp)] at hn
    cases hn

/-- The answers to the requests for `n` bytes from an aligned offset are all there are. -/
theorem blockReads_complete (p : Path) (s : State) (n : Nat) (h4 : s.cur.toNat % 4 = 0) (hn : s.cur.toNat + n ≤ s.limit) :
    complete s.bufByte (blockReads p s.cur n) (answersFrom s s.draws (blockReads p s.cur n)) := by
  have hl := limit_le s
  refine ⟨answersFrom_answersFor s _ _ fun r hr => legal_sized r ?_, answersFrom_length s _ _⟩
  obtain ⟨-, -, hlegal, -⟩ := blockReads_bounds p s.cur n (by omega) r hr
  exact hlegal h4

/-! ## ABSORB and TAIL -/

/-- What ABSORB and TAIL of `n` bytes leave, with the `w` registers given: the bytes read and added, and the first stage
of phase `ph` next. -/
def bytesAdded (p : Path) (n : Nat) (ph : BitVec 3) (w0 w1 w2 : Word) (s : State) : State :=
  { withAcc (addBytes s.bufByte s.cur.toNat n s.acc) (afterReads (blockReads p s.cur n) s) with
    w0 := w0, w1 := w1, w2 := w2, ph := ph, st := 1#3 }

section
variable (p : Path) (n : Nat) (ph : BitVec 3) (w0 w1 w2 : Word) (s : State)

@[simp] theorem bytesAdded_acc : (bytesAdded p n ph w0 w1 w2 s).acc = addBytes s.bufByte s.cur.toNat n s.acc := rfl
@[simp] theorem bytesAdded_L : (bytesAdded p n ph w0 w1 w2 s).L = s.L := rfl
@[simp] theorem bytesAdded_cur : (bytesAdded p n ph w0 w1 w2 s).cur = s.cur := rfl
@[simp] theorem bytesAdded_path : (bytesAdded p n ph w0 w1 w2 s).path = s.path := rfl
@[simp] theorem bytesAdded_mem : (bytesAdded p n ph w0 w1 w2 s).mem = s.mem := rfl
@[simp] theorem bytesAdded_served : (bytesAdded p n ph w0 w1 w2 s).served = s.served := rfl
@[simp] theorem bytesAdded_readLog :
    (bytesAdded p n ph w0 w1 w2 s).readLog = s.readLog ++ blockReads p s.cur n := rfl

theorem bytesAdded_quiet (hq : Quiet s) : Quiet (bytesAdded p n ph w0 w1 w2 s) :=
  ⟨hq.noReset, hq.noInput, by simp [bytesAdded, withAcc, hq.noRead], rfl⟩

end

theorem addWords_frame (ws : List BlockWord) (s : State) :
    addWords ws s = { withAcc (addWords ws s).acc s with
      w0 := (addWords ws s).w0, w1 := (addWords ws s).w1, w2 := (addWords ws s).w2 } := by
  unfold addWords
  split <;> rfl

/-- What the words of a list add is the buffer's bytes, each word's own number of them (R137). -/
theorem composeWords_addends (buf : Nat → Byte) (p : Path) (ws : List (Word × Nat)) (ls : List Lanes)
    (hw : ∀ x ∈ ws, 1 ≤ x.2 ∧ x.2 ≤ 4 ∧ x.1.toNat + x.2 ≤ 2 ^ 32) (h : complete buf (readsOf p ws) ls) :
    (composeWords p ws ls).map (·.addend) = ws.map fun x => bufWord buf x.1.toNat x.2 := by
  induction ws generalizing ls with
  | nil => rfl
  | cons x ws ih =>
    obtain ⟨h1, h4, ho⟩ := hw x (by simp)
    obtain ⟨as, bs, ha, hb, e⟩ := complete_readsOf_cons buf p x.1 x.2 ws ls h
    rw [e, List.map_cons, List.map_cons, ih bs (fun y hy => hw y (by simp [hy])) hb]
    simp only [maskedWord_value buf p x.1 x.2 as h1 h4 ho ha]

/-- The words take part in order, one to an accumulator; an accumulator without a word gets 0 (R165). -/
theorem addWords_acc (ws : List BlockWord) (s : State) :
    (addWords ws s).acc =
      ⟨s.a + (ws.map (·.addend)).getD 0 0#32, s.b + (ws.map (·.addend)).getD 1 0#32,
        s.c + (ws.map (·.addend)).getD 2 0#32⟩ := by
  unfold addWords
  split <;> simp [State.acc, add32]

/-- The words of a tail add its `n` bytes (R165, R184, R204). -/
theorem addWords_tail_acc (buf : Nat → Byte) (p : Path) (cur : Word) (n : Nat) (ls : List Lanes) (s : State) (h1 : 1 ≤ n)
    (hn : n ≤ 12) (hc : cur.toNat + n ≤ 2 ^ 32) (h : complete buf (readsOf p (tailWords cur n)) ls) :
    (addWords (composeWords p (tailWords cur n) ls) s).acc = addBytes buf cur.toNat n s.acc := by
  have hz : ∀ off, bufWord buf off 0 = 0#32 := fun _ => rfl
  have o4 := offset_add_toNat cur 4
  have o8 := offset_add_toNat cur 8
  have hw : ∀ x ∈ tailWords cur n, 1 ≤ x.2 ∧ x.2 ≤ 4 ∧ x.1.toNat + x.2 ≤ 2 ^ 32 := by
    unfold tailWords
    split_ifs <;> simp <;> omega
  rw [addWords_acc, composeWords_addends buf p _ ls hw h, addBytes]
  rcases show n ≤ 4 ∨ (¬n ≤ 4 ∧ n ≤ 8) ∨ (¬n ≤ 4 ∧ ¬n ≤ 8) by omega with h4 | ⟨h4, h8⟩ | ⟨h4, h8⟩
  · simp [tailWords, show n ≠ 0 by omega, h4, State.acc, show n - 4 = 0 by omega, show n - 8 = 0 by omega, hz]
  · simp [tailWords, show n ≠ 0 by omega, h4, h8, State.acc, show min 4 n = 4 by omega, show n - 8 = 0 by omega, hz,
      o4 (by omega)]
  · simp [tailWords, show n ≠ 0 by omega, h4, h8, State.acc, show min 4 n = 4 by omega, show min 4 (n - 4) = 4 by omega,
      show min 4 (n - 8) = n - 8 by omega, o4 (by omega), o8 (by omega)]

/-- ABSORB, begun with its bytes served: the next twelve bytes are added (R151, R170, R190). -/
theorem absorb_fresh (p : Path) (s : State) (hq : Quiet s) (h4 : s.cur.toNat % 4 = 0) (hn : s.cur.toNat + 12 ≤ s.limit) :
    ∃ w0 w1 w2, absorb p s = .next (bytesAdded p 12 4#3 w0 w1 w2 s) := by
  have hl := limit_le s
  have hc := blockReads_complete p s 12 h4 hn
  have hw := composeWords_block s.bufByte p s.cur _ (by omega) (by rw [readsOf_block]; exact hc)
  rw [absorb, readsOf_block, readAll_fresh _ s hq (blockReads_served p s 12 hn)]
  dsimp only [wholeWords] at hw ⊢
  rw [hw]
  exact ⟨_, _, _, rfl⟩

/-- TAIL, begun with its bytes served: the last `n` bytes are added (R165, R184, R204). -/
theorem tail_fresh (p : Path) (n : Nat) (s : State) (h1 : 1 ≤ n) (h12 : n ≤ 12) (hq : Quiet s) (h4 : s.cur.toNat % 4 = 0)
    (hn : s.cur.toNat + n ≤ s.limit) : ∃ w0 w1 w2, tail p n s = .next (bytesAdded p n 5#3 w0 w1 w2 s) := by
  have hl := limit_le s
  have hc := blockReads_complete p s n h4 hn
  have hacc := addWords_tail_acc s.bufByte p s.cur n _ (afterReads (blockReads p s.cur n) s) h1 h12 (by omega)
    (by rw [readsOf_tail p s.cur n h1 h12]; exact hc)
  rw [tail, readsOf_tail p s.cur n h1 h12, readAll_fresh _ s hq (blockReads_served p s n hn)]
  dsimp only
  rw [addWords_frame, hacc]
  exact ⟨_, _, _, rfl⟩

/-! ## SELECT -/

/-- The path the low bits of the first byte select is the job's (R142). -/
theorem choosePath_eq_jobPath (buf : Nat → Byte) (N : Nat) (h : N ≠ 0) : choosePath (buf 0) = jobPath buf N := by
  have key : ∀ x : Byte, choosePath x = if x.toNat % 4 = 0 then .W else if x.toNat % 4 = 2 then .H else .B := by decide
  rw [jobPath, if_neg h, key]

/-- SELECT's read (R141). -/
def selectRead (N : Nat) : ReadReq := ⟨2#2, BitVec.ofNat 3 (min N 4), 0#32⟩

/-- SELECT, begun with the buffer's first bytes served: the path is the job's (R141, R142). -/
theorem select_fresh (s : State) (hq : Quiet s) (h0 : s.N ≠ 0#32) (hn : min s.N.toNat 4 ≤ s.limit) :
    ∃ fw, exec .select s = .next { afterReads [selectRead s.N.toNat] s with
      fw := fw, path := (jobPath s.bufByte s.N.toNat).code, ph := 3#3 } := by
  have hN : s.N.toNat ≠ 0 := fun h => h0 (BitVec.eq_of_toNat_eq h)
  have hv : (BitVec.ofNat 3 (min s.N.toNat 4)).toNat = min s.N.toNat 4 := by
    rw [BitVec.toNat_ofNat]
    omega
  have hs : ∀ r ∈ [selectRead s.N.toNat], s.serves r = true := by
    simpa [selectRead, State.serves, hv] using hn
  have hl : firstLane (answersFrom s s.draws [selectRead s.N.toNat]) = s.bufByte 0 :=
    if_pos (show 0 < (selectRead s.N.toNat).v.toNat by simp only [selectRead, hv]; omega)
  refine ⟨composeWord .W (answersFrom s s.draws [selectRead s.N.toNat]), ?_⟩
  rw [← choosePath_eq_jobPath s.bufByte s.N.toNat hN, ← hl]
  show execSelect s = _
  rw [execSelect, if_neg h0, show rd32Req 0#32 (selectCount s.N) = selectRead s.N.toNat from rfl, readAll_fresh _ s hq hs]

/-! ## The rows of LOOP -/

theorem decodeDispatch_absorb (p : Path) (d : DispatchWord) (hph : d.ph = 3#3) (hp : d.path = p.code) (hg : d.gt12 = true) :
    decodeDispatch d = .ok (absorbInstr p) := by
  simp only [decodeDispatch, hph, hp, hg]
  cases p <;> rfl

theorem decodeDispatch_tail (p : Path) (n : Nat) (hn : n ≤ 12) (d : DispatchWord) (hph : d.ph = 3#3) (hp : d.path = p.code)
    (hg : d.gt12 = false) (hl : d.l4.toNat = n) : decodeDispatch d = .ok (tailInstr p n) := by
  have row : ∀ n ≤ 12, decodeTailW n = .ok (tailWInstr n) ∧ decodeTailH n = .ok (tailHInstr n) ∧
      decodeTailB n = .ok (tailBInstr n) := by decide
  obtain ⟨hW, hH, hB⟩ := row n hn
  simp only [decodeDispatch, hph, hp, hg]
  cases p with
  | W => exact (congrArg decodeTailW hl).trans hW
  | H => exact (congrArg decodeTailH hl).trans hH
  | B => exact (congrArg decodeTailB hl).trans hB

/-! ## A whole job -/

/-- SELECT's read and those of the first `q` blocks (R65, R71). -/
def requestsBefore (p : Path) (N q : Nat) : List ReadReq :=
  selectRead N :: (List.range q).flatMap fun j => blockReads p (BitVec.ofNat 32 (12 * j)) 12

/-- The job begun in `s` stands at LOOP in `t`, with `q` blocks added (R150). -/
structure AtLoop (s : State) (q : Nat) (t : State) : Prop where
  quiet : Quiet t
  phase : t.ph = 3#3
  mem : t.mem = s.mem
  served : t.served = s.served
  path : t.path = (jobPath s.bufByte s.N.toNat).code
  cursor : t.cur = BitVec.ofNat 32 (12 * q)
  left : t.L = s.N - BitVec.ofNat 32 (12 * q)
  acc : t.acc = loopRef s.bufByte s.N.toNat q
  log : t.readLog = s.readLog ++ requestsBefore (jobPath s.bufByte s.N.toNat) s.N.toNat q

theorem AtLoop.bufByte {s t : State} {q : Nat} (h : AtLoop s q t) : t.bufByte = s.bufByte := by
  funext off
  rw [State.bufByte, State.bufByte, h.mem]

theorem AtLoop.limit {s t : State} {q : Nat} (h : AtLoop s q t) : t.limit = s.limit := by
  rw [State.limit, State.limit, h.served]

theorem AtLoop.cur_toNat {s t : State} {q : Nat} (h : AtLoop s q t) (hq : 12 * q < 2 ^ 32) : t.cur.toNat = 12 * q := by
  rw [h.cursor, BitVec.toNat_ofNat, Nat.mod_eq_of_lt hq]

theorem AtLoop.left_toNat {s t : State} {q : Nat} (h : AtLoop s q t) (hq : 12 * q ≤ s.N.toNat) :
    t.L.toNat = s.N.toNat - 12 * q := by
  rw [h.left]
  bv_omega

/-- The job begun in `s` has ended in `t` (R228, R231): the digest is that of the buffer, and each read of the job's path
has been made once, in order. -/
structure JobEnd (s t : State) : Prop where
  digest : t.digest = lookup3 s.bufByte s.N.toNat
  done : t.DONE = true
  idle : t.BUSY = false
  phase : t.ph = 0#3
  stage : t.st = 0#3
  path : t.path = (jobPath s.bufByte s.N.toNat).code
  log : t.readLog = s.readLog ++ jobRequests (jobPath s.bufByte s.N.toNat) s.N.toNat

/-- SEED and SELECT (R140, R141). -/
theorem job_reaches_loop (s : State) (h : JobStart s) (h0 : s.N ≠ 0#32) : ∃ t, core.run 2 s = .next t ∧ AtLoop s 0 t := by
  have hq : Quiet s := ⟨h.noReset, h.noInput, h.noRead.1, h.noRead.2⟩
  let u : State := { withAcc (seedRef s.N.toNat) s with L := s.N, cur := 0#32, ph := 2#3, st := 0#3 }
  have hu : Quiet u := ⟨hq.noReset, hq.noInput, hq.noRead, hq.noAnswers⟩
  have he : exec .seed s = .next u := by
    simp only [u, withAcc, seedRef, BitVec.ofNat_toNat, BitVec.setWidth_eq]
    rfl
  have hd : decodeDispatch s.dispatch = .ok .seed := by simp only [decodeDispatch, State.dispatch, h.phase]; rfl
  obtain ⟨fw, hf⟩ := select_fresh u hu h0 (le_trans (Nat.min_le_left _ _) h.served)
  refine ⟨_, (run_exec 1 s u .seed hq hd he).trans (run_exec 0 u _ .select hu rfl hf), ?_⟩
  exact {
    quiet := ⟨hu.noReset, hu.noInput, by simp, rfl⟩
    phase := rfl
    mem := rfl
    served := rfl
    path := rfl
    cursor := rfl
    left := (BitVec.sub_zero s.N).symm
    acc := rfl
    log := rfl }

/-- While more than 12 bytes are left, eight operations add the next block: ABSORB, M1 to M6, ADV (R150, R217). -/
theorem loop_round (s t : State) (q : Nat) (h : AtLoop s q t) (hs : s.N.toNat ≤ s.limit) (hq : 12 * q + 12 < s.N.toNat) :
    ∃ u, core.run 8 t = .next u ∧ AtLoop s (q + 1) u := by
  have hN := s.N.isLt
  have hcur := h.cur_toNat (by omega)
  have hgt : gt12 t.L = true := decide_eq_true (show 12 < t.L.toNat by rw [h.left_toNat (by omega)]; omega)
  obtain ⟨w0, w1, w2, he⟩ := absorb_fresh (jobPath s.bufByte s.N.toNat) t h.quiet (by omega) (by rw [h.limit]; omega)
  have hd := decodeDispatch_absorb _ t.dispatch h.phase h.path hgt
  have hu := bytesAdded_quiet (jobPath s.bufByte s.N.toNat) 12 4#3 w0 w1 w2 t h.quiet
  refine ⟨_, (run_exec 7 t _ _ h.quiet hd ((exec_absorbInstr _ t).trans he)).trans (run_mix _ hu rfl rfl), ?_⟩
  exact {
    quiet := afterMix_quiet _ hu
    phase := rfl
    mem := by rw [afterMix_mem, bytesAdded_mem, h.mem]
    served := by rw [afterMix_served, bytesAdded_served, h.served]
    path := by rw [afterMix_path, bytesAdded_path, h.path]
    cursor := by
      rw [afterMix_cur, bytesAdded_cur, h.cursor]
      bv_omega
    left := by
      rw [afterMix_L, bytesAdded_L, h.left]
      bv_omega
    acc := by rw [afterMix_acc, bytesAdded_acc, h.bufByte, hcur, h.acc, loopRef]
    log := by
      rw [afterMix_readLog, bytesAdded_readLog, h.log, h.cursor]
      simp [requestsBefore, List.range_succ] }

/-- As many blocks as leave a byte for the tail. -/
theorem job_adds_blocks (s : State) (h : JobStart s) (q : Nat) (hq : 12 * q < s.N.toNat) :
    ∃ t, core.run (2 + 8 * q) s = .next t ∧ AtLoop s q t := by
  induction q with
  | zero => exact job_reaches_loop s h fun h0 => by simp [h0] at hq
  | succ q ih =>
    obtain ⟨t, hrun, ht⟩ := ih (by omega)
    obtain ⟨u, hu, hl⟩ := loop_round s t q ht h.served (by omega)
    exact ⟨u, (run_add (2 + 8 * q) 8 s t hrun).trans hu, hl⟩

/-- With 1 to 12 bytes left, nine operations end the job: TAIL, F1 to F7, EMIT (R220, R228). -/
theorem loop_exit (s t : State) (q : Nat) (h : AtLoop s q t) (hs : s.N.toNat ≤ s.limit) (h1 : 12 * q < s.N.toNat)
    (h12 : s.N.toNat ≤ 12 * q + 12) : ∃ u, core.run 9 t = .next u ∧ JobEnd s u := by
  have hN := s.N.isLt
  have hcur := h.cur_toNat (by omega)
  have hL := h.left_toNat (by omega)
  have hgt : gt12 t.L = false := decide_eq_false (show ¬12 < t.L.toNat by omega)
  have hl4 : (t.L.extractLsb' 0 4).toNat = s.N.toNat - 12 * q := by
    rw [BitVec.extractLsb'_toNat, Nat.shiftRight_zero]
    omega
  obtain ⟨w0, w1, w2, he⟩ := tail_fresh (jobPath s.bufByte s.N.toNat) (s.N.toNat - 12 * q) t (by omega) (by omega) h.quiet
    (by omega) (by rw [h.limit]; omega)
  have hd := decodeDispatch_tail _ _ (by omega) t.dispatch h.phase h.path hgt hl4
  have hu := bytesAdded_quiet (jobPath s.bufByte s.N.toNat) (s.N.toNat - 12 * q) 5#3 w0 w1 w2 t h.quiet
  refine ⟨_, (run_exec 8 t _ _ h.quiet hd ((exec_tailInstr _ _ (by omega) (by omega) t).trans he)).trans
    (run_final _ hu rfl rfl), ?_⟩
  have hblocks : (s.N.toNat - 1) / 12 = q := by omega
  exact {
    digest := by
      rw [afterFinal_digest, bytesAdded_acc, h.bufByte, hcur, h.acc, lookup3, if_neg (by omega), hblocks]
    done := rfl
    idle := rfl
    phase := rfl
    stage := rfl
    path := by rw [afterFinal_path, bytesAdded_path, h.path]
    log := by
      rw [afterFinal_readLog, bytesAdded_readLog, h.log, h.cursor, jobRequests, if_neg (by omega), hblocks,
        List.append_assoc]
      rfl }

/-- The empty buffer: SEED, SELECT, the empty tail and EMIT, with no read (R230). -/
theorem empty_job_ends (s : State) (h : JobStart s) (h0 : s.N = 0#32) : ∃ t, core.run 4 s = .next t ∧ JobEnd s t := by
  refine ⟨{ withAcc (seedRef 0) s with
    L := 0#32, cur := 0#32, fw := 0#32, path := Path.code .W, digest := (seedRef 0).c ++ (seedRef 0).b,
    DONE := true, BUSY := false, ph := 0#3, st := 0#3 }, ?_, ?_⟩
  · obtain ⟨hp, hr, -, hi, -⟩ := h
    cases s
    subst hp hr hi h0
    rfl
  · have hN : s.N.toNat = 0 := by rw [h0]; rfl
    exact {
      digest := by rw [hN]; rfl
      done := rfl
      idle := rfl
      phase := rfl
      stage := rfl
      path := by rw [hN]; rfl
      log := by rw [hN]; exact (List.append_nil _).symm }

/-- A job that has just been started ends after `jobOps N` operations, with its digest, path and reads (R3, R93, R301). -/
theorem job_ends (s : State) (h : JobStart s) : ∃ t, core.run (jobOps s.N.toNat) s = .next t ∧ JobEnd s t := by
  by_cases h0 : s.N = 0#32
  · rw [h0]
    exact empty_job_ends s h h0
  · have hN : s.N.toNat ≠ 0 := fun e => h0 (BitVec.eq_of_toNat_eq e)
    let q := (s.N.toNat - 1) / 12
    obtain ⟨t, hrun, ht⟩ := job_adds_blocks s h q (by omega)
    obtain ⟨u, hu, hend⟩ := loop_exit s t q ht h.served (by omega) (by omega)
    have hops : jobOps s.N.toNat = 2 + 8 * q + 9 := by rw [jobOps, if_neg hN]; omega
    exact ⟨u, by rw [hops, run_add _ 9 s t hrun, hu], hend⟩

/-- Settles O51: SEED and SELECT, an induction on the blocks of the loop, and the tail's nine operations. -/
theorem aJobComputesTheLookup3Digest : Obligations.AJobComputesTheLookup3Digest := by
  intro s h
  obtain ⟨t, hrun, hend⟩ := job_ends s h
  exact ⟨t, hrun, hend.digest, hend.done, hend.idle, hend.phase, hend.stage⟩

end Sys2Proof.Laws
end

section
/-! PROOFS. The digest as a function of the buffer (R47, R282): the function the core computes looks at the first `N` bytes
alone. -/

namespace Sys2Proof.Laws

open Machine

section
variable {buf buf' : Nat → Byte}

theorem bytesLE_congr (off v : Nat) (h : ∀ i < v, buf (off + i) = buf' (off + i)) : bytesLE buf off v = bytesLE buf' off v := by
  induction v with
  | zero => rfl
  | succ v ih => rw [bytesLE, bytesLE, ih fun i hi => h i (by omega), h v (by omega)]

theorem bufWord_congr (off v : Nat) (h : ∀ i < v, buf (off + i) = buf' (off + i)) : bufWord buf off v = bufWord buf' off v := by
  rw [bufWord, bufWord, bytesLE_congr off v h]

theorem addBytes_congr (off n : Nat) (x : Acc) (h : ∀ i < n, buf (off + i) = buf' (off + i)) :
    addBytes buf off n x = addBytes buf' off n x := by
  have hw : ∀ k m, m ≤ n - k → bufWord buf (off + k) m = bufWord buf' (off + k) m := fun k m hk =>
    bufWord_congr (off + k) m fun i hi => by
      rw [Nat.add_assoc]
      exact h (k + i) (by omega)
  have h0 : bufWord buf off (min 4 n) = bufWord buf' off (min 4 n) := hw 0 _ (by omega)
  rw [addBytes, addBytes, h0, hw 4 _ (by omega), hw 8 _ (by omega)]

/-- The first `q` blocks are the first `12q` bytes. -/
theorem loopRef_congr (N q : Nat) (h : ∀ off < 12 * q, buf off = buf' off) : loopRef buf N q = loopRef buf' N q := by
  induction q with
  | zero => rfl
  | succ q ih =>
    rw [loopRef, loopRef, ih fun off ho => h off (by omega), addBytes_congr (12 * q) 12 _ fun i hi => h _ (by omega)]

/-- The digest of `N` bytes looks at those bytes alone (R47). -/
theorem lookup3_congr (N : Nat) (h : ∀ off < N, buf off = buf' off) : lookup3 buf N = lookup3 buf' N := by
  by_cases h0 : N = 0
  · rw [lookup3, lookup3, if_pos h0, if_pos h0]
  · have hl := loopRef_congr N ((N - 1) / 12) fun off ho => h off (by omega)
    have ht := addBytes_congr (12 * ((N - 1) / 12)) (N - 12 * ((N - 1) / 12)) (loopRef buf' N ((N - 1) / 12)) fun i hi =>
      h _ (by omega)
    simp only [lookup3, if_neg h0, hl, ht]

end

/-- Settles O54: each job ends with the digest of its own bytes, which are the same. -/
theorem digestDependsOnTheBufferAlone : Obligations.DigestDependsOnTheBufferAlone := by
  intro s u hs hu hN hb
  obtain ⟨t, ht, hst⟩ := job_ends s hs
  obtain ⟨v, hv, huv⟩ := job_ends u hu
  exact ⟨t, v, ht, hv, by rw [hst.digest, huv.digest, ← hN, lookup3_congr _ hb]⟩

end Sys2Proof.Laws
end

section
/-! PROOFS. Which operation each row of the dispatch selects (R92), and what the operations that read nothing do. -/

namespace Sys2Proof.Laws

open Machine

/-- The stages of Mix and Final that are followed by another operation of the same phase (R210 to R215, R221 to R226). -/
def isInnerStage (i : Instr) : Prop := i ∈ [.m1, .m2, .m3, .m4, .m5, .m6, .f1, .f2, .f3, .f4, .f5, .f6]

/-- The row of R92 a dispatch word lies in: the fields looked at, and the operation. -/
inductive DispatchRow (d : DispatchWord) : Instr → Prop
  | wait (hph : d.ph = 0#3) : DispatchRow d .wait
  | seed (hph : d.ph = 1#3) : DispatchRow d .seed
  | select (hph : d.ph = 2#3) : DispatchRow d .select
  | absorb (p : Path) (hph : d.ph = 3#3) (hp : d.path = p.code) (hg : d.gt12 = true) : DispatchRow d (absorbInstr p)
  | tail (p : Path) (n : Nat) (hph : d.ph = 3#3) (hp : d.path = p.code) (hg : d.gt12 = false) (hn : d.l4.toNat = n)
      (h12 : n ≤ 12) : DispatchRow d (tailInstr p n)
  | innerStage (i : Instr) (hph : d.ph = 4#3 ∨ d.ph = 5#3) (hi : isInnerStage i) : DispatchRow d i
  | adv (hph : d.ph = 4#3) : DispatchRow d .adv
  | f7 (hph : d.ph = 5#3) : DispatchRow d .f7
  | emit (hph : d.ph = 6#3) : DispatchRow d .emit

theorem decodeMix_rows (n : Nat) (i : Instr) (h : decodeMix n = .ok i) : isInnerStage i ∨ i = .adv := by
  unfold decodeMix at h
  split at h <;> cases h <;> simp [isInnerStage]

theorem decodeFinal_rows (n : Nat) (i : Instr) (h : decodeFinal n = .ok i) : isInnerStage i ∨ i = .f7 := by
  unfold decodeFinal at h
  split at h <;> cases h <;> simp [isInnerStage]

theorem decodeDispatch_row (d : DispatchWord) (i : Instr) (h : decodeDispatch d = .ok i) : DispatchRow d i := by
  have hph : ∀ n < 8, d.ph.toNat = n → d.ph = BitVec.ofNat 3 n := fun n hn e =>
    BitVec.eq_of_toNat_eq (by rw [e, BitVec.toNat_ofNat, Nat.mod_eq_of_lt hn])
  unfold decodeDispatch at h
  split at h
  case h_1 e => cases h; exact .wait (hph 0 (by decide) e)
  case h_2 e => cases h; exact .seed (hph 1 (by decide) e)
  case h_3 e => cases h; exact .select (hph 2 (by decide) e)
  case h_4 e =>
    obtain ⟨p, hp, ⟨hg, rfl⟩ | ⟨hg, hn, rfl⟩⟩ := decodeLoop_rows _ _ _ _ h
    · exact .absorb p (hph 3 (by decide) e) hp hg
    · exact .tail p _ (hph 3 (by decide) e) hp hg rfl hn
  case h_5 e =>
    obtain hi | rfl := decodeMix_rows _ _ h
    · exact .innerStage i (.inl (hph 4 (by decide) e)) hi
    · exact .adv (hph 4 (by decide) e)
  case h_6 e =>
    obtain hi | rfl := decodeFinal_rows _ _ h
    · exact .innerStage i (.inr (hph 5 (by decide) e)) hi
    · exact .f7 (hph 5 (by decide) e)
  case h_7 e => cases h; exact .emit (hph 6 (by decide) e)
  case h_8 => cases h

/-- An inner stage changes the accumulators and goes to another stage. -/
theorem exec_innerStage (i : Instr) (hi : isInnerStage i) (s : State) :
    ∃ a b c st, exec i s = .next { s with a := a, b := b, c := c, st := st } ∧ st ≠ 0#3 := by
  simp only [isInnerStage, List.mem_cons, List.not_mem_nil, or_false] at hi
  rcases hi with rfl | rfl | rfl | rfl | rfl | rfl | rfl | rfl | rfl | rfl | rfl | rfl <;>
    exact ⟨_, _, _, _, rfl, by decide⟩

/-- The last stage of Final leads to EMIT (R227). -/
theorem exec_f7 (s : State) : ∃ c, exec .f7 s = .next { s with c := c, ph := 6#3, st := 0#3 } := ⟨_, rfl⟩

theorem exec_tailInstr_zero (p : Path) (s : State) : exec (tailInstr p 0) s = .next { s with ph := 6#3, st := 0#3 } := by
  cases p <;> rfl

/-- A host read of a value that is specified only when `b` holds leaves it in `rdata` (R241 to R243). -/
theorem hostRead_next (b : Bool) (x y : Word) (s : State) :
    ∃ rdata draws, (if b then returnValue x s else returnFree y s) = .next { s with rdata := rdata, draws := draws } := by
  cases b <;> exact ⟨_, _, rfl⟩

/-- A host operation other than START changes at most `LEN` and what a host read returns (R236 to R243). -/
theorem exec_host (i : Instr) (hi : i.format = .host) (hne : i ≠ .start) (s : State) :
    ∃ LEN rdata draws, exec i s = .next { s with LEN := LEN, rdata := rdata, draws := draws } ∧
      ((∀ v, i ≠ .wrLen v) → LEN = s.LEN) := by
  cases i <;> cases hi
  case start => exact absurd rfl hne
  case wrLen v => exact ⟨_, _, _, rfl, fun h => absurd rfl (h v)⟩
  case wrNop | wrIgn | rdLen => exact ⟨_, _, _, rfl, fun _ => rfl⟩
  case rdCsr | rdDigestLo | rdDigestHi =>
    obtain ⟨rdata, draws, e⟩ := hostRead_next s.DONE _ _ s
    exact ⟨s.LEN, rdata, draws, e, fun _ => rfl⟩

/-- A reader operation is a request run alone. -/
theorem exec_rdreq (i : Instr) (hi : i.format = .rdreq) : ∃ r, ∀ s, exec i s = readAlone r s := by
  cases i <;> cases hi <;> exact ⟨_, fun _ => rfl⟩

/-- An ALU operation changes the ALU's result alone. -/
theorem exec_alu (i : Instr) (hi : i.format = .alu) (s : State) : ∃ x, exec i s = .next { s with aluOut := x } := by
  cases i <;> cases hi <;> exact ⟨_, rfl⟩

/-- Every operation of the sequencer stands in some row of the dispatch: the row of its own word. -/
theorem seq_dispatchRow (i : Instr) (h : i.format = .seq) : ∃ d, DispatchRow d i := by
  have hd : decodeSeq (BitVec.ofNat 13 (encode i)) = .ok i := by
    cases i <;> cases h <;> rfl
  exact ⟨_, decodeDispatch_row _ i hd⟩

end Sys2Proof.Laws
end

section
/-! PROOFS. The invariant under every step (R23, R27, R30, R34, R38, R68, R99): what the reader keeps of it, then the
operations that only move the sequencer, the operations that read, and the other agents. -/

namespace Sys2Proof.Laws

open Machine

/-! ## The reader's part -/

/-- What the invariant says of the reader, for an operation whose requests are `rs`. -/
structure ReaderInv (rs : List ReadReq) (s : State) : Prop where
  request : ∀ r, s.rq = some r → r.legal = true
  requests : ∀ r, r ∈ s.readLog → r.legal = true
  underway : Underway rs s
  alone : s.rq = none → s.rqAlone = false

/-- No answer is kept, and at most a request run alone is outstanding: the reader between two operations (R38). -/
structure NoneAsked (s : State) : Prop where
  answers : s.answers = []
  alone : ∀ r, s.rq = some r → s.rqAlone = true

/-- So any operation may begin, whatever else changes. -/
theorem NoneAsked.underway {s t : State} (h : NoneAsked s) (rs : List ReadReq) (ha : t.answers = s.answers)
    (hq : t.rq = s.rq) (hal : t.rqAlone = s.rqAlone) : Underway rs t where
  answered := by rw [ha, h.answers]; cases rs <;> trivial
  asked r hr hf := by rw [hal, h.alone r (hq ▸ hr)] at hf; cases hf

/-- Waiting for an answer keeps the reader's part: a request of the operation's own is answered as it asked. -/
theorem receive_readerInv {rs : List ReadReq} {s t : State} (h : ReaderInv rs s) (hr : receive s = some t) :
    ReaderInv rs t := by
  have hlog : ∀ r, s.rq = some r → ∀ q ∈ s.readLog ++ [r], q.legal = true := fun r hq q hmem => by
    rcases List.mem_append.1 hmem with hmem | hmem
    · exact h.requests q hmem
    · rw [List.mem_singleton.1 hmem]
      exact h.request r hq
  rcases receive_cases s with ⟨-, e⟩ | ⟨r, -, -, e⟩ | ⟨r, hq, -, -, e⟩ | ⟨r, hq, -, ha, e⟩ <;>
    rw [e] at hr <;> cases hr
  · exact h
  · exact ⟨nofun, hlog r hq, ⟨h.underway.answered, nofun⟩, fun _ => rfl⟩
  · refine ⟨nofun, hlog r hq, ⟨(answersFor_append _ _ _ _).2 ⟨h.underway.answered, ?_⟩, nofun⟩, fun _ => ha⟩
    obtain ⟨hlt, hget⟩ := List.getElem?_eq_some_iff.1 (h.underway.asked r hq ha)
    rw [List.drop_eq_getElem_cons hlt, hget]
    refine ⟨answerLanes_isAnswerTo s _ r (legal_sized r (h.request r hq)), ?_⟩
    cases rs.drop (s.answers.length + 1) <;> trivial

/-- All that the reads of the operation under way can do: the core waits in it, or it has all its answers. -/
theorem readAll_readerInv {rs : List ReadReq} {s : State} (h : ReaderInv rs s) (hl : ∀ r ∈ rs, r.legal = true) :
    (∃ t, readAll rs s = .waiting t ∧ readerOnly s t ∧ ReaderInv rs t) ∨
    (∃ ls t, readAll rs s = .answered ls t ∧ readerOnly s t ∧ complete s.bufByte rs ls ∧ ReaderInv rs t ∧
      NoneAsked t) := by
  cases hr : receive s with
  | none => exact .inl ⟨s, by simp only [readAll, hr], rfl, h⟩
  | some u =>
    have hu := receive_readerInv h hr
    have hf := receive_frame s u hr
    obtain ⟨hnone, hagain⟩ := receive_again s u hr
    have hsame : readAll rs s = readAll rs u := by simp only [readAll, hr, hagain]
    have hlog : ∀ qs, qs ⊆ rs → ∀ q ∈ u.readLog ++ qs, q.legal = true := fun qs hqs q hmem =>
      (List.mem_append.1 hmem).elim (hu.requests q) fun hq => hl q (hqs hq)
    have hsub : rs.drop u.answers.length ⊆ rs := List.drop_subset _ _
    have hbuf : u.bufByte = s.bufByte := by rw [hf]; rfl
    rcases readAll_underway rs u hu.underway (hu.alone hnone) fun r hm => legal_sized r (hl r hm) with
      ⟨-, ls, hc, e⟩ | ⟨pre, r, post, hd, -, -, e, hw⟩
    · have hn : NoneAsked { u with
          rq := none, answers := [], readLog := u.readLog ++ rs.drop u.answers.length,
          draws := u.draws + (rs.drop u.answers.length).length } := ⟨rfl, nofun⟩
      refine .inr ⟨ls, _, hsame.trans e, ?_, hbuf ▸ hc,
        ⟨nofun, hlog _ hsub, hn.underway rs rfl rfl rfl, fun _ => hu.alone hnone⟩, hn⟩
      rw [readerOnly, hf]
    · rw [hd] at hsub
      refine .inl ⟨_, hsame.trans e, by rw [readerOnly, hf, waitingAt], ?_⟩
      refine ⟨fun q hq => ?_, hlog pre fun q hq => hsub (by simp [hq]), hw, nofun⟩
      cases hq
      exact hl r (hsub (by simp))

/-- A legal request run alone keeps the reader's part of whatever operation the sequencer is in. -/
theorem readAlone_readerInv {rs : List ReadReq} {r : ReadReq} {s t : State} (h : ReaderInv rs s) (hl : r.legal = true)
    (he : readAlone r s = .next t) : ReaderInv rs t := by
  rcases readAlone_cases r s with ⟨-, e⟩ | ⟨u, hu, ⟨-, -, e⟩ | ⟨-, e⟩⟩ <;> rw [e] at he <;> cases he
  · exact h
  · exact receive_readerInv h hu
  · have hi : ReaderInv rs (issueRead true r u) := by
      obtain ⟨-, hreqs, ⟨hans, -⟩, -⟩ := receive_readerInv h hu
      exact ⟨fun q hq => by cases hq; exact hl, hreqs, ⟨hans, nofun⟩, nofun⟩
    unfold requestAlone
    cases hr : receive (issueRead true r u) with
    | none => exact hi
    | some v => exact receive_readerInv hi hr

/-! ## The requests of a position -/

theorem inv_readerInv {s : State} (h : Inv s) : ReaderInv (positionReads s) s :=
  ⟨h.request, h.requests, h.underway, h.alone⟩

/-- At a position that reads nothing, none is begun. -/
theorem inv_noneAsked {s : State} (h : Inv s) (hp : positionReads s = []) : NoneAsked s := by
  obtain ⟨hans, hask⟩ := h.underway
  rw [hp] at hans hask
  refine ⟨?_, fun r hq => by_contra fun ha => ?_⟩
  · cases ha : s.answers with
    | nil => rfl
    | cons l ls => rw [ha] at hans; exact hans.elim
  · have := hask r hq (by simpa using ha)
    simp at this

theorem positionReads_select {s : State} (hph : s.ph = 2#3) (h0 : s.N ≠ 0#32) :
    positionReads s = [rd32Req 0#32 (selectCount s.N)] := by
  rw [positionReads, if_pos hph, if_neg h0]
  rfl

theorem positionReads_loop {s : State} (p : Path) (hph : s.ph = 3#3) (hp : s.path = p.code) :
    positionReads s = blockReads p s.cur (min s.L.toNat 12) := by
  have hpath : pathOf p.code = p := by cases p <;> rfl
  rw [positionReads, if_neg (by rw [hph]; decide), if_pos hph, hp, hpath]

theorem positionReads_other {s : State} (h2 : s.ph ≠ 2#3) (h3 : s.ph ≠ 3#3) : positionReads s = [] := by
  rw [positionReads, if_neg h2, if_neg h3]

/-- Every request of a position is one R96 allows and lies inside the buffer (R63, R64). -/
theorem positionReads_bounds {s : State} (h : Inv s) (r : ReadReq) (hr : r ∈ positionReads s) :
    r.legal = true ∧ r.off.toNat + r.v.toNat ≤ s.N.toNat := by
  have hN := s.N.isLt
  by_cases h2 : s.ph = 2#3
  · by_cases h0 : s.N = 0#32
    · simp [positionReads, h2, h0] at hr
    · have hN0 : s.N.toNat ≠ 0 := fun e => h0 (BitVec.eq_of_toNat_eq e)
      have hv : (BitVec.ofNat 3 (min s.N.toNat 4)).toNat = min s.N.toNat 4 := by rw [BitVec.toNat_ofNat]; omega
      rw [positionReads_select h2 h0, List.mem_singleton] at hr
      subst hr
      simp [rd32Req, selectCount, ReadReq.legal, ReadReq.bytes, hv]
      omega
  · by_cases h3 : s.ph = 3#3
    · obtain ⟨hsum, h12⟩ := h.progress (.inl h3)
      rw [positionReads, if_neg h2, if_pos h3] at hr
      obtain ⟨-, hend, hlegal, -⟩ := blockReads_bounds _ s.cur (min s.L.toNat 12) (by omega) r hr
      exact ⟨hlegal (by omega), by omega⟩
    · rw [positionReads_other h2 h3] at hr
      cases hr

/-! ## States that differ from one with the invariant in a few fields -/

/-- The reader's fields replaced, the reader's part kept. -/
theorem inv_of_readerOnly {s t : State} (h : Inv s) (hr : ¬s.rst = true) (ht : readerOnly s t)
    (hi : ReaderInv (positionReads s) t) : Inv t := by
  unfold readerOnly at ht
  generalize t.rq = rq, t.rqAlone = al, t.answers = an, t.readData = rd, t.readLog = lg, t.draws = dr at ht
  subst ht
  exact { h with
    held := fun hrst => absurd hrst hr
    request := hi.request
    requests := hi.requests
    underway := hi.underway
    alone := hi.alone }

/-- The ports, the inputs to come, what the platform answers and, out of reset, `LEN` are no part of the invariant. -/
theorem inv_of_ports {s : State} (h : Inv s) (LEN rdata aluX aluY aluOut : Word) (draws served : Nat) (agenda : List Event)
    (hLEN : s.rst = true → LEN = 0#32) :
    Inv { s with
      LEN := LEN, rdata := rdata, aluX := aluX, aluY := aluY, aluOut := aluOut, draws := draws, served := served,
      agenda := agenda } :=
  { h with
    held := fun hrst =>
      have ⟨hph, hdone, _, hrq⟩ := h.held hrst
      ⟨hph, hdone, hLEN hrst, hrq⟩
    underway := ⟨h.underway.answered, h.underway.asked⟩ }

/-- Between two operations of a job past SELECT, the sequencer may go to another position past SELECT, if `L` allows it
there; the accumulators and the words added are no part of the invariant. -/
theorem inv_of_move {s : State} (h : Inv s) (hn : NoneAsked s) (hr : ¬s.rst = true) (hp : pastSelect s.ph)
    (a b c w0 w1 w2 : Word) (ph st : BitVec 3) (hpos : legalPosition ph st) (hpast : pastSelect ph)
    (hmix : ph = 4#3 → 12 < s.L.toNat) (hfinal : ph = 5#3 → 1 ≤ s.L.toNat ∧ s.L.toNat ≤ 12)
    (hemit : ph = 6#3 → s.L.toNat ≤ 12) :
    Inv { s with a := a, b := b, c := c, w0 := w0, w1 := w1, w2 := w2, ph := ph, st := st } := by
  have h0 : ∀ x : BitVec 3, pastSelect x → x ≠ 0#3 ∧ x ≠ 2#3 := by unfold pastSelect; decide
  exact { h with
    position := hpos
    busy := ⟨fun _ => (h0 ph hpast).1, fun _ => h.busy.2 (h0 s.ph hp).1⟩
    pathChosen := fun _ => h.pathChosen (.inl hp)
    seeded := fun e => absurd e (h0 ph hpast).2
    progress := fun _ => h.progress hp
    leftOver := fun _ => h.leftOver hp
    inMix := hmix
    inFinal := hfinal
    inEmit := hemit
    held := fun hrst => absurd hrst hr
    underway := hn.underway _ rfl rfl rfl }

/-- In a job and between two operations, the sequencer may go to LOOP with the path chosen, where `cur` and `L` share the
`N` bytes (R27). -/
theorem inv_of_loop {s : State} (h : Inv s) (hn : NoneAsked s) (hr : ¬s.rst = true) (hph : s.ph ≠ 0#3) (L cur fw : Word)
    (path : BitVec 2) (st : BitVec 3) (hst : st = 0#3) (hpath : path = pathOfBits (fw.extractLsb' 0 2))
    (hsum : cur.toNat + L.toNat = s.N.toNat) (h12 : cur.toNat % 12 = 0) (hleft : L = 0#32 → s.N = 0#32) :
    Inv { s with L := L, cur := cur, fw := fw, path := path, ph := 3#3, st := st } := by
  subst hst
  exact { h with
    position := (show legalPosition 3#3 0#3 by unfold legalPosition; decide)
    busy := ⟨fun _ => (show 3#3 ≠ 0#3 by decide), fun _ => h.busy.2 hph⟩
    pathChosen := fun _ => hpath
    seeded := nofun
    progress := fun _ => ⟨hsum, h12⟩
    leftOver := fun _ => hleft
    inMix := nofun
    inFinal := nofun
    inEmit := nofun
    held := fun hrst => absurd hrst hr
    underway := hn.underway _ rfl rfl rfl }

/-- Between two operations the sequencer may go to a phase before LOOP: a job begins or ends, or has been seeded. -/
theorem inv_of_outside {s : State} (h : Inv s) (hn : NoneAsked s) (hr : ¬s.rst = true) (a b c N L cur : Word)
    (ph st : BitVec 3) (digest : Digest) (BUSY DONE : Bool) (hph : ph = 0#3 ∨ ph = 1#3 ∨ ph = 2#3) (hst : st = 0#3)
    (hbusy : BUSY = true ↔ ph ≠ 0#3) (hstatus : ¬(BUSY = true ∧ DONE = true))
    (hpath : DONE = true → s.path = pathOfBits (s.fw.extractLsb' 0 2)) (hseed : ph = 2#3 → cur = 0#32 ∧ L = N) :
    Inv { s with
      a := a, b := b, c := c, N := N, L := L, cur := cur, ph := ph, st := st, digest := digest, BUSY := BUSY,
      DONE := DONE } := by
  subst hst
  obtain ⟨hpos, hpast, h4, h5, h6⟩ :
      legalPosition ph 0#3 ∧ ¬pastSelect ph ∧ ph ≠ 4#3 ∧ ph ≠ 5#3 ∧ ph ≠ 6#3 := by
    unfold legalPosition pastSelect
    rcases hph with rfl | rfl | rfl <;> decide
  exact { h with
    position := hpos
    busy := hbusy
    status := hstatus
    pathChosen := fun hor => hpath (hor.resolve_left hpast)
    seeded := hseed
    progress := fun e => absurd e hpast
    leftOver := fun e => absurd e hpast
    inMix := fun e => absurd e h4
    inFinal := fun e => absurd e h5
    inEmit := fun e => absurd e h6
    held := fun hrst => absurd hrst hr
    underway := hn.underway _ rfl rfl rfl }

/-! ## The sequencer's operations -/

section
variable {s : State} (h : Inv s) (hr : ¬s.rst = true)
include h hr

/-- All that the reads of the position can do: the core waits in the operation, or it has all its answers and no read is
begun any more; the invariant holds either way. -/
theorem inv_readAll :
    (∃ t, readAll (positionReads s) s = .waiting t ∧ Inv t) ∨
    (∃ ls t, readAll (positionReads s) s = .answered ls t ∧ readerOnly s t ∧
      complete s.bufByte (positionReads s) ls ∧ Inv t ∧ NoneAsked t) := by
  rcases readAll_readerInv (inv_readerInv h) fun r hm => (positionReads_bounds h r hm).1 with
    ⟨t, e, ht, hi⟩ | ⟨ls, t, e, ht, hc, hi, hn⟩
  · exact .inl ⟨t, e, inv_of_readerOnly h hr ht hi⟩
  · exact .inr ⟨ls, t, e, ht, hc, inv_of_readerOnly h hr ht hi, hn⟩

theorem inv_exec_seed (hph : s.ph = 1#3) : ∃ t, exec .seed s = .next t ∧ Inv t := by
  have hn := inv_noneAsked h (positionReads_other (by rw [hph]; decide) (by rw [hph]; decide))
  have hbusy : s.BUSY = true := h.busy.2 (by rw [hph]; decide)
  exact ⟨_, rfl, inv_of_outside h hn hr _ _ _ s.N s.N 0#32 2#3 0#3 s.digest s.BUSY s.DONE (.inr (.inr rfl)) rfl
    ⟨fun _ => by decide, fun _ => hbusy⟩ h.status (fun hd => h.pathChosen (.inr hd)) fun _ => ⟨rfl, rfl⟩⟩

/-- After SEED nothing has been added (R140), so SELECT leads to LOOP with the whole buffer left. -/
theorem inv_of_selected (hn : NoneAsked s) (hph : s.ph = 2#3) (fw : Word) (path : BitVec 2)
    (hp : path = pathOfBits (fw.extractLsb' 0 2)) : Inv { s with fw := fw, path := path, ph := 3#3 } := by
  obtain ⟨hcur, hL⟩ := h.seeded hph
  exact inv_of_loop h hn hr (by rw [hph]; decide) s.L s.cur fw path s.st (h.position.2.2 (by rw [hph]; decide)) hp
    (by rw [hcur, hL]; simp) (by rw [hcur]; rfl) fun e => hL.symm.trans e

theorem inv_exec_select (hph : s.ph = 2#3) : ∃ t, exec .select s = .next t ∧ Inv t := by
  by_cases h0 : s.N = 0#32
  · have hn := inv_noneAsked h (by rw [positionReads, if_pos hph, if_pos h0])
    exact ⟨_, if_pos h0, inv_of_selected h hr hn hph 0#32 (Path.code .W) (by decide)⟩
  · show ∃ t, execSelect s = .next t ∧ Inv t
    rw [execSelect, if_neg h0, ← positionReads_select hph h0]
    rcases inv_readAll h hr with ⟨t, e, hIt⟩ | ⟨ls, t, e, ht, hc, hIt, hn⟩ <;> rw [e]
    · exact ⟨t, rfl, hIt⟩
    · unfold readerOnly at ht
      refine ⟨_, rfl, inv_of_selected hIt (by rw [ht]; exact hr) hn (by rw [ht]; exact hph) _ _ ?_⟩
      rw [positionReads_select hph h0] at hc
      match ls, hc.2 with
      | [l], _ => exact (choosePath_code l.l0).trans (congrArg pathOfBits (lanes_word_low l).symm)

omit h in
/-- Words added once the answers are there: the sequencer goes to a stage of MIX or FINAL, if `L` allows it there. -/
theorem inv_of_added {t : State} (hph : s.ph = 3#3) (ht : readerOnly s t) (hIt : Inv t) (hn : NoneAsked t)
    (ws : List BlockWord) (ph : BitVec 3) (hpos : legalPosition ph 1#3) (hpast : pastSelect ph)
    (hmix : ph = 4#3 → 12 < s.L.toNat) (hfinal : ph = 5#3 → 1 ≤ s.L.toNat ∧ s.L.toNat ≤ 12)
    (hemit : ph = 6#3 → s.L.toNat ≤ 12) : Inv { addWords ws t with ph := ph, st := 1#3 } := by
  unfold readerOnly at ht
  have hL : t.L = s.L := by rw [ht]
  rw [← hL] at hmix hfinal hemit
  rw [addWords_frame]
  exact inv_of_move hIt hn (by rw [ht]; exact hr) (.inl (by rw [ht]; exact hph)) _ _ _ _ _ _ ph 1#3 hpos hpast hmix hfinal
    hemit

theorem inv_exec_absorb (p : Path) (hph : s.ph = 3#3) (hp : s.path = p.code) (hL : 12 < s.L.toNat) :
    ∃ t, exec (absorbInstr p) s = .next t ∧ Inv t := by
  have hreads : readsOf p (blockWords s.cur) = positionReads s := by
    rw [readsOf_block, positionReads_loop p hph hp, Nat.min_eq_right (by omega)]
  rw [exec_absorbInstr, absorb, hreads]
  rcases inv_readAll h hr with ⟨t, e, hIt⟩ | ⟨ls, t, e, ht, -, hIt, hn⟩ <;> rw [e]
  · exact ⟨t, rfl, hIt⟩
  · exact ⟨_, rfl, inv_of_added hr hph ht hIt hn _ 4#3 (by unfold legalPosition; decide) (by unfold pastSelect; decide)
      (fun _ => hL) nofun nofun⟩

theorem inv_exec_tail (p : Path) (hph : s.ph = 3#3) (hp : s.path = p.code) (hL : s.L.toNat ≤ 12) :
    ∃ t, exec (tailInstr p s.L.toNat) s = .next t ∧ Inv t := by
  have hreads := positionReads_loop p hph hp
  rw [Nat.min_eq_left hL] at hreads
  by_cases h0 : s.L.toNat = 0
  · have hn := inv_noneAsked h (by rw [hreads, h0]; cases p <;> rfl)
    rw [h0, exec_tailInstr_zero]
    exact ⟨_, rfl, inv_of_move h hn hr (.inl hph) _ _ _ _ _ _ 6#3 0#3 (by unfold legalPosition; decide)
      (by unfold pastSelect; decide) nofun nofun fun _ => hL⟩
  · rw [exec_tailInstr p _ (by omega) hL, tail, readsOf_tail p s.cur _ (by omega) hL, ← hreads]
    rcases inv_readAll h hr with ⟨t, e, hIt⟩ | ⟨ls, t, e, ht, -, hIt, hn⟩ <;> rw [e]
    · exact ⟨t, rfl, hIt⟩
    · exact ⟨_, rfl, inv_of_added hr hph ht hIt hn _ 5#3 (by unfold legalPosition; decide) (by unfold pastSelect; decide)
        nofun (fun _ => ⟨by omega, hL⟩) nofun⟩

theorem inv_exec_innerStage (i : Instr) (hph : s.ph = 4#3 ∨ s.ph = 5#3) (hi : isInnerStage i) :
    ∃ t, exec i s = .next t ∧ Inv t := by
  have hp : pastSelect s.ph ∧ s.ph ≠ 2#3 ∧ s.ph ≠ 3#3 := by
    unfold pastSelect
    rcases hph with e | e <;> rw [e] <;> decide
  have hn := inv_noneAsked h (positionReads_other hp.2.1 hp.2.2)
  obtain ⟨a, b, c, st, he, hst⟩ := exec_innerStage i hi s
  exact ⟨_, he, inv_of_move h hn hr hp.1 a b c s.w0 s.w1 s.w2 s.ph st
    ⟨h.position.1, fun _ => hst, fun hne => absurd hph (not_or.2 hne)⟩ hp.1 h.inMix h.inFinal h.inEmit⟩

theorem inv_exec_f7 (hph : s.ph = 5#3) : ∃ t, exec .f7 s = .next t ∧ Inv t := by
  have hn := inv_noneAsked h (positionReads_other (by rw [hph]; decide) (by rw [hph]; decide))
  obtain ⟨c, he⟩ := exec_f7 s
  exact ⟨_, he, inv_of_move h hn hr (.inr (.inr (.inl hph))) _ _ c _ _ _ 6#3 0#3 (by unfold legalPosition; decide)
    (by unfold pastSelect; decide) nofun nofun fun _ => (h.inFinal hph).2⟩

/-- More than 12 bytes are left in MIX, so ADV does not wrap and leaves a byte (R27, R216). -/
theorem inv_exec_adv (hph : s.ph = 4#3) : ∃ t, exec .adv s = .next t ∧ Inv t := by
  have hn := inv_noneAsked h (positionReads_other (by rw [hph]; decide) (by rw [hph]; decide))
  have hmix := h.inMix hph
  have hN := s.N.isLt
  obtain ⟨hsum, h12⟩ := h.progress (.inr (.inl hph))
  have hL : (s.L - Config.block).toNat = s.L.toNat - 12 := by unfold Config.block; bv_omega
  have hcur : (s.cur + Config.block).toNat = s.cur.toNat + 12 := by unfold Config.block; bv_omega
  refine ⟨_, rfl, inv_of_loop h hn hr (by rw [hph]; decide) _ _ s.fw s.path 0#3 rfl
    (h.pathChosen (.inl (.inr (.inl hph)))) (by omega) (by omega) fun e => ?_⟩
  rw [e] at hL
  have : (0#32).toNat = 0 := rfl
  omega

theorem inv_exec_emit (hph : s.ph = 6#3) : ∃ t, exec .emit s = .next t ∧ Inv t := by
  have hn := inv_noneAsked h (positionReads_other (by rw [hph]; decide) (by rw [hph]; decide))
  exact ⟨_, rfl, inv_of_outside h hn hr s.a s.b s.c s.N s.L s.cur 0#3 0#3 (s.c ++ s.b) false true (.inl rfl) rfl
    ⟨nofun, fun e => absurd rfl e⟩ nofun (fun _ => h.pathChosen (.inl (.inr (.inr (.inr hph))))) nofun⟩

end

/-- What the dispatch word says of `L` where the row looks at it: all of it (R91). -/
theorem dispatch_L (s : State) : (s.dispatch.gt12 = true → 12 < s.L.toNat) ∧
    (s.dispatch.gt12 = false → s.dispatch.l4.toNat = s.L.toNat) := by
  have hg : s.dispatch.gt12 = decide (12 < s.L.toNat) := rfl
  refine ⟨fun ht => of_decide_eq_true (hg ▸ ht), fun hf => ?_⟩
  have hle : ¬12 < s.L.toNat := of_decide_eq_false (hg ▸ hf)
  show (s.L.extractLsb' 0 4).toNat = _
  rw [BitVec.extractLsb'_toNat, Nat.shiftRight_zero]
  omega

theorem inv_runSequencer {s t : State} (h : Inv s) (he : runSequencer s = .next t) : Inv t := by
  unfold runSequencer at he
  split at he
  next => cases he; exact h
  next hr =>
    split at he
    next i hd =>
      have hstep : ∃ u, exec i s = .next u ∧ Inv u := by
        obtain ⟨hgt, hl4⟩ := dispatch_L s
        cases decodeDispatch_row _ i hd with
        | wait => exact ⟨s, rfl, h⟩
        | seed hph => exact inv_exec_seed h hr hph
        | select hph => exact inv_exec_select h hr hph
        | absorb p hph hp hg => exact inv_exec_absorb h hr p hph hp (hgt hg)
        | tail p n hph hp hg hn h12 =>
          obtain rfl := (hl4 hg).symm.trans hn
          exact inv_exec_tail h hr p hph hp h12
        | innerStage _ hph hi => exact inv_exec_innerStage h hr i hph hi
        | adv hph => exact inv_exec_adv h hr hph
        | f7 hph => exact inv_exec_f7 h hr hph
        | emit hph => exact inv_exec_emit h hr hph
      obtain ⟨u, hu, hInv⟩ := hstep
      rw [hu] at he
      cases he
      exact hInv
    next => cases he

/-! ## The other agents -/

theorem inv_exec_start {s t : State} (h : Inv s) (hr : ¬s.rst = true) (he : exec .start s = .next t) : Inv t := by
  change execStart s = .next t at he
  unfold execStart at he
  split at he
  next => cases he; exact h
  next hbusy =>
    cases he
    have hph : s.ph = 0#3 := by_contra fun e => hbusy (h.busy.2 e)
    have hn := inv_noneAsked h (positionReads_other (by rw [hph]; decide) (by rw [hph]; decide))
    exact inv_of_outside h hn hr s.a s.b s.c s.LEN s.L s.cur 1#3 s.st s.digest true false (.inr (.inl rfl))
      (h.position.2.2 (by rw [hph]; decide)) ⟨fun _ => by decide, fun _ => rfl⟩ nofun nofun nofun

theorem inv_runHost {s t : State} (hw : BitVec 35) (h : Inv s) (he : runHost hw s = .next t) : Inv t := by
  unfold runHost at he
  split at he
  next =>
    unfold hostDuringReset at he
    split at he <;> cases he
    · exact h
    · exact inv_of_ports h _ _ _ _ _ _ _ _ fun hrst => (h.held hrst).2.2.1
  next hr =>
    have hf := decodeHost_format hw
    generalize decodeHost hw = i at he hf
    by_cases hi : i = .start
    · subst hi
      exact inv_exec_start h hr he
    · obtain ⟨LEN, rdata, draws, e, -⟩ := exec_host i hf hi s
      rw [e] at he
      cases he
      exact inv_of_ports h _ _ _ _ _ _ _ _ fun hrst => absurd hrst hr

theorem inv_runRead {s t : State} (rr : BitVec 37) (h : Inv s) (he : runRead rr s = .next t) : Inv t := by
  unfold runRead at he
  split at he
  next => cases he; exact h
  next hr =>
    split at he
    next i hd =>
      obtain ⟨hl, hexec⟩ := decodeRead_exec rr i hd
      rw [hexec] at he
      exact inv_of_readerOnly h hr (readAlone_frame _ s t he) (readAlone_readerInv (inv_readerInv h) hl he)
    next => cases he

theorem inv_runAlu {s t : State} (aw : BitVec 8) (x y : Word) (h : Inv s) (he : runAlu aw x y s = .next t) : Inv t := by
  unfold runAlu at he
  split at he
  next => cases he; exact h
  next =>
    split at he
    next i hd =>
      obtain ⟨z, e⟩ := exec_alu i (decodeAlu_format aw i hd) { s with aluX := x, aluY := y }
      rw [e] at he
      cases he
      exact inv_of_ports h _ _ _ _ _ _ _ _ fun hrst => (h.held hrst).2.2.1
    next => cases he

/-- Reset leaves the control state clear, whatever the registers hold (R280). -/
theorem inv_assertReset {s : State} (h : Inv s) : Inv (assertReset s) :=
  have hpast : ¬pastSelect 0#3 := by unfold pastSelect; decide
  have hn : NoneAsked (assertReset s) := ⟨rfl, nofun⟩
  { memory := h.memory
    position := (show legalPosition 0#3 0#3 by unfold legalPosition; decide)
    busy := ⟨nofun, fun e => absurd rfl e⟩
    status := nofun
    pathChosen := fun hor => absurd hor (not_or.2 ⟨hpast, nofun⟩)
    seeded := nofun
    progress := fun e => absurd e hpast
    leftOver := fun e => absurd e hpast
    inMix := nofun
    inFinal := nofun
    inEmit := nofun
    held := fun _ => ⟨rfl, rfl, rfl, rfl⟩
    request := nofun
    requests := h.requests
    underway := hn.underway _ rfl rfl rfl
    alone := fun _ => rfl }

theorem inv_releaseReset {s : State} (h : Inv s) : Inv (releaseReset s) :=
  { h with held := nofun, underway := ⟨h.underway.answered, h.underway.asked⟩ }

/-- The host's writes leave the bytes of a running job alone (R61), so the answers kept stay the buffer's. -/
theorem inv_writeBuffer {s t : State} (off : Word) (v : Byte) (h : Inv s) (he : writeBuffer off v s = .next t) : Inv t := by
  have ht := writeBuffer_next off v s t he
  subst ht
  have hkept : s.BUSY = true → ∀ o < s.N.toNat,
      State.bufByte { s with mem := Memory.write s.mem off.toNat v } o = s.bufByte o := by
    intro hbusy o ho
    unfold State.bufByte
    by_cases hoff : o = off.toNat
    · subst hoff
      have hsame : Memory.read s.mem off.toNat = some v := by_contra fun hne => by
        simp [writeBuffer, hbusy, ho, hne] at he
      rw [hsame, memory_read_write_same]
    · rw [memory_read_write_other _ _ _ _ hoff]
  have hunder : Underway (positionReads s) { s with mem := Memory.write s.mem off.toNat v } := by
    by_cases hph : s.ph = 0#3
    · have hn := inv_noneAsked h (positionReads_other (by rw [hph]; decide) (by rw [hph]; decide))
      exact hn.underway _ rfl rfl rfl
    · refine ⟨answersFor_congr s.bufByte _ _ _ (fun r hr i hi => hkept (h.busy.2 hph) _ ?_) h.underway.answered,
        h.underway.asked⟩
      have := (positionReads_bounds h r hr).2
      omega
  exact { h with memory := memory_write_wf s.mem off.toNat v off.isLt h.memory, underway := hunder }

theorem inv_runEvent {s t : State} (e : Event) (h : Inv s) (he : runEvent e s = .next t) : Inv t := by
  cases e with
  | sequencer => exact inv_runSequencer h he
  | host hw => exact inv_runHost hw h he
  | read rr => exact inv_runRead rr h he
  | alu aw x y => exact inv_runAlu aw x y h he
  | assertReset => cases he; exact inv_assertReset h
  | releaseReset => cases he; exact inv_releaseReset h
  | writeBuffer off v => exact inv_writeBuffer off v h he
  | serve n => cases he; exact inv_of_ports h _ _ _ _ _ _ _ _ fun hrst => (h.held hrst).2.2.1

/-- Settles O48: the sequencer moves, or the next input is taken from the agenda, which is no part of the invariant. -/
theorem everyStepKeepsTheInvariant : Obligations.EveryStepKeepsTheInvariant := by
  intro s t h he
  unfold step runStep at he
  split at he
  next => exact inv_runSequencer h he
  next e rest _ =>
    exact inv_runEvent e (inv_of_ports h s.LEN s.rdata s.aluX s.aluY s.aluOut s.draws s.served rest
      fun hrst => (h.held hrst).2.2.1) he

end Sys2Proof.Laws
end

section
/-! PROOFS. Which registers an operation writes (R20, column "written by"): the next state of each kind of operation is known
field by field, and then each clause is an identity or excludes that kind. -/

namespace Sys2Proof.Laws

open Machine

/-- What the state table says of a step of operation `i` from `s` to `t`, register by register (R20). -/
structure WritesListed (i : Instr) (s t : State) : Prop where
  acc : i ≠ .seed → ¬addsWords i → ¬isStage i → t.acc = s.acc
  N : i ≠ .start → t.N = s.N
  left : i ≠ .seed → i ≠ .adv → t.L = s.L ∧ t.cur = s.cur
  path : i ≠ .select → t.path = s.path ∧ t.fw = s.fw
  words : ¬addsWords i → t.w0 = s.w0 ∧ t.w1 = s.w1 ∧ t.w2 = s.w2
  phase : i.format ≠ .seq → i ≠ .start → t.ph = s.ph
  stage : ¬addsWords i → ¬isStage i → i ≠ .adv → i ∉ [.tailW0, .tailH0, .tailB0] →
    t.st = s.st ∨ ((i = .seed ∨ i = .emit) ∧ t.st = 0#3)
  digest : i ≠ .emit → t.digest = s.digest
  status : i ≠ .emit → i ≠ .start → t.BUSY = s.BUSY ∧ t.DONE = s.DONE
  len : (∀ v, i ≠ .wrLen v) → t.LEN = s.LEN
  reader : ¬usesReader i → t.rq = s.rq ∧ t.rqAlone = s.rqAlone ∧ t.answers = s.answers ∧ t.readLog = s.readLog

theorem isStage_of_isInnerStage (i : Instr) (h : isInnerStage i) : isStage i := by
  simp only [isInnerStage, List.mem_cons, List.not_mem_nil, or_false] at h
  simp only [isStage, List.mem_cons, List.not_mem_nil, or_false]
  tauto

/-- An operation that adds words writes those, the accumulators, the position and the reader's fields. -/
theorem writesListed_addsWords (i : Instr) (hi : addsWords i) (s t : State) (h : exec i s = .next t) :
    WritesListed i s t := by
  obtain ⟨hf, hframe⟩ : i.format = .seq ∧ t = { s with
      a := t.a, b := t.b, c := t.c, w0 := t.w0, w1 := t.w1, w2 := t.w2, ph := t.ph, st := t.st, rq := t.rq,
      rqAlone := t.rqAlone, answers := t.answers, readData := t.readData, readLog := t.readLog, draws := t.draws } := by
    obtain ⟨p, rfl | ⟨n, h1, h12, rfl⟩⟩ := hi
    · exact ⟨by cases p <;> rfl, absorb_frame p s t ((exec_absorbInstr p s).symm.trans h)⟩
    · exact ⟨by interval_cases n <;> cases p <;> rfl, tail_frame p n s t ((exec_tailInstr p n h1 h12 s).symm.trans h)⟩
  generalize t.a = a, t.b = b, t.c = c, t.w0 = w0, t.w1 = w1, t.w2 = w2, t.ph = ph, t.st = st, t.rq = rq, t.rqAlone = al,
    t.answers = an, t.readData = rd, t.readLog = lg, t.draws = dr at hframe
  subst hframe
  exact {
    acc := fun _ hn => absurd hi hn
    N := fun _ => rfl
    left := fun _ _ => ⟨rfl, rfl⟩
    path := fun _ => ⟨rfl, rfl⟩
    words := fun hn => absurd hi hn
    phase := fun hn => absurd hf hn
    stage := fun hn => absurd hi hn
    digest := fun _ => rfl
    status := fun _ _ => ⟨rfl, rfl⟩
    len := fun _ => rfl
    reader := fun hn => absurd (.inr (.inl hi)) hn }

/-- A reader operation that writes only what reads write, that is a request run alone. -/
theorem writesListed_of_readerOnly (i : Instr) (hi : usesReader i) (s t : State) (h : readerOnly s t) :
    WritesListed i s t := by
  unfold readerOnly at h
  generalize t.rq = rq, t.rqAlone = al, t.answers = an, t.readData = rd, t.readLog = lg, t.draws = dr at h
  subst h
  constructor <;> simp [State.acc, hi]

theorem writesListed_select (s t : State) (h : exec .select s = .next t) : WritesListed .select s t := by
  have hframe := execSelect_frame s t h
  generalize t.fw = fw, t.path = path, t.ph = ph, t.rq = rq, t.rqAlone = al, t.answers = an, t.readData = rd,
    t.readLog = lg, t.draws = dr at hframe
  subst hframe
  constructor <;> simp [State.acc, usesReader, Instr.format]

theorem writesListed_stage (i : Instr) (hi : isStage i) (s t : State) (h : exec i s = .next t) :
    WritesListed i s t := by
  obtain ⟨hf, a, b, c, ph, st, e⟩ :
      i.format = .seq ∧ ∃ a b c ph st, exec i s = .next { s with a := a, b := b, c := c, ph := ph, st := st } := by
    simp only [isStage, List.mem_cons, List.not_mem_nil, or_false] at hi
    rcases hi with rfl | rfl | rfl | rfl | rfl | rfl | rfl | rfl | rfl | rfl | rfl | rfl | rfl <;>
      exact ⟨rfl, _, _, _, _, _, rfl⟩
  rw [e] at h
  cases h
  constructor <;> simp [hi, hf]

theorem writesListed_host (i : Instr) (hi : i.format = .host) (s t : State) (h : exec i s = .next t) :
    WritesListed i s t := by
  by_cases hs : i = .start
  · subst hs
    change execStart s = .next t at h
    unfold execStart at h
    split at h <;> cases h <;> constructor <;> simp [State.acc]
  · obtain ⟨LEN, rdata, draws, e, hLEN⟩ := exec_host i hi hs s
    rw [e] at h
    cases h
    constructor <;> simp [State.acc]
    exact hLEN

theorem writesListed_alu (i : Instr) (hi : i.format = .alu) (s t : State) (h : exec i s = .next t) :
    WritesListed i s t := by
  obtain ⟨x, e⟩ := exec_alu i hi s
  rw [e] at h
  cases h
  constructor <;> simp [State.acc]

theorem writesListed_tailZero (p : Path) (s t : State) (h : exec (tailInstr p 0) s = .next t) :
    WritesListed (tailInstr p 0) s t := by
  rw [exec_tailInstr_zero] at h
  cases h
  cases p <;> constructor <;> simp [State.acc, tailInstr, tailWInstr, tailHInstr, tailBInstr, Instr.format]

theorem writesListed_seq (i : Instr) (hi : i.format = .seq) (s t : State) (h : exec i s = .next t) :
    WritesListed i s t := by
  obtain ⟨d, hrow⟩ := seq_dispatchRow i hi
  cases hrow with
  | wait => cases h; constructor <;> simp
  | seed | adv | emit => cases h; constructor <;> simp [State.acc, Instr.format]
  | select => exact writesListed_select s t h
  | absorb p => exact writesListed_addsWords _ ⟨p, .inl rfl⟩ s t h
  | tail p n _ _ _ _ h12 =>
    by_cases h0 : n = 0
    · subst h0
      exact writesListed_tailZero p s t h
    · exact writesListed_addsWords _ ⟨p, .inr ⟨n, by omega, h12, rfl⟩⟩ s t h
  | innerStage _ _ hin => exact writesListed_stage i (isStage_of_isInnerStage i hin) s t h
  | f7 => exact writesListed_stage .f7 (by simp [isStage]) s t h

/-- Settles O45, by the format of the operation; a sequencer operation is that of its row of the dispatch. -/
theorem onlyTheListedOperationsWriteARegister : Obligations.OnlyTheListedOperationsWriteARegister := by
  intro i s t h
  have hw : WritesListed i s t := by
    cases hf : i.format with
    | seq => exact writesListed_seq i hf s t h
    | host => exact writesListed_host i hf s t h
    | rdreq =>
      obtain ⟨r, e⟩ := exec_rdreq i hf
      exact writesListed_of_readerOnly i (.inr (.inr hf)) s t (readAlone_frame r s t ((e s).symm.trans h))
    | alu => exact writesListed_alu i hf s t h
  exact ⟨hw.acc, hw.N, hw.left, hw.path, hw.words, hw.phase, hw.stage, hw.digest, hw.status, hw.len, hw.reader⟩

end Sys2Proof.Laws
end

section
/-! PROOFS. The buffer (R60, R61, R66): the host's write of a byte is the one thing that changes it. -/

namespace Sys2Proof.Laws

open Machine

/-- The memory is the platform's: no operation writes it, the sequencer's by the rows of the dispatch (R66). -/
theorem exec_mem (i : Instr) (s t : State) (h : exec i s = .next t) : t.mem = s.mem := by
  cases hf : i.format with
  | seq =>
    obtain ⟨d, hrow⟩ := seq_dispatchRow i hf
    cases hrow with
    | wait | seed | adv | f7 | emit => cases h; rfl
    | select => rw [execSelect_frame s t h]
    | absorb p => rw [absorb_frame p s t ((exec_absorbInstr p s).symm.trans h)]
    | tail p n _ _ _ _ h12 =>
      by_cases h0 : n = 0
      · subst h0
        rw [exec_tailInstr_zero] at h
        cases h
        rfl
      · rw [tail_frame p n s t ((exec_tailInstr p n (by omega) h12 s).symm.trans h)]
    | innerStage _ _ hi =>
      obtain ⟨a, b, c, st, e, -⟩ := exec_innerStage i hi s
      rw [e] at h
      cases h
      rfl
  | host =>
    by_cases hs : i = .start
    · subst hs
      change execStart s = .next t at h
      unfold execStart at h
      split at h <;> cases h <;> rfl
    · obtain ⟨LEN, rdata, draws, e, -⟩ := exec_host i hf hs s
      rw [e] at h
      cases h
      rfl
  | rdreq =>
    obtain ⟨r, e⟩ := exec_rdreq i hf
    have hr := readAlone_frame r s t ((e s).symm.trans h)
    unfold readerOnly at hr
    rw [hr]
  | alu =>
    obtain ⟨x, e⟩ := exec_alu i hf s
    rw [e] at h
    cases h
    rfl

/-- Settles O42: the bytes of the buffer are read from the memory alone. -/
theorem noOperationWritesTheBuffer : Obligations.NoOperationWritesTheBuffer := by
  intro i s t h off
  rw [State.bufByte, State.bufByte, exec_mem i s t h]

theorem step_writeBuffer {s : State} {off : Word} {value : Byte} {rest : List Event}
    (h : s.agenda = .writeBuffer off value :: rest) : step s = writeBuffer off value { s with agenda := rest } := by
  simp only [step, runStep, h, runEvent]

/-- Settles O43: the write is one of those R61 lets through, and the memory's laws say what it leaves. -/
theorem bufferWriteChangesOneByte : Obligations.BufferWriteChangesOneByte := by
  intro s off value rest ha hway
  have hpass : ¬(s.BUSY && decide (off.toNat < s.N.toNat) &&
      decide (Memory.read s.mem off.toNat ≠ some value)) = true := by
    simp only [Bool.and_eq_true, decide_eq_true_eq, not_and, not_not, and_imp]
    intro hbusy hlt
    rcases hway with hidle | hbeyond | hsame
    · rw [hidle] at hbusy
      cases hbusy
    · omega
    · exact hsame
  refine ⟨_, (step_writeBuffer ha).trans (if_neg hpass), rfl, ?_, fun other hne => ?_,
    memory_write_wf s.mem off.toNat value off.isLt⟩
  · rw [State.bufByte, memory_read_write_same, Option.getD_some]
  · rw [State.bufByte, State.bufByte, memory_read_write_other _ _ _ _ hne]

/-- Settles O44: the three conditions of the refusal are the hypotheses. -/
theorem bufferChangeInAJobIsRefused : Obligations.BufferChangeInAJobIsRefused := by
  intro s off value rest ha hbusy hlt hne
  rw [step_writeBuffer ha, writeBuffer, if_pos (by simp [hbusy, hlt, hne])]

end Sys2Proof.Laws
end

section
/-! PROOFS. The operations that read, in one form (R68): their requests, and what is done with the answers; and where the
sequencer stands when it comes to each operation. -/

namespace Sys2Proof.Laws

open Machine

/-! ## The requests of the operations -/

theorem rd8Req_sized (off : Word) : sized (rd8Req off) :=
  ⟨show 0#2 ≠ 3#2 by decide, Nat.le_refl 1, Nat.le_refl 1⟩

theorem rd16Req_sized (off : Word) : sized (rd16Req off) :=
  ⟨show 1#2 ≠ 3#2 by decide, show 1 ≤ 2 by decide, Nat.le_refl 2⟩

/-- Whatever the cursor, also where the offsets wrap, a request of a block is of a size and count R96 allows. -/
theorem blockReads_sized (p : Path) (cur : Word) (n : Nat) (r : ReadReq) (hr : r ∈ blockReads p cur n) : sized r := by
  cases p with
  | W =>
    simp only [blockReads, List.mem_map, List.mem_range] at hr
    obtain ⟨i, hi, rfl⟩ := hr
    have hv : (BitVec.ofNat 3 (min 4 (n - 4 * i))).toNat = min 4 (n - 4 * i) := by rw [BitVec.toNat_ofNat]; omega
    simp only [sized, ReadReq.bytes, hv]
    refine ⟨by decide, by omega, Nat.min_le_left _ _⟩
  | H =>
    simp only [blockReads, List.mem_append, List.mem_map, List.mem_range] at hr
    rcases hr with ⟨i, -, rfl⟩ | hr
    · exact rd16Req_sized _
    · split at hr
      · exact List.mem_singleton.1 hr ▸ rd8Req_sized _
      · cases hr
  | B =>
    simp only [blockReads, List.mem_map, List.mem_range] at hr
    obtain ⟨i, -, rfl⟩ := hr
    exact rd8Req_sized _

theorem selectRead_sized (N : Nat) (h : N ≠ 0) : sized (selectRead N) := by
  have hv : (BitVec.ofNat 3 (min N 4)).toNat = min N 4 := by rw [BitVec.toNat_ofNat]; omega
  simp only [sized, selectRead, ReadReq.bytes, hv]
  refine ⟨by decide, by omega, Nat.min_le_right _ _⟩

theorem serves_iff (s : State) (r : ReadReq) : s.serves r = true ↔ r.off.toNat + r.v.toNat ≤ s.limit := decide_eq_true_iff

theorem serves_eq_false_iff (s : State) (r : ReadReq) : s.serves r = false ↔ s.limit < r.off.toNat + r.v.toNat := by
  rw [State.serves, decide_eq_false_iff_not, Nat.not_le]

/-! ## Reads, and what is done with the answers -/

/-- What an operation comes to that waits in its reads, and with all the answers ends in the state `fin` gives. -/
def afterAnswers (fin : List Lanes → State → State) : ReadOutcome (List Lanes) → Host.Outcome State Fault Refusal
  | .waiting t => .next t
  | .answered ls t => .next (fin ls t)

/-- What SELECT does with its answer (R141). -/
def selectWith (ls : List Lanes) (t : State) : State :=
  { t with fw := composeWord .W ls, path := (choosePath (firstLane ls)).code, ph := 3#3 }

/-- What ABSORB of the block at `cur` does with its answers (R151, R170, R190). -/
def addBlock (p : Path) (cur : Word) (ls : List Lanes) (t : State) : State :=
  { addWords (wholeWords (composeWords p (blockWords cur) ls)) t with ph := 4#3, st := 1#3 }

/-- What TAIL of the `n` bytes at `cur` does with its answers (R165, R184, R204). -/
def addTail (p : Path) (cur : Word) (n : Nat) (ls : List Lanes) (t : State) : State :=
  { addWords (composeWords p (tailWords cur n) ls) t with ph := 5#3, st := 1#3 }

theorem exec_selectEmpty (s : State) (h0 : s.N = 0#32) :
    exec .select s = .next { s with fw := 0#32, path := Path.code .W, ph := 3#3 } := if_pos h0

theorem exec_select_reads (s : State) (h0 : s.N ≠ 0#32) :
    exec .select s = afterAnswers selectWith (readAll [selectRead s.N.toNat] s) := by
  show execSelect s = _
  rw [execSelect, if_neg h0, show rd32Req 0#32 (selectCount s.N) = selectRead s.N.toNat from rfl]
  cases readAll [selectRead s.N.toNat] s <;> rfl

theorem exec_absorb_reads (p : Path) (s : State) :
    exec (absorbInstr p) s = afterAnswers (addBlock p s.cur) (readAll (blockReads p s.cur 12) s) := by
  rw [exec_absorbInstr, absorb, readsOf_block]
  cases readAll (blockReads p s.cur 12) s <;> rfl

theorem exec_tail_reads (p : Path) (n : Nat) (h1 : 1 ≤ n) (h12 : n ≤ 12) (s : State) :
    exec (tailInstr p n) s = afterAnswers (addTail p s.cur n) (readAll (blockReads p s.cur n) s) := by
  rw [exec_tailInstr p n h1 h12, tail, readsOf_tail p s.cur n h1 h12]
  cases readAll (blockReads p s.cur n) s <;> rfl

/-- What is done with the answers leaves the reader, the log of its requests and the inputs to come alone. -/
structure LeavesReader (t u : State) : Prop where
  rq : u.rq = t.rq
  answers : u.answers = t.answers
  readLog : u.readLog = t.readLog
  agenda : u.agenda = t.agenda

theorem selectWith_leavesReader (ls : List Lanes) (t : State) : LeavesReader t (selectWith ls t) := ⟨rfl, rfl, rfl, rfl⟩

theorem addWords_leavesReader (ws : List BlockWord) (ph : BitVec 3) (t : State) :
    LeavesReader t { addWords ws t with ph := ph, st := 1#3 } := by
  rw [addWords_frame]
  exact ⟨rfl, rfl, rfl, rfl⟩

/-- The words of a block add its twelve bytes (R151, R170, R190). -/
theorem addWords_block_acc (buf : Nat → Byte) (p : Path) (cur : Word) (ls : List Lanes) (s : State)
    (hc : cur.toNat + 12 ≤ 2 ^ 32) (h : complete buf (readsOf p (blockWords cur)) ls) :
    (addWords (wholeWords (composeWords p (blockWords cur) ls)) s).acc = addBytes buf cur.toNat 12 s.acc := by
  rw [composeWords_block buf p cur ls hc h]
  rfl

/-- The first valid lane of an answer is the buffer's first byte of the request (R68, R130). -/
theorem isAnswerTo_lane0 (buf : Nat → Byte) (r : ReadReq) (l : Lanes) (h : isAnswerTo buf r l) (h1 : 1 ≤ r.v.toNat)
    (h4 : r.v.toNat ≤ 4) : l.l0 = buf r.off.toNat := by
  have hw := isAnswerTo_toNat buf r l h h1 h4
  have hb := (buf r.off.toNat).isLt
  have hl := l.l0.isLt
  apply BitVec.eq_of_toNat_eq
  rw [lanes_word_toNat] at hw
  have hv : r.v.toNat = 1 ∨ r.v.toNat = 2 ∨ r.v.toNat = 3 ∨ r.v.toNat = 4 := by omega
  rcases hv with hv | hv | hv | hv <;> rw [hv] at hw
  · rw [bytesLE_one] at hw; omega
  · rw [bytesLE_two] at hw; omega
  · rw [bytesLE_three] at hw; omega
  · rw [bytesLE_four] at hw; omega

/-! ## The position and its requests -/

/-- Where the sequencer stands when the dispatch selects an operation (R92), with the requests of the position. -/
inductive StandsAt (s : State) : Instr → Prop
  | wait (hph : s.ph = 0#3) (hnone : positionReads s = []) : StandsAt s .wait
  | seed (hph : s.ph = 1#3) (hnone : positionReads s = []) : StandsAt s .seed
  | selectEmpty (hph : s.ph = 2#3) (h0 : s.N = 0#32) (hnone : positionReads s = []) : StandsAt s .select
  | select (hph : s.ph = 2#3) (h0 : s.N ≠ 0#32) (hreads : positionReads s = [selectRead s.N.toNat]) : StandsAt s .select
  | absorb (p : Path) (hph : s.ph = 3#3) (hp : s.path = p.code) (hL : 12 < s.L.toNat)
      (hreads : positionReads s = blockReads p s.cur 12) : StandsAt s (absorbInstr p)
  | tail (p : Path) (hph : s.ph = 3#3) (hp : s.path = p.code) (h1 : 1 ≤ s.L.toNat) (h12 : s.L.toNat ≤ 12)
      (hreads : positionReads s = blockReads p s.cur s.L.toNat) : StandsAt s (tailInstr p s.L.toNat)
  | tailEmpty (p : Path) (hph : s.ph = 3#3) (hnone : positionReads s = []) : StandsAt s (tailInstr p 0)
  | innerStage (i : Instr) (hph : s.ph = 4#3 ∨ s.ph = 5#3) (hi : isInnerStage i) (hnone : positionReads s = []) :
      StandsAt s i
  | adv (hph : s.ph = 4#3) (hnone : positionReads s = []) : StandsAt s .adv
  | f7 (hph : s.ph = 5#3) (hnone : positionReads s = []) : StandsAt s .f7
  | emit (hph : s.ph = 6#3) (hnone : positionReads s = []) : StandsAt s .emit

theorem decodeDispatch_standsAt {s : State} {i : Instr} (hd : decodeDispatch s.dispatch = .ok i) : StandsAt s i := by
  have hnone : ∀ ph : BitVec 3, s.dispatch.ph = ph → ph ≠ 2#3 ∧ ph ≠ 3#3 → positionReads s = [] := fun ph e hne => by
    subst e
    exact positionReads_other hne.1 hne.2
  obtain ⟨hgt, hl4⟩ := dispatch_L s
  cases decodeDispatch_row _ i hd with
  | wait hph => exact .wait hph (hnone _ hph (by decide))
  | seed hph => exact .seed hph (hnone _ hph (by decide))
  | select hph =>
    have hph : s.ph = 2#3 := hph
    by_cases h0 : s.N = 0#32
    · exact .selectEmpty hph h0 (by rw [positionReads, if_pos hph, if_pos h0])
    · exact .select hph h0 (positionReads_select hph h0)
  | absorb p hph hp hg =>
    have hL := hgt hg
    have hreads := positionReads_loop p hph hp
    rw [Nat.min_eq_right (by omega)] at hreads
    exact .absorb p hph hp hL hreads
  | tail p n hph hp hg hn h12 =>
    obtain rfl := (hl4 hg).symm.trans hn
    have hreads := positionReads_loop p hph hp
    rw [Nat.min_eq_left h12] at hreads
    by_cases h0 : s.L.toNat = 0
    · rw [h0] at hreads ⊢
      exact .tailEmpty p hph (hreads.trans (by cases p <;> rfl))
    · exact .tail p hph hp (by omega) h12 hreads
  | innerStage _ hph hi =>
    exact .innerStage i hph hi (hph.elim (fun e => hnone _ e (by decide)) fun e => hnone _ e (by decide))
  | adv hph => exact .adv hph (hnone _ hph (by decide))
  | f7 hph => exact .f7 hph (hnone _ hph (by decide))
  | emit hph => exact .emit hph (hnone _ hph (by decide))

end Sys2Proof.Laws
end

section
/-! PROOFS. Waiting for answers, operation by operation (R38, R68): where an operation is left waiting, and that the request
outstanding is answered first. -/

namespace Sys2Proof.Laws

open Machine

/-! ## A read that is not answered -/

/-- An operation that waits in its reads meets the clauses of R68. -/
theorem waitClauses_of_reads (i : Instr) (fin : List Lanes → State → State) (rs : List ReadReq) (s : State)
    (he : exec i s = afterAnswers fin (readAll rs s)) (hl : ∀ r ∈ rs, sized r) : waitClauses i rs s := by
  intro hu ha hn
  rcases readAll_underway rs s hu ha hl with ⟨hall, -⟩ | ⟨pre, r, post, hd, hpre, hr, e, hu'⟩
  · exact absurd (fun r hr => (serves_iff s r).1 (hall r hr)) hn
  · refine ⟨waitingAt pre r s, pre, r, post, by rw [he, e]; rfl, hd, fun q hq => (serves_iff s q).1 (hpre q hq),
      (serves_eq_false_iff s r).1 hr, ?_, List.prefix_append _ _, ?_, hu'⟩
    · simp only [waitingAt, ← ha]
    · simp [waitingAt]

/-- A request run alone while none is outstanding, and not answered. -/
theorem readAlone_unserved (r : ReadReq) (s : State) (hq : s.rq = none) (hr : s.limit < r.off.toNat + r.v.toNat) :
    readAlone r s = .next { s with rq := some r, rqAlone := true } := by
  have hrecv : receive s = some s := by simp only [receive, hq]
  have hown : ¬(s.rqAlone && decide (s.rq = some r)) = true := by simp [hq]
  rw [readAlone, hrecv]
  simp only [if_neg hown, requestAlone_eq, (serves_eq_false_iff s r).2 hr, Bool.false_eq_true, if_false, issueRead]

/-- Settles O38: each operation waits in its reads, and a request run alone is issued and not answered. -/
theorem unansweredReadLeavesTheCoreWaiting : Obligations.UnansweredReadLeavesTheCoreWaiting := by
  intro s
  refine ⟨fun p => ?_, fun p n h1 h12 => ?_, fun h0 => ?_, fun hq => ⟨fun off h => ?_, fun v off h => ⟨?_, ?_⟩⟩⟩
  · exact waitClauses_of_reads _ _ _ s (exec_absorb_reads p s) (blockReads_sized p s.cur 12)
  · exact waitClauses_of_reads _ _ _ s (exec_tail_reads p n h1 h12 s) (blockReads_sized p s.cur n)
  · have hN : s.N.toNat ≠ 0 := fun e => h0 (BitVec.eq_of_toNat_eq e)
    exact waitClauses_of_reads _ _ _ s (exec_select_reads s h0) fun r hr =>
      List.mem_singleton.1 hr ▸ selectRead_sized s.N.toNat hN
  · exact readAlone_unserved _ s hq h
  · exact readAlone_unserved ⟨1#2, v, off⟩ s hq h
  · exact readAlone_unserved ⟨2#2, v, off⟩ s hq h

/-! ## The outstanding request comes first -/

/-- The reads of an operation begin by waiting, so they are those of the state with the answer given. -/
theorem readAll_of_receive (rs : List ReadReq) (s u : State) (h : receive s = some u) : readAll rs s = readAll rs u := by
  simp only [readAll, h, (receive_again s u h).2]

theorem readAll_of_unserved (rs : List ReadReq) (s : State) (h : receive s = none) : readAll rs s = .waiting s := by
  simp only [readAll, h]

/-- So it is for every operation of the sequencer's that reads. -/
theorem exec_of_receive (i : Instr) (s u : State) (hi : addsWords i ∨ (i = .select ∧ s.N ≠ 0#32))
    (h : receive s = some u) : exec i s = exec i u := by
  have hf := receive_frame s u h
  have hcur : u.cur = s.cur := by rw [hf]
  have hN : u.N = s.N := by rw [hf]
  obtain ⟨p, rfl | ⟨n, h1, h12, rfl⟩⟩ | ⟨rfl, h0⟩ := hi
  · rw [exec_absorb_reads, exec_absorb_reads, hcur, readAll_of_receive _ s u h]
  · rw [exec_tail_reads p n h1 h12, exec_tail_reads p n h1 h12, hcur, readAll_of_receive _ s u h]
  · rw [exec_select_reads s h0, exec_select_reads u (hN ▸ h0), hN, readAll_of_receive _ s u h]

theorem exec_of_unserved (i : Instr) (s : State) (hi : addsWords i ∨ (i = .select ∧ s.N ≠ 0#32) ∨ i.format = .rdreq)
    (h : receive s = none) : exec i s = .next s := by
  obtain ⟨p, rfl | ⟨n, h1, h12, rfl⟩⟩ | ⟨rfl, h0⟩ | hf := hi
  · rw [exec_absorb_reads, readAll_of_unserved _ s h, afterAnswers]
  · rw [exec_tail_reads p n h1 h12, readAll_of_unserved _ s h, afterAnswers]
  · rw [exec_select_reads s h0, readAll_of_unserved _ s h, afterAnswers]
  · obtain ⟨r, e⟩ := exec_rdreq i hf
    rw [e, readAlone, h]

/-- A request run alone is ended by the outstanding request's answer if that is its own, and otherwise made after it. -/
theorem readAlone_of_receive (q r : ReadReq) (s u : State) (hq : s.rq = some r) (h : receive s = some u) :
    readAlone q s = if s.rqAlone = true ∧ r = q then .next u else readAlone q u := by
  obtain ⟨hnone, hagain⟩ := receive_again s u h
  have hu : readAlone q u = .next (requestAlone q u) := by
    rw [readAlone, hagain]
    simp [hnone]
  rw [hu, readAlone, h, hq]
  simp only [Bool.and_eq_true, decide_eq_true_eq, Option.some.injEq]

/-- The state with the answer given, where the platform gives it: it goes to the one who asked. -/
theorem receive_served (s : State) (r : ReadReq) (hq : s.rq = some r) (hs : s.serves r = true) :
    ∃ u, receive s = some u ∧
      u = { s with
        rq := none, rqAlone := false, answers := u.answers, readData := u.readData, readLog := s.readLog ++ [r],
        draws := u.draws } ∧
      (s.rqAlone = true → u.answers = s.answers ∧ u.readData = (answerLanes s s.nextFree r).word) ∧
      (s.rqAlone = false → u.answers = s.answers ++ [answerLanes s s.nextFree r] ∧ u.readData = s.readData) := by
  cases ha : s.rqAlone <;> simp [receive, hq, hs, deliver, ha]

/-- Settles O57: the state with the answer given is the one `receive` answers. -/
theorem anOutstandingReadIsAnsweredFirst : Obligations.AnOutstandingReadIsAnsweredFirst := by
  intro s r hq
  refine ⟨fun hlim i hi => exec_of_unserved i s hi ?_, fun hlim => ?_⟩
  · simp only [receive, hq, (serves_eq_false_iff s r).2 hlim, Bool.false_eq_true, if_false]
  · obtain ⟨u, hu, hframe, hanswer⟩ := receive_served s r hq ((serves_iff s r).2 hlim)
    exact ⟨u, hframe, ⟨_, fun hlegal => answerLanes_isAnswerTo s _ r (legal_sized r hlegal), hanswer⟩,
      fun i hi => exec_of_receive i s u hi hu, fun off => readAlone_of_receive _ r s u hq hu, fun v off =>
      ⟨readAlone_of_receive ⟨1#2, v, off⟩ r s u hq hu, readAlone_of_receive ⟨2#2, v, off⟩ r s u hq hu⟩⟩

end Sys2Proof.Laws
end

section
/-! PROOFS. What the sequencer asks of the read port in a job (R63, R64, R131): the requests of its position and no
others. -/

namespace Sys2Proof.Laws

open Machine

/-- From `s` to `t` only requests of the list `rs` have been answered or are outstanding. -/
structure AsksOnly (rs : List ReadReq) (s t : State) : Prop where
  answered : ∃ qs, t.readLog = s.readLog ++ qs ∧ qs ⊆ rs
  outstanding : ∀ r, t.rq = some r → r ∈ rs

theorem AsksOnly.mem {rs : List ReadReq} {s t : State} (h : AsksOnly rs s t) {r : ReadReq}
    (hr : r ∈ t.readLog.drop s.readLog.length ∨ t.rq = some r) : r ∈ rs := by
  obtain ⟨⟨qs, hlog, hqs⟩, hout⟩ := h
  rcases hr with hr | hr
  · rw [hlog, List.drop_left] at hr
    exact hqs hr
  · exact hout r hr

/-- An operation that reads asks for its own requests (R68). -/
theorem asksOnly_of_reads {i : Instr} {fin : List Lanes → State → State} {rs : List ReadReq} {s t : State}
    (he : exec i s = afterAnswers fin (readAll rs s)) (hfin : ∀ ls u, LeavesReader u (fin ls u)) (hu : Underway rs s)
    (ha : s.rqAlone = false) (hl : ∀ r ∈ rs, sized r) (ht : exec i s = .next t) : AsksOnly rs s t := by
  have hsub : rs.drop s.answers.length ⊆ rs := List.drop_subset _ _
  rcases readAll_underway rs s hu ha hl with ⟨-, ls, -, e⟩ | ⟨pre, r, post, hd, -, -, e, -⟩ <;> rw [he, e] at ht <;>
    cases ht
  · exact ⟨⟨_, (hfin _ _).readLog, hsub⟩, fun r hr => by rw [(hfin _ _).rq] at hr; cases hr⟩
  · rw [hd] at hsub
    refine ⟨⟨pre, rfl, fun q hq => hsub (by simp [hq])⟩, fun q hq => ?_⟩
    cases hq
    exact hsub (by simp)

/-- What the sequencer does from a state that meets the invariant asks only for the requests of its position: an
operation that reads nothing finds none outstanding and leaves it so. -/
theorem runSequencer_asksOnly {s t : State} (h : Inv s) (hr : s.rst = false) (ha : s.rqAlone = false)
    (he : runSequencer s = .next t) : AsksOnly (positionReads s) s t := by
  have hl : ∀ r ∈ positionReads s, sized r := fun r hm => legal_sized r (positionReads_bounds h r hm).1
  have hstill : positionReads s = [] → t.rq = s.rq → t.readLog = s.readLog → AsksOnly (positionReads s) s t :=
    fun hp hrq hlog => ⟨⟨[], by rw [hlog, List.append_nil], List.nil_subset _⟩, fun r hr => by
      rw [hrq] at hr
      exact absurd ((inv_noneAsked h hp).alone r hr) (by simp [ha])⟩
  rw [runSequencer, if_neg (by simp [hr])] at he
  split at he
  next i hd =>
    cases decodeDispatch_standsAt hd with
    | wait _ hnone | seed _ hnone | adv _ hnone | f7 _ hnone | emit _ hnone => cases he; exact hstill hnone rfl rfl
    | innerStage _ _ hi hnone =>
      obtain ⟨a, b, c, st, e, -⟩ := exec_innerStage i hi s
      rw [e] at he
      cases he
      exact hstill hnone rfl rfl
    | selectEmpty _ h0 hnone =>
      rw [exec_selectEmpty s h0] at he
      cases he
      exact hstill hnone rfl rfl
    | tailEmpty p _ hnone =>
      rw [exec_tailInstr_zero] at he
      cases he
      exact hstill hnone rfl rfl
    | select _ h0 hreads =>
      exact asksOnly_of_reads (hreads ▸ exec_select_reads s h0) selectWith_leavesReader h.underway ha hl he
    | absorb p _ _ _ hreads =>
      exact asksOnly_of_reads (hreads ▸ exec_absorb_reads p s) (fun _ => addWords_leavesReader _ 4#3)
        h.underway ha hl he
    | tail p _ _ h1 h12 hreads =>
      exact asksOnly_of_reads (hreads ▸ exec_tail_reads p _ h1 h12 s) (fun _ => addWords_leavesReader _ 5#3)
        h.underway ha hl he
  next => cases he

/-- SELECT's request is of size 2, and those of a block or tail are of their path's sizes (R131). -/
theorem positionReads_size {s : State} (h : Inv s) (r : ReadReq) (hr : r ∈ positionReads s) :
    (s.ph = 2#3 → r.size = 2#2) ∧ (s.ph = 3#3 → s.path = 2#2 → r.size = 2#2) ∧
      (s.ph = 3#3 → s.path = 1#2 → r.size = 1#2 ∨ r.size = 0#2) ∧ (s.ph = 3#3 → s.path = 0#2 → r.size = 0#2) := by
  have hN := s.N.isLt
  have hsize : ∀ p : Path, s.ph = 3#3 → s.path = p.code →
      (p = .W → r.size = 2#2) ∧ (p = .H → r.size = 1#2 ∨ r.size = 0#2) ∧ (p = .B → r.size = 0#2) := fun p hph hp => by
    obtain ⟨hsum, -⟩ := h.progress (.inl hph)
    rw [positionReads_loop p hph hp] at hr
    exact (blockReads_bounds p s.cur (min s.L.toNat 12) (by omega) r hr).2.2.2
  refine ⟨fun hph => ?_, fun hph hp => (hsize .W hph hp).1 rfl, fun hph hp => (hsize .H hph hp).2.1 rfl,
    fun hph hp => (hsize .B hph hp).2.2 rfl⟩
  rw [positionReads, if_pos hph] at hr
  split at hr
  · cases hr
  · rw [List.mem_singleton.1 hr]

/-- Settles O50: what the sequencer's move asks for is of its position, and the invariant bounds that. -/
theorem requestsStayInsideTheBuffer : Obligations.RequestsStayInsideTheBuffer := by
  intro s t r h hrst ha hagenda he hr
  have hasks : AsksOnly (positionReads s) s t := by
    rcases hagenda with hnil | ⟨rest, hcons⟩
    · refine runSequencer_asksOnly h hrst ha ?_
      rw [← he, step, runStep, hnil]
    · have hrest := inv_of_ports h s.LEN s.rdata s.aluX s.aluY s.aluOut s.draws s.served rest
        fun hrst => (h.held hrst).2.2.1
      have hrun : runSequencer { s with agenda := rest } = .next t := by
        rw [← he, step, runStep, hcons]
        rfl
      obtain ⟨hlog, hout⟩ := runSequencer_asksOnly hrest hrst ha hrun
      exact ⟨hlog, hout⟩
  have hmem := hasks.mem hr
  obtain ⟨hlegal, hend⟩ := positionReads_bounds h r hmem
  exact ⟨hend, hlegal, positionReads_size h r hmem⟩

end Sys2Proof.Laws
end

section
/-! PROOFS. How many requests a job makes (R301). -/

namespace Sys2Proof.Laws

open Machine

theorem blockReads_length (p : Path) (cur : Word) (n : Nat) :
    (blockReads p cur n).length = match p with
      | .W => (n + 3) / 4
      | .H => n / 2 + n % 2
      | .B => n := by
  cases p with
  | W => simp [blockReads]
  | H => rcases Nat.mod_two_eq_zero_or_one n with h | h <;> simp [blockReads, h]
  | B => simp [blockReads]

theorem jobRequests_length (p : Path) (N : Nat) : (jobRequests p N).length = jobReads p N := by
  by_cases h0 : N = 0
  · simp [jobRequests, jobReads, h0]
  · cases p <;> simp [jobRequests, jobReads, h0, List.length_flatMap, blockReads_length] <;> omega

/-- Settles O52: a job ends with its path and its reads (`job_ends`), and their number is a sum over the blocks. -/
theorem aJobMakesTheReadsOfItsPath : Obligations.AJobMakesTheReadsOfItsPath := by
  intro s h
  obtain ⟨t, hrun, hend⟩ := job_ends s h
  exact ⟨jobRequests_length _ _, t, hrun, hend.path, hend.log⟩

end Sys2Proof.Laws
end

section
/-! PROOFS. Waits change nothing of a job (R65, R68, R71): a job whose reads are answered in any pattern follows, operation
by operation, the same job with every read answered at once. -/

namespace Sys2Proof.Laws

open Machine

/-! ## The job with every read answered at once -/

/-- The sequencer moves alone on a platform that serves every offset, at a position of a job (R23, R27), or after it. -/
structure Unhindered (u : State) : Prop where
  quiet : Quiet u
  limit : u.limit = 2 ^ 32
  seeded : u.ph = 2#3 → u.cur = 0#32 ∧ u.L = u.N
  progress : pastSelect u.ph → u.cur.toNat + u.L.toNat = u.N.toNat ∧ u.cur.toNat % 12 = 0
  inMix : u.ph = 4#3 → 12 < u.L.toNat
  ended : u.DONE = true → u.ph = 0#3

/-- Past SELECT, an operation may go to another such phase without touching `cur` and `L`. -/
theorem Unhindered.move {u v : State} (h : Unhindered u) (hp : pastSelect u.ph) (hq : Quiet v)
    (hs : v.served = u.served) (hN : v.N = u.N) (hL : v.L = u.L) (hcur : v.cur = u.cur) (hD : v.DONE = u.DONE)
    (hpast : pastSelect v.ph) (hmix : v.ph = 4#3 → 12 < u.L.toNat) : Unhindered v := by
  have hph : ∀ ph : BitVec 3, pastSelect ph → ph ≠ 2#3 ∧ ph ≠ 0#3 := by unfold pastSelect; decide
  exact {
    quiet := hq
    limit := by rw [State.limit, hs]; exact h.limit
    seeded := fun e => absurd e (hph _ hpast).1
    progress := fun _ => by rw [hcur, hL, hN]; exact h.progress hp
    inMix := fun e => by rw [hL]; exact hmix e
    ended := fun hd => absurd (h.ended (hD ▸ hd)) (hph _ hp).2 }

/-- In a job an operation may go to LOOP, where `cur` and `L` share the `N` bytes. -/
theorem Unhindered.loop {u v : State} (h : Unhindered u) (hp : u.ph ≠ 0#3) (hq : Quiet v) (hs : v.served = u.served)
    (hD : v.DONE = u.DONE) (hph : v.ph = 3#3) (hsum : v.cur.toNat + v.L.toNat = v.N.toNat)
    (h12 : v.cur.toNat % 12 = 0) : Unhindered v where
  quiet := hq
  limit := by rw [State.limit, hs]; exact h.limit
  seeded e := by rw [hph] at e; cases e
  progress _ := ⟨hsum, h12⟩
  inMix e := by rw [hph] at e; cases e
  ended hd := absurd (h.ended (hD ▸ hd)) hp

/-- Past SELECT, the bytes of a block or tail read and added. -/
theorem Unhindered.added {u : State} (h : Unhindered u) (p : Path) (n : Nat) (ph : BitVec 3) (w0 w1 w2 : Word)
    (hph : u.ph = 3#3) (hpast : pastSelect ph) (hmix : ph = 4#3 → 12 < u.L.toNat) :
    Unhindered (bytesAdded p n ph w0 w1 w2 u) :=
  h.move (.inl hph) (bytesAdded_quiet p n ph w0 w1 w2 u h.quiet) rfl rfl rfl rfl rfl hpast hmix

/-- At `ph = 0` the sequencer stays where it is (R234). -/
theorem Unhindered.rest {u : State} (h : Unhindered u) (hp : u.ph = 0#3) (k : Nat) : core.run k u = .next u := by
  induction k with
  | zero => rfl
  | succ k ih =>
    have hd : decodeDispatch u.dispatch = .ok .wait := by simp only [decodeDispatch, State.dispatch, hp]; rfl
    rw [run_exec k u u .wait h.quiet hd rfl, ih]

/-! ## A job that waits, beside the one that does not -/

/-- `u` with what waiting can change taken from `x`: the reader's part, the words as read, and the inputs to come. -/
def withWaitsOf (x u : State) : State :=
  { u with
    fw := x.fw, w0 := x.w0, w1 := x.w1, w2 := x.w2, rq := x.rq, rqAlone := x.rqAlone, answers := x.answers,
    served := x.served, readLog := x.readLog, draws := x.draws, agenda := x.agenda }

/-- `t` stands where `u` does, in the operation of `u`'s position or about to begin it; its log is that of `u` and the
requests of the position answered so far. -/
structure Follows (u t : State) : Prop where
  frame : ∃ x, t = withWaitsOf x u
  own : ∀ r, t.rq = some r → t.rqAlone = false
  underway : Underway (positionReads u) t
  log : t.readLog = u.readLog ++ (positionReads u).take t.answers.length
  inputs : ∀ e ∈ t.agenda, e = .sequencer ∨ ∃ n, e = .serve n

theorem Follows.N {u t : State} (h : Follows u t) : t.N = u.N := by
  obtain ⟨x, hx⟩ := h.frame
  rw [hx]
  rfl

theorem Follows.cur {u t : State} (h : Follows u t) : t.cur = u.cur := by
  obtain ⟨x, hx⟩ := h.frame
  rw [hx]
  rfl

/-- An input taken from the agenda, and a change of what the platform answers. -/
theorem Follows.input {u t : State} (h : Follows u t) (served : Nat) (agenda : List Event) (hsub : agenda ⊆ t.agenda) :
    Follows u { t with served := served, agenda := agenda } := by
  obtain ⟨⟨x, rfl⟩, hown, ⟨hans, hask⟩, hlog, hin⟩ := h
  exact ⟨⟨{ x with served := served, agenda := agenda }, rfl⟩, hown, ⟨hans, hask⟩, hlog, fun e he => hin e (hsub he)⟩

/-- About to begin the operation of the position. -/
theorem follows_of_fresh {u t : State} (hframe : ∃ x, t = withWaitsOf x u) (hq : t.rq = none) (ha : t.answers = [])
    (hlog : t.readLog = u.readLog) (hin : ∀ e ∈ t.agenda, e = .sequencer ∨ ∃ n, e = .serve n) : Follows u t where
  frame := hframe
  own r hr := by rw [hq] at hr; cases hr
  underway := underway_fresh _ t hq ha
  log := by rw [hlog, ha]; simp
  inputs := hin

/-- An operation with no requests has none begun. -/
theorem noneAsked_of_underway_nil {t : State} (h : Underway [] t) : NoneAsked t where
  answers := by
    have hans := h.answered
    cases ha : t.answers with
    | nil => rfl
    | cons l ls => rw [ha] at hans; exact hans.elim
  alone r hq := by_contra fun ha => by
    have := h.asked r hq (by simpa using ha)
    simp at this

/-- An operation that reads nothing finds no read begun, so the next one is about to begin. -/
theorem Follows.still {u t v t' : State} (h : Follows u t) (hnone : positionReads u = [])
    (hframe : ∃ x, t' = withWaitsOf x v) (hr : LeavesReader t t') (hv : v.readLog = u.readLog) : Follows v t' := by
  obtain ⟨-, hown, hu, hlog, hin⟩ := h
  rw [hnone] at hu hlog
  obtain ⟨ha, halone⟩ := noneAsked_of_underway_nil hu
  have hq : t.rq = none := Option.eq_none_iff_forall_ne_some.2 fun r hq => by
    cases (hown r hq).symm.trans (halone r hq)
  refine follows_of_fresh hframe (hr.rq.trans hq) (hr.answers.trans ha) ?_ (hr.agenda ▸ hin)
  rw [hr.readLog, hv, hlog, List.take_nil, List.append_nil]

/-! ## An operation that reads -/

/-- All that the reads of an operation under way can do, where `rqAlone` is not known while no request is outstanding: the
first request issued clears it. -/
theorem readAll_own (rs : List ReadReq) (t : State) (hu : Underway rs t) (hown : ∀ r, t.rq = some r → t.rqAlone = false)
    (hl : ∀ r ∈ rs, sized r) :
    (∃ ls t', complete t.bufByte rs ls ∧ readAll rs t = .answered ls t' ∧ t' = { t with
      rq := none, rqAlone := t'.rqAlone, answers := [], readLog := t.readLog ++ rs.drop t.answers.length,
      draws := t'.draws }) ∨
    (∃ pre r post, rs.drop t.answers.length = pre ++ r :: post ∧ readAll rs t = .waiting (waitingAt pre r t) ∧
      Underway rs (waitingAt pre r t)) := by
  cases hq : t.rq with
  | some r =>
    rcases readAll_underway rs t hu (hown r hq) hl with ⟨-, ls, hc, e⟩ | ⟨pre, r, post, hd, -, -, e, hw⟩
    · exact .inl ⟨ls, _, hc, e, rfl⟩
    · exact .inr ⟨pre, r, post, hd, e, hw⟩
  | none =>
    have e0 : readAll rs t = issueAll (rs.drop t.answers.length) t := by simp only [readAll, receive, hq]
    cases hd : rs.drop t.answers.length with
    | nil =>
      have hlen := answersFor_length _ _ _ hu.answered
      rw [List.drop_eq_nil_iff] at hd
      exact .inl ⟨t.answers, _, ⟨hu.answered, by omega⟩, by rw [e0, List.drop_eq_nil_of_le hd]; rfl, by simp [hq]⟩
    | cons q qs =>
      have hu0 : Underway rs { t with rqAlone := false } := ⟨hu.answered, fun r hr => by cases hq.symm.trans hr⟩
      have esame : readAll rs { t with rqAlone := false } = readAll rs t := by
        rw [e0, hd]
        simp only [readAll, receive, hq, hd]
        rfl
      rcases readAll_underway rs _ hu0 rfl hl with ⟨-, ls, hc, e⟩ | ⟨pre, r, post, hd', -, -, e, hw⟩ <;>
        rw [← esame, e]
      · exact .inl ⟨ls, _, hc, rfl, by simp only [hd]⟩
      · have hw0 : waitingAt pre r { t with rqAlone := false } = waitingAt pre r t := by
          simp only [waitingAt, answersFrom_congr t { t with rqAlone := false } rfl]
        exact .inr ⟨pre, r, post, hd.symm.trans hd', congrArg _ hw0, hw0 ▸ hw⟩

/-- An operation that reads waits at the same position, or ends with answers to all the position's requests, where the
job that does not wait ends it. -/
theorem Follows.reads {u t v : State} {i : Instr} {fin : List Lanes → State → State} (h : Follows u t)
    (hl : ∀ r ∈ positionReads u, sized r) (he : exec i t = afterAnswers fin (readAll (positionReads u) t))
    (hfin : ∀ ls t, LeavesReader t (fin ls t))
    (hframe : ∀ ls x, complete u.bufByte (positionReads u) ls → ∃ y, fin ls (withWaitsOf x u) = withWaitsOf y v)
    (hv : v.readLog = u.readLog ++ positionReads u) : ∃ t', exec i t = .next t' ∧ (Follows u t' ∨ Follows v t') := by
  obtain ⟨⟨x, rfl⟩, hown, hu, hlog, hin⟩ := h
  rcases readAll_own (positionReads u) _ hu hown hl with ⟨ls, t', hc, e, ht⟩ | ⟨pre, r, post, hd, e, hw⟩ <;> rw [he, e]
  · refine ⟨_, rfl, .inr ?_⟩
    obtain ⟨hrq, hans, hreadLog, hagenda⟩ := hfin ls t'
    have hx : t' = withWaitsOf t' u := by rw [ht]; rfl
    refine follows_of_fresh (hx ▸ hframe ls t' hc) (by rw [hrq, ht]) (by rw [hans, ht]) ?_ ?_
    · rw [hreadLog, ht, hv]
      dsimp only
      rw [hlog, List.append_assoc, List.take_append_drop]
    · rw [hagenda, ht]
      exact hin
  · refine ⟨_, rfl, .inl ⟨⟨waitingAt pre r (withWaitsOf x u), rfl⟩, fun _ _ => rfl, hw, ?_, hin⟩⟩
    have hlen : (waitingAt pre r (withWaitsOf x u)).answers.length = (withWaitsOf x u).answers.length + pre.length := by
      simp [waitingAt]
    rw [waitingAt_readLog, hlen, hlog, List.take_add, hd, List.take_left, List.append_assoc]

/-- The words added are the only registers in which the two jobs differ after ABSORB or TAIL. -/
theorem added_withWaitsOf (p : Path) (n : Nat) (ph : BitVec 3) (w0 w1 w2 : Word) (ws : List BlockWord) (x u : State)
    (hacc : (addWords ws (withWaitsOf x u)).acc = addBytes u.bufByte u.cur.toNat n u.acc) :
    ∃ y, { addWords ws (withWaitsOf x u) with ph := ph, st := 1#3 } = withWaitsOf y (bytesAdded p n ph w0 w1 w2 u) := by
  refine ⟨addWords ws (withWaitsOf x u), ?_⟩
  rw [addWords_frame, hacc]
  rfl

/-! ## One operation of the sequencer -/

/-- The stages read and write the accumulators and the stage alone. -/
theorem exec_innerStage_withWaitsOf (i : Instr) (hi : isInnerStage i) (u : State) :
    ∃ a b c st, exec i u = .next { u with a := a, b := b, c := c, st := st } ∧
      ∀ x, exec i (withWaitsOf x u) = .next (withWaitsOf x { u with a := a, b := b, c := c, st := st }) := by
  simp only [isInnerStage, List.mem_cons, List.not_mem_nil, or_false] at hi
  rcases hi with rfl | rfl | rfl | rfl | rfl | rfl | rfl | rfl | rfl | rfl | rfl | rfl <;>
    exact ⟨_, _, _, _, rfl, fun _ => rfl⟩

/-- In some steps from `u` the job that does not wait comes to where `t` stands. -/
def laterFollowed (u t : State) : Prop :=
  ∃ (j : Nat) (v : State), core.run j u = .next v ∧ Unhindered v ∧ Follows v t

/-- After the operation `i` of `t`, the job that does not wait is still at its position or has performed that operation
too. -/
def followed (i : Instr) (u t : State) : Prop :=
  ∃ t', exec i t = .next t' ∧ (Follows u t' ∨ ∃ v, exec i u = .next v ∧ Unhindered v ∧ Follows v t')

section
variable {u t : State} (hU : Unhindered u) (h : Follows u t)
include hU h

omit hU in
/-- An operation that reads nothing and ends in `v`. -/
theorem followed_still {i : Instr} {v : State} (hnone : positionReads u = []) (hu : exec i u = .next v)
    (hv : Unhindered v) (hlog : v.readLog = u.readLog) (ht : ∀ x, ∃ y, exec i (withWaitsOf x u) = .next (withWaitsOf y v) ∧
      LeavesReader (withWaitsOf x u) (withWaitsOf y v)) : followed i u t := by
  obtain ⟨x, hx⟩ := h.frame
  obtain ⟨y, e, hr⟩ := ht x
  rw [← hx] at e hr
  exact ⟨_, e, .inr ⟨v, hu, hv, h.still hnone ⟨y, rfl⟩ hr hlog⟩⟩

theorem followed_seed (hph : u.ph = 1#3) (hnone : positionReads u = []) : followed .seed u t := by
  refine followed_still h hnone rfl ?_ rfl fun x => ⟨x, rfl, rfl, rfl, rfl, rfl⟩
  obtain ⟨hr, hi, hq, ha⟩ := hU.quiet
  exact {
    quiet := ⟨hr, hi, hq, ha⟩
    limit := hU.limit
    seeded := fun _ => ⟨rfl, rfl⟩
    progress := by unfold pastSelect; simp
    inMix := nofun
    ended := fun hd => absurd (hU.ended hd) (by rw [hph]; decide) }

theorem followed_selectEmpty (hph : u.ph = 2#3) (h0 : u.N = 0#32) (hnone : positionReads u = []) :
    followed .select u t := by
  obtain ⟨hcur, hL⟩ := hU.seeded hph
  obtain ⟨hr, hi, hq, ha⟩ := hU.quiet
  refine followed_still h hnone (exec_selectEmpty u h0) ?_ rfl fun x => ⟨{ x with fw := 0#32 },
    exec_selectEmpty (withWaitsOf x u) h0, rfl, rfl, rfl, rfl⟩
  exact hU.loop (by rw [hph]; decide) ⟨hr, hi, hq, ha⟩ rfl rfl rfl (by simp [hcur, hL]) (by simp [hcur])

omit hU in
/-- An operation that reads and, where it does not wait, ends in `v`. -/
theorem followed_reads {i : Instr} {fin : List Lanes → State → State} {v : State} (hl : ∀ r ∈ positionReads u, sized r)
    (hu : exec i u = .next v) (hv : Unhindered v) (hlog : v.readLog = u.readLog ++ positionReads u)
    (ht : exec i t = afterAnswers fin (readAll (positionReads u) t)) (hfin : ∀ ls t, LeavesReader t (fin ls t))
    (hframe : ∀ ls x, complete u.bufByte (positionReads u) ls → ∃ y, fin ls (withWaitsOf x u) = withWaitsOf y v) :
    followed i u t := by
  obtain ⟨t', e, hor⟩ := h.reads hl ht hfin hframe hlog
  exact ⟨t', e, hor.imp_right fun hf => ⟨v, hu, hv, hf⟩⟩

theorem followed_select (hph : u.ph = 2#3) (h0 : u.N ≠ 0#32) (hreads : positionReads u = [selectRead u.N.toNat]) :
    followed .select u t := by
  have hN : u.N.toNat ≠ 0 := fun e => h0 (BitVec.eq_of_toNat_eq e)
  have hNt := h.N
  have hv : (selectRead u.N.toNat).v.toNat = min u.N.toNat 4 := by rw [selectRead, BitVec.toNat_ofNat]; omega
  have ht := exec_select_reads t (hNt ▸ h0)
  rw [hNt, ← hreads] at ht
  obtain ⟨hcur, hL⟩ := hU.seeded hph
  obtain ⟨fw, hu⟩ := select_fresh u hU.quiet h0 (by rw [hU.limit]; omega)
  refine followed_reads h (by simp [hreads, selectRead_sized _ hN]) hu ?_ (by rw [hreads]; rfl) ht
    selectWith_leavesReader fun ls x hc => ⟨selectWith ls (withWaitsOf x u), ?_⟩
  · exact hU.loop (by rw [hph]; decide) ⟨hU.quiet.noReset, hU.quiet.noInput, by simp, rfl⟩ rfl rfl rfl
      (by simp [afterReads, hcur, hL]) (by simp [afterReads, hcur])
  · rw [hreads] at hc
    match ls, hc.2 with
    | [l], _ =>
      have hl : l.l0 = u.bufByte 0 := isAnswerTo_lane0 u.bufByte _ l hc.1.1 (by omega) (by omega)
      rw [selectWith, firstLane, hl, choosePath_eq_jobPath u.bufByte _ hN]
      rfl

theorem followed_absorb (p : Path) (hph : u.ph = 3#3) (hL : 12 < u.L.toNat)
    (hreads : positionReads u = blockReads p u.cur 12) : followed (absorbInstr p) u t := by
  have hN := u.N.isLt
  have hcur := h.cur
  have ht := exec_absorb_reads p t
  rw [hcur, ← hreads] at ht
  obtain ⟨hsum, h12⟩ := hU.progress (.inl hph)
  obtain ⟨w0, w1, w2, hu⟩ := absorb_fresh p u hU.quiet (by omega) (by rw [hU.limit]; omega)
  refine followed_reads h (hreads ▸ blockReads_sized p u.cur 12) ((exec_absorbInstr p u).trans hu)
    (hU.added p 12 4#3 w0 w1 w2 hph (.inr (.inl rfl)) fun _ => hL) (by rw [hreads]; rfl) ht
    (fun _ => addWords_leavesReader _ 4#3) fun ls x hc => added_withWaitsOf p 12 4#3 w0 w1 w2 _ x u ?_
  exact addWords_block_acc u.bufByte p u.cur ls _ (by omega) (by rw [readsOf_block, ← hreads]; exact hc)

theorem followed_tail (p : Path) (hph : u.ph = 3#3) (h1 : 1 ≤ u.L.toNat) (h12 : u.L.toNat ≤ 12)
    (hreads : positionReads u = blockReads p u.cur u.L.toNat) : followed (tailInstr p u.L.toNat) u t := by
  have hN := u.N.isLt
  have hcur := h.cur
  have ht := exec_tail_reads p _ h1 h12 t
  rw [hcur, ← hreads] at ht
  obtain ⟨hsum, hmod⟩ := hU.progress (.inl hph)
  obtain ⟨w0, w1, w2, hu⟩ := tail_fresh p _ u h1 h12 hU.quiet (by omega) (by rw [hU.limit]; omega)
  refine followed_reads h (hreads ▸ blockReads_sized p u.cur _) ((exec_tailInstr p _ h1 h12 u).trans hu)
    (hU.added p _ 5#3 w0 w1 w2 hph (.inr (.inr (.inl rfl))) nofun) (by rw [hreads]; rfl) ht
    (fun _ => addWords_leavesReader _ 5#3) fun ls x hc => added_withWaitsOf p _ 5#3 w0 w1 w2 _ x u ?_
  exact addWords_tail_acc u.bufByte p u.cur _ ls _ h1 h12 (by omega)
    (by rw [readsOf_tail p u.cur _ h1 h12, ← hreads]; exact hc)

/-- More than 12 bytes are left in MIX, so neither update of ADV wraps (R27, R216). -/
theorem followed_adv (hph : u.ph = 4#3) (hnone : positionReads u = []) : followed .adv u t := by
  have hN := u.N.isLt
  have hL := hU.inMix hph
  obtain ⟨hsum, h12⟩ := hU.progress (.inr (.inl hph))
  obtain ⟨hr, hi, hq, ha⟩ := hU.quiet
  have hleft : (u.L - Config.block).toNat = u.L.toNat - 12 := by unfold Config.block; bv_omega
  have hcur : (u.cur + Config.block).toNat = u.cur.toNat + 12 := by unfold Config.block; bv_omega
  refine followed_still h hnone rfl ?_ rfl fun x => ⟨x, rfl, rfl, rfl, rfl, rfl⟩
  exact hU.loop (by rw [hph]; decide) ⟨hr, hi, hq, ha⟩ rfl rfl rfl (by dsimp only; omega) (by dsimp only; omega)

theorem followed_emit (hnone : positionReads u = []) : followed .emit u t := by
  obtain ⟨hr, hi, hq, ha⟩ := hU.quiet
  refine followed_still h hnone rfl ?_ rfl fun x => ⟨x, rfl, rfl, rfl, rfl, rfl⟩
  exact {
    quiet := ⟨hr, hi, hq, ha⟩
    limit := hU.limit
    seeded := nofun
    progress := by unfold pastSelect; simp
    inMix := nofun
    ended := fun _ => rfl }

/-- The operations past SELECT that read nothing and leave `cur` and `L` alone: the stages and the empty tail. -/
theorem followed_move {i : Instr} (a b c : Word) (ph st : BitVec 3) (hp : pastSelect u.ph)
    (hnone : positionReads u = []) (hpast : pastSelect ph) (hmix : ph = 4#3 → u.ph = 4#3)
    (hu : exec i u = .next { u with a := a, b := b, c := c, ph := ph, st := st })
    (ht : ∀ x, exec i (withWaitsOf x u) = .next (withWaitsOf x { u with a := a, b := b, c := c, ph := ph, st := st })) :
    followed i u t := by
  obtain ⟨hr, hi, hq, ha⟩ := hU.quiet
  refine followed_still h hnone hu ?_ rfl fun x => ⟨x, ht x, rfl, rfl, rfl, rfl⟩
  exact hU.move hp ⟨hr, hi, hq, ha⟩ rfl rfl rfl rfl rfl hpast fun e => hU.inMix (hmix e)

theorem followed_innerStage (i : Instr) (hph : u.ph = 4#3 ∨ u.ph = 5#3) (hi : isInnerStage i)
    (hnone : positionReads u = []) : followed i u t := by
  obtain ⟨a, b, c, st, hu, ht⟩ := exec_innerStage_withWaitsOf i hi u
  have hp : pastSelect u.ph := hph.elim (fun e => .inr (.inl e)) fun e => .inr (.inr (.inl e))
  exact followed_move hU h a b c u.ph st hp hnone hp id hu ht

theorem followed_f7 (hph : u.ph = 5#3) (hnone : positionReads u = []) : followed .f7 u t :=
  followed_move hU h _ _ _ 6#3 0#3 (.inr (.inr (.inl hph))) hnone (.inr (.inr (.inr rfl))) nofun rfl fun _ => rfl

theorem followed_tailEmpty (p : Path) (hph : u.ph = 3#3) (hnone : positionReads u = []) :
    followed (tailInstr p 0) u t :=
  followed_move hU h _ _ _ 6#3 0#3 (.inl hph) hnone (.inr (.inr (.inr rfl))) nofun (exec_tailInstr_zero p u) fun x =>
    exec_tailInstr_zero p (withWaitsOf x u)

/-- Every operation the dispatch selects (R92). -/
theorem followed_of_standsAt {i : Instr} (hi : StandsAt u i) : followed i u t := by
  cases hi with
  | wait _ hnone => exact followed_still h hnone rfl hU rfl fun x => ⟨x, rfl, rfl, rfl, rfl, rfl⟩
  | seed hph hnone => exact followed_seed hU h hph hnone
  | selectEmpty hph h0 hnone => exact followed_selectEmpty hU h hph h0 hnone
  | select hph h0 hreads => exact followed_select hU h hph h0 hreads
  | absorb p hph _ hL hreads => exact followed_absorb hU h p hph hL hreads
  | tail p hph _ h1 h12 hreads => exact followed_tail hU h p hph h1 h12 hreads
  | tailEmpty p hph hnone => exact followed_tailEmpty hU h p hph hnone
  | innerStage _ hph hin hnone => exact followed_innerStage hU h i hph hin hnone
  | adv hph hnone => exact followed_adv hU h hph hnone
  | f7 hph hnone => exact followed_f7 hU h hph hnone
  | emit _ hnone => exact followed_emit hU h hnone

/-! ## The whole job -/

/-- One step of the job that waits is none or one of the other's. -/
theorem runSequencer_follows {t' : State} (he : runSequencer t = .next t') : laterFollowed u t' := by
  obtain ⟨hrst, hdispatch⟩ : t.rst = false ∧ t.dispatch = u.dispatch := by
    obtain ⟨x, hx⟩ := h.frame
    rw [hx]
    exact ⟨hU.quiet.noReset, rfl⟩
  rw [runSequencer, if_neg (by simp [hrst]), hdispatch] at he
  split at he
  next i hd =>
    obtain ⟨t₁, e, hor⟩ := followed_of_standsAt hU h (decodeDispatch_standsAt hd)
    cases he.symm.trans e
    rcases hor with hf | ⟨v, hu, hv, hf⟩
    · exact ⟨0, u, rfl, hU, hf⟩
    · exact ⟨1, v, run_exec 0 u v i hU.quiet hd hu, hv, hf⟩
  next => cases he

theorem step_follows {t' : State} (he : step t = .next t') : laterFollowed u t' := by
  rw [step, runStep] at he
  split at he
  next => exact runSequencer_follows hU h he
  next e rest ha =>
    have hsub : rest ⊆ t.agenda := by rw [ha]; exact List.subset_cons_self e rest
    obtain rfl | ⟨n, rfl⟩ := h.inputs e (by rw [ha]; exact List.mem_cons_self)
    · exact runSequencer_follows hU (h.input t.served rest hsub) he
    · cases he
      exact ⟨0, u, rfl, hU, h.input n rest hsub⟩

end

/-- A run of more than one step begins with one. -/
theorem run_succ_inv {k : Nat} {s t : State} (h : core.run (k + 1) s = .next t) :
    ∃ u, step s = .next u ∧ core.run k u = .next t := by
  cases hs : step s with
  | next u => exact ⟨u, rfl, (run_succ k s u hs).symm.trans h⟩
  | fault f => simp only [Host.Core.run, show core.step s = .fault f from hs, reduceCtorEq] at h
  | refused r => simp only [Host.Core.run, show core.step s = .refused r from hs, reduceCtorEq] at h

theorem run_follows (k : Nat) {u t t' : State} (hU : Unhindered u) (h : Follows u t) (he : core.run k t = .next t') :
    laterFollowed u t' := by
  induction k generalizing u t with
  | zero =>
    cases he
    exact ⟨0, u, rfl, hU, h⟩
  | succ k ih =>
    obtain ⟨t₁, hs, hrun⟩ := run_succ_inv he
    obtain ⟨i, v, hi, hV, hv⟩ := step_follows hU h hs
    obtain ⟨j, w, hj, hW, hw⟩ := ih hV hv hrun
    exact ⟨i + j, w, (run_add i j u v hi).trans hj, hW, hw⟩

/-- Two runs from one state that both come to rest come to the same state. -/
theorem rest_unique {m n : Nat} {u v w : State} (hm : core.run m u = .next v) (hn : core.run n u = .next w)
    (hv : ∀ k, core.run k v = .next v) (hw : ∀ k, core.run k w = .next w) : v = w := by
  have h₁ := (run_add m n u v hm).trans (hv n)
  have h₂ := (run_add n m u w hn).trans (hw m)
  rw [Nat.add_comm, h₂] at h₁
  cases h₁
  rfl

/-- A job that ends has come to where the one that does not wait is at rest. -/
theorem run_ended_follows (k : Nat) {u t t' : State} (hU : Unhindered u) (h : Follows u t)
    (he : core.run k t = .next t') (hended : t'.DONE = true) :
    ∃ (j : Nat) (v : State), core.run j u = .next v ∧ (∀ n, core.run n v = .next v) ∧
      t'.digest = v.digest ∧ t'.readLog = v.readLog := by
  obtain ⟨j, v, hv, hV, ⟨x, rfl⟩, -, -, hlog, -⟩ := run_follows k hU h he
  have hph : v.ph = 0#3 := hV.ended hended
  refine ⟨j, v, hv, hV.rest hph, rfl, hlog.trans ?_⟩
  rw [positionReads_other (by rw [hph]; decide) (by rw [hph]; decide), List.take_nil, List.append_nil]

/-- Settles O58: a job that waits and the same job without waits end at the same place, the only one where the latter is
at rest, and `job_ends` says what it ends with. -/
theorem digestAndReadsDoNotDependOnTheWaits : Obligations.DigestAndReadsDoNotDependOnTheWaits := by
  intro s t k hph _ hdone hrst hrq hans hin hrun hended
  let u : State := { s with served := Config.offsetSpace, agenda := [] }
  have hlimit : u.limit = 2 ^ 32 := Nat.min_self _
  have hU : Unhindered u := {
    quiet := ⟨hrst, rfl, hrq, hans⟩
    limit := hlimit
    seeded := fun e => by cases hph.symm.trans e
    progress := fun e => absurd e (by rw [show u.ph = 1#3 from hph]; unfold pastSelect; decide)
    inMix := fun e => by cases hph.symm.trans e
    ended := fun e => by cases hdone.symm.trans e }
  have hstart : JobStart u := ⟨hph, hrst, ⟨hrq, hans⟩, rfl, by rw [hlimit]; exact Nat.le_of_lt u.N.isLt⟩
  obtain ⟨w, hw, hend⟩ := job_ends u hstart
  obtain ⟨i, v, hi, hrest, hdigest, hlog⟩ :=
    run_ended_follows k hU (follows_of_fresh ⟨s, rfl⟩ hrq hans rfl hin) hrun hended
  obtain ⟨j, v', hj, hrest', hdigest', hlog'⟩ :=
    run_ended_follows _ hU (follows_of_fresh ⟨u, rfl⟩ hrq hans rfl nofun) hw hend.done
  obtain rfl := rest_unique hi hj hrest hrest'
  exact ⟨hdigest.trans (hdigest'.symm.trans hend.digest), hlog.trans (hlog'.symm.trans hend.log)⟩

end Sys2Proof.Laws
end

section
/-! PROOFS. The round trip of the encoding; the dispatch word by its fields (R91), and the rows of R92 as the words that agree
with the row in the fields it looks at. -/

namespace Sys2Proof.Laws

open Machine

/-! ## Encoding and decoding -/

/-- The round trip of every operation, from the lemma of its constructor. -/
theorem roundTrip : ∀ i : Instr, RoundTrip.Statement i
  | .wait => RoundTrip.wait
  | .seed => RoundTrip.seed
  | .select => RoundTrip.select
  | .absorbW => RoundTrip.absorbW
  | .absorbH => RoundTrip.absorbH
  | .absorbB => RoundTrip.absorbB
  | .tailW12 => RoundTrip.tailW12
  | .tailW11 => RoundTrip.tailW11
  | .tailW10 => RoundTrip.tailW10
  | .tailW9 => RoundTrip.tailW9
  | .tailW8 => RoundTrip.tailW8
  | .tailW7 => RoundTrip.tailW7
  | .tailW6 => RoundTrip.tailW6
  | .tailW5 => RoundTrip.tailW5
  | .tailW4 => RoundTrip.tailW4
  | .tailW3 => RoundTrip.tailW3
  | .tailW2 => RoundTrip.tailW2
  | .tailW1 => RoundTrip.tailW1
  | .tailW0 => RoundTrip.tailW0
  | .tailH12 => RoundTrip.tailH12
  | .tailH11 => RoundTrip.tailH11
  | .tailH10 => RoundTrip.tailH10
  | .tailH9 => RoundTrip.tailH9
  | .tailH8 => RoundTrip.tailH8
  | .tailH7 => RoundTrip.tailH7
  | .tailH6 => RoundTrip.tailH6
  | .tailH5 => RoundTrip.tailH5
  | .tailH4 => RoundTrip.tailH4
  | .tailH3 => RoundTrip.tailH3
  | .tailH2 => RoundTrip.tailH2
  | .tailH1 => RoundTrip.tailH1
  | .tailH0 => RoundTrip.tailH0
  | .tailB12 => RoundTrip.tailB12
  | .tailB11 => RoundTrip.tailB11
  | .tailB10 => RoundTrip.tailB10
  | .tailB9 => RoundTrip.tailB9
  | .tailB8 => RoundTrip.tailB8
  | .tailB7 => RoundTrip.tailB7
  | .tailB6 => RoundTrip.tailB6
  | .tailB5 => RoundTrip.tailB5
  | .tailB4 => RoundTrip.tailB4
  | .tailB3 => RoundTrip.tailB3
  | .tailB2 => RoundTrip.tailB2
  | .tailB1 => RoundTrip.tailB1
  | .tailB0 => RoundTrip.tailB0
  | .m1 => RoundTrip.m1
  | .m2 => RoundTrip.m2
  | .m3 => RoundTrip.m3
  | .m4 => RoundTrip.m4
  | .m5 => RoundTrip.m5
  | .m6 => RoundTrip.m6
  | .adv => RoundTrip.adv
  | .f1 => RoundTrip.f1
  | .f2 => RoundTrip.f2
  | .f3 => RoundTrip.f3
  | .f4 => RoundTrip.f4
  | .f5 => RoundTrip.f5
  | .f6 => RoundTrip.f6
  | .f7 => RoundTrip.f7
  | .emit => RoundTrip.emit
  | .start => RoundTrip.start
  | .wrNop => RoundTrip.wrNop
  | .wrLen v => RoundTrip.wrLen v
  | .wrIgn => RoundTrip.wrIgn
  | .rdCsr => RoundTrip.rdCsr
  | .rdLen => RoundTrip.rdLen
  | .rdDigestLo => RoundTrip.rdDigestLo
  | .rdDigestHi => RoundTrip.rdDigestHi
  | .rd8 off => RoundTrip.rd8 off
  | .rd16 v off => RoundTrip.rd16 v off
  | .rd32 v off => RoundTrip.rd32 v off
  | .add => RoundTrip.add
  | .sub => RoundTrip.sub
  | .xor => RoundTrip.xor
  | .and => RoundTrip.and
  | .rol k => RoundTrip.rol k

/-- Settles O1, constructor by constructor. -/
theorem decodingAnEncodedOperationGivesItBack : Obligations.DecodingAnEncodedOperationGivesItBack := roundTrip

/-! ## The word and its fields -/

theorem append_toNat {m n : Nat} (x : BitVec m) (y : BitVec n) : (x ++ y).toNat = x.toNat * 2 ^ n + y.toNat := by
  rw [BitVec.toNat_append, ← Nat.shiftLeft_add_eq_or_of_lt y.isLt, Nat.shiftLeft_eq]

/-- The word is its fields at their places (R91). -/
theorem pack_toNat (d : DispatchWord) :
    d.pack.toNat = d.ph.toNat * 2 ^ 10 + d.st.toNat * 2 ^ 7 + d.path.toNat * 2 ^ 5 + d.gt12.toNat * 2 ^ 4 +
      d.l4.toNat := by
  simp only [DispatchWord.pack, append_toNat, BitVec.toNat_ofBool]
  ring

theorem pack_unpack (w : BitVec 13) : (DispatchWord.unpack w).pack = w := by
  have hbit : (w.getLsbD 4).toNat = w.toNat / 2 ^ 4 % 2 := Nat.toNat_testBit w.toNat 4
  apply BitVec.eq_of_toNat_eq
  simp only [pack_toNat, DispatchWord.unpack, BitVec.extractLsb'_toNat, Nat.shiftRight_eq_div_pow, hbit]
  omega

/-- The fields of `d` under the fields of a mask. -/
def maskedFields (d m : DispatchWord) : DispatchWord :=
  ⟨d.ph &&& m.ph, d.st &&& m.st, d.path &&& m.path, d.gt12 && m.gt12, d.l4 &&& m.l4⟩

theorem unpack_and (v w : BitVec 13) :
    DispatchWord.unpack (v &&& w) = maskedFields (DispatchWord.unpack v) (DispatchWord.unpack w) := by
  simp only [DispatchWord.unpack, maskedFields, BitVec.extractLsb'_and, BitVec.getLsbD_and]

/-- A word matches a row exactly when its fields do. -/
theorem and_eq_pack_iff (w : BitVec 13) (m p : DispatchWord) :
    w.toNat &&& m.pack.toNat = p.pack.toNat ↔ maskedFields (DispatchWord.unpack w) m = p := by
  rw [← BitVec.toNat_and, BitVec.toNat_inj, ← dispatch_unpack_pack m, ← unpack_and, dispatch_unpack_pack]
  exact ⟨fun h => by rw [h, dispatch_unpack_pack], fun h => by rw [← h, pack_unpack]⟩

theorem and_ones3 (x : BitVec 3) : x &&& 7#3 = x := BitVec.and_allOnes

section
variable (w : BitVec 13) (p : DispatchWord)

/-- The rows that look at the phase alone. -/
theorem matches_phase_iff : w.toNat &&& 0x1c00 = p.ph.toNat * 2 ^ 10 ↔ (DispatchWord.unpack w).ph = p.ph := by
  have h := and_eq_pack_iff w ⟨7#3, 0#3, 0#2, false, 0#4⟩ ⟨p.ph, 0#3, 0#2, false, 0#4⟩
  simpa [pack_toNat, maskedFields, and_ones3] using h

/-- The rows of MIX and FINAL. -/
theorem matches_stage_iff : w.toNat &&& 0x1f80 = p.ph.toNat * 2 ^ 10 + p.st.toNat * 2 ^ 7 ↔
    (DispatchWord.unpack w).ph = p.ph ∧ (DispatchWord.unpack w).st = p.st := by
  have h := and_eq_pack_iff w ⟨7#3, 7#3, 0#2, false, 0#4⟩ ⟨p.ph, p.st, 0#2, false, 0#4⟩
  simpa [pack_toNat, maskedFields, and_ones3] using h

/-- The rows of LOOP with a whole block left. -/
theorem matches_block_iff :
    w.toNat &&& 0x1c70 = p.ph.toNat * 2 ^ 10 + p.path.toNat * 2 ^ 5 + 2 ^ 4 ↔
      (DispatchWord.unpack w).ph = p.ph ∧ (DispatchWord.unpack w).path = p.path ∧
        (DispatchWord.unpack w).gt12 = true := by
  have h := and_eq_pack_iff w ⟨7#3, 0#3, 3#2, true, 0#4⟩ ⟨p.ph, 0#3, p.path, true, 0#4⟩
  have hpath (x : BitVec 2) : x &&& 3#2 = x := BitVec.and_allOnes
  simpa [pack_toNat, maskedFields, and_ones3, hpath] using h

/-- The rows of LOOP with a tail left. -/
theorem matches_tail_iff :
    w.toNat &&& 0x1c7f = p.ph.toNat * 2 ^ 10 + p.path.toNat * 2 ^ 5 + p.l4.toNat ↔
      (DispatchWord.unpack w).ph = p.ph ∧ (DispatchWord.unpack w).path = p.path ∧
        (DispatchWord.unpack w).gt12 = false ∧ (DispatchWord.unpack w).l4 = p.l4 := by
  have h := and_eq_pack_iff w ⟨7#3, 0#3, 3#2, true, 15#4⟩ ⟨p.ph, 0#3, p.path, false, p.l4⟩
  have hpath (x : BitVec 2) : x &&& 3#2 = x := BitVec.and_allOnes
  have hl4 (x : BitVec 4) : x &&& 15#4 = x := BitVec.and_allOnes
  simpa [pack_toNat, maskedFields, and_ones3, hpath, hl4] using h

end

/-! ## The rows of R92 -/

theorem decodeMix_row (n : Nat) (i : Instr) (h : decodeMix n = .ok i) :
    i.row = ⟨.seq, 4 * 2 ^ 10 + n * 2 ^ 7, 0x1f80⟩ := by
  unfold decodeMix at h
  split at h <;> cases h <;> rfl

theorem decodeFinal_row (n : Nat) (i : Instr) (h : decodeFinal n = .ok i) :
    i.row = ⟨.seq, 5 * 2 ^ 10 + n * 2 ^ 7, 0x1f80⟩ := by
  unfold decodeFinal at h
  split at h <;> cases h <;> rfl

theorem absorbInstr_row (p : Path) :
    (absorbInstr p).row = ⟨.seq, 3 * 2 ^ 10 + p.code.toNat * 2 ^ 5 + 2 ^ 4, 0x1c70⟩ := by
  cases p <;> rfl

theorem tailInstr_row (p : Path) (n : Nat) (hn : n ≤ 12) :
    (tailInstr p n).row = ⟨.seq, 3 * 2 ^ 10 + p.code.toNat * 2 ^ 5 + n, 0x1c7f⟩ := by
  cases p <;> interval_cases n <;> rfl

/-- The word lies in the operation's row, and every word of that row selects the operation. -/
structure InRow (w : BitVec 13) (i : Instr) : Prop where
  lies : w.toNat &&& i.row.mask = i.row.pattern
  selects : ∀ v : BitVec 13, v.toNat &&& i.row.mask = i.row.pattern → decodeSeq v = .ok i

/-- Where the phase alone is looked at. -/
theorem inRow_of_phase {w : BitVec 13} {i : Instr} (h : decodeSeq w = .ok i)
    (hrow : i.row = ⟨.seq, (DispatchWord.unpack w).ph.toNat * 2 ^ 10, 0x1c00⟩)
    (hsame : ∀ d : DispatchWord, d.ph = (DispatchWord.unpack w).ph →
      decodeDispatch d = decodeDispatch (DispatchWord.unpack w)) : InRow w i where
  lies := by rw [hrow]; exact (matches_phase_iff w _).2 rfl
  selects v hv := by
    rw [hrow] at hv
    exact (hsame _ ((matches_phase_iff v _).1 hv)).trans h

/-- In MIX and FINAL the stage is looked at too. -/
theorem inRow_of_stage {w : BitVec 13} {i : Instr} (h : decodeSeq w = .ok i)
    (hrow : i.row = ⟨.seq, (DispatchWord.unpack w).ph.toNat * 2 ^ 10 + (DispatchWord.unpack w).st.toNat * 2 ^ 7, 0x1f80⟩)
    (hsame : ∀ d : DispatchWord, d.ph = (DispatchWord.unpack w).ph → d.st = (DispatchWord.unpack w).st →
      decodeDispatch d = decodeDispatch (DispatchWord.unpack w)) : InRow w i where
  lies := by rw [hrow]; exact (matches_stage_iff w _).2 ⟨rfl, rfl⟩
  selects v hv := by
    rw [hrow] at hv
    obtain ⟨hph, hst⟩ := (matches_stage_iff v _).1 hv
    exact (hsame _ hph hst).trans h

/-- In LOOP the path is looked at, and that more than 12 bytes are left. -/
theorem inRow_absorb {w : BitVec 13} (p : Path) (hph : (DispatchWord.unpack w).ph = 3#3)
    (hp : (DispatchWord.unpack w).path = p.code) (hg : (DispatchWord.unpack w).gt12 = true) :
    InRow w (absorbInstr p) where
  lies := by
    rw [absorbInstr_row]
    exact (matches_block_iff w ⟨3#3, 0#3, p.code, true, 0#4⟩).2 ⟨hph, hp, hg⟩
  selects v hv := by
    rw [absorbInstr_row] at hv
    obtain ⟨hph, hp, hg⟩ := (matches_block_iff v ⟨3#3, 0#3, p.code, true, 0#4⟩).1 hv
    exact decodeDispatch_absorb p _ hph hp hg

/-- With a tail left its length is looked at. -/
theorem inRow_tail {w : BitVec 13} (p : Path) (l4 : BitVec 4) (h12 : l4.toNat ≤ 12)
    (hph : (DispatchWord.unpack w).ph = 3#3) (hp : (DispatchWord.unpack w).path = p.code)
    (hg : (DispatchWord.unpack w).gt12 = false) (hl : (DispatchWord.unpack w).l4 = l4) :
    InRow w (tailInstr p l4.toNat) where
  lies := by
    rw [tailInstr_row p _ h12]
    exact (matches_tail_iff w ⟨3#3, 0#3, p.code, false, l4⟩).2 ⟨hph, hp, hg, hl⟩
  selects v hv := by
    rw [tailInstr_row p _ h12] at hv
    obtain ⟨hph, hp, hg, hl⟩ := (matches_tail_iff v ⟨3#3, 0#3, p.code, false, l4⟩).1 hv
    exact decodeDispatch_tail p _ h12 _ hph hp hg (congrArg BitVec.toNat hl)

/-- What a dispatch word selects, every word of its row selects (R92). -/
theorem decodeSeq_inRow {w : BitVec 13} {i : Instr} (h : decodeSeq w = .ok i) : InRow w i := by
  have hd := h
  unfold decodeSeq decodeDispatch at hd
  split at hd
  case h_1 e | h_2 e | h_3 e | h_7 e =>
    cases hd
    exact inRow_of_phase h (by rw [e]; rfl) fun d hd => by simp only [decodeDispatch, hd, e]
  case h_4 e =>
    have hph := BitVec.eq_of_toNat_eq (y := 3#3) e
    obtain ⟨p, hp, ⟨hg, rfl⟩ | ⟨hg, h12, rfl⟩⟩ := decodeLoop_rows _ _ _ _ hd
    · exact inRow_absorb p hph hp hg
    · exact inRow_tail p _ h12 hph hp hg rfl
  case h_5 e =>
    refine inRow_of_stage h (by rw [e]; exact decodeMix_row _ _ hd) fun d hph hst => ?_
    simp only [decodeDispatch, hph, hst, e]
  case h_6 e =>
    refine inRow_of_stage h (by rw [e]; exact decodeFinal_row _ _ hd) fun d hph hst => ?_
    simp only [decodeDispatch, hph, hst, e]
  case h_8 => cases hd

/-- The word the encoder gives a sequencer operation selects it (R91). -/
theorem decodeSeq_encode (i : Instr) (h : i.format = .seq) : decodeSeq (BitVec.ofNat 13 (encode i)) = .ok i := by
  have hwf : i.wf = true := by cases i <;> cases h <;> rfl
  obtain ⟨hlt, hd⟩ := decodingAnEncodedOperationGivesItBack i hwf
  rw [h] at hlt hd
  simpa only [decode, if_neg (Nat.not_le.2 hlt)] using hd

/-- Settles O3: a word the decoder gives the operation for lies in its row, and so does the word the encoder gives, which
every other word of the row decodes like. -/
theorem dispatchWordSelectsTheRowItMatches : Obligations.DispatchWordSelectsTheRowItMatches := by
  intro w i
  constructor
  · exact fun h => ⟨decodeDispatch_format _ i h, (decodeSeq_inRow h).lies⟩
  · rintro ⟨hf, hm⟩
    exact (decodeSeq_inRow (decodeSeq_encode i hf)).selects w hm

/-! ## The dispatch word of a state, and the reserved words -/

theorem dispatch_l4_toNat (s : State) : s.dispatch.l4.toNat = s.L.toNat % 16 := by
  show (s.L.extractLsb' 0 4).toNat = _
  rw [BitVec.extractLsb'_toNat, Nat.shiftRight_zero]

/-- Settles O4: each field stands at its place in the word. -/
theorem dispatchWordIsMadeOfTheRegisters : Obligations.DispatchWordIsMadeOfTheRegisters := by
  intro s
  refine ⟨?_, dispatch_unpack_pack s.dispatch⟩
  have hgt : s.dispatch.gt12.toNat * 2 ^ 4 = if 12 < s.L.toNat then 2 ^ 4 else 0 := by
    show (decide (12 < s.L.toNat)).toNat * 2 ^ 4 = _
    by_cases h : 12 < s.L.toNat <;> simp [h]
  rw [pack_toNat, hgt, dispatch_l4_toNat]
  rfl

/-- The rows of LOOP that are missing (R99). -/
theorem decodeLoop_reserved_iff (path : BitVec 2) (g : Bool) (l4 : BitVec 4) :
    decodeLoop path g l4 = .error .reservedDispatch ↔ path = 3#2 ∨ (g = false ∧ 13 ≤ l4.toNat) := by
  revert path g l4
  decide

/-- Settles O8: the phases one by one; in MIX and FINAL the missing row is stage 0. -/
theorem reservedDispatchWordsAreTheOnesListed : Obligations.ReservedDispatchWordsAreTheOnesListed := by
  rintro ⟨ph, st, path, gt12, l4⟩
  have hmix : ∀ st : BitVec 3, decodeMix st.toNat = .error .reservedDispatch ↔ st = 0#3 := by decide
  have hfinal : ∀ st : BitVec 3, decodeFinal st.toNat = .error .reservedDispatch ↔ st = 0#3 := by decide
  have hph : ph = 0#3 ∨ ph = 1#3 ∨ ph = 2#3 ∨ ph = 3#3 ∨ ph = 4#3 ∨ ph = 5#3 ∨ ph = 6#3 ∨ ph = 7#3 := by
    revert ph
    decide
  rcases hph with rfl | rfl | rfl | rfl | rfl | rfl | rfl | rfl <;>
    simp [decodeDispatch, decodeLoop_reserved_iff, hmix, hfinal]

end Sys2Proof.Laws
end

section
/-! PROOFS. The words of the host, of the reader and of the ALU (R95, R96, R97), and words written out from the tables. -/

namespace Sys2Proof.Laws

open Machine

/-- Settles O5, row by row of the table; the lemmas on the fields take the word apart. -/
theorem hostWordSelectsOneOfEightOperations : Obligations.HostWordSelectsOneOfEightOperations := by
  intro we idx wdata
  have hlow : wdata.getLsbD 0 = decide (wdata.toNat % 2 = 1) := Nat.testBit_zero wdata.toNat
  have hidx : idx = 0#2 ∨ idx = 1#2 ∨ idx = 2#2 ∨ idx = 3#2 := by
    revert idx
    decide
  unfold decodeHost
  rw [host_we, host_idx, host_wdata, host_start, hlow]
  rcases hidx with rfl | rfl | rfl | rfl <;> cases we <;> simp

/-- What R96 asks of a request, as the statement has it. -/
theorem legal_iff (size : BitVec 2) (v : BitVec 3) (off : Word) : ReadReq.legal ⟨size, v, off⟩ = true ↔
    size ≠ 3#2 ∧ 1 ≤ v.toNat ∧ v.toNat ≤ 2 ^ size.toNat ∧ off.toNat % 2 ^ size.toNat = 0 := by
  simp only [ReadReq.legal, Bool.and_eq_true, bne_iff_ne, decide_eq_true_eq, beq_iff_eq, and_assoc]
  rfl

/-- Settles O6: the decoder gives the operation of a legal request and rejects the others. -/
theorem requestWordSelectsAReaderOperation : Obligations.RequestWordSelectsAReaderOperation := by
  intro size v off i
  rw [decodeRead, unpack_append, ← legal_iff]
  cases hl : ReadReq.legal ⟨size, v, off⟩ with
  | false =>
    obtain ⟨e, he⟩ := decodeReadReq_illegal _ hl
    simp only [he, reduceCtorEq, Bool.false_eq_true, false_and]
  | true => simp only [decodeReadReq_legal _ hl, Except.ok.injEq, true_and, eq_comm]

/-- Settles O7, by the value of `fn`. -/
theorem aluWordSelectsAFunction : Obligations.AluWordSelectsAFunction := by
  intro fn k
  have hfn : (fn ++ k).extractLsb' 5 3 = fn := BitVec.extractLsb'_append_eq_left
  have hcases : fn = 0#3 ∨ fn = 1#3 ∨ fn = 2#3 ∨ fn = 3#3 ∨ fn = 4#3 ∨ fn = 5#3 ∨ fn = 6#3 ∨ fn = 7#3 := by
    clear hfn
    revert fn
    decide
  unfold decodeAlu
  rw [hfn, extract_low]
  rcases hcases with rfl | rfl | rfl | rfl | rfl | rfl | rfl | rfl <;> rfl

/-- Settles O9: the decoders evaluated on the twenty-seven words. -/
theorem wordsOfTheSpecDecodeAsWritten : Obligations.WordsOfTheSpecDecodeAsWritten := by
  unfold Obligations.WordsOfTheSpecDecodeAsWritten
  decide

end Sys2Proof.Laws
end

section
/-! PROOFS. A step runs the operation of its agent's word, or stops by name where the word is reserved (R92, R99); and under
the invariant it never stops with a fault. -/

namespace Sys2Proof.Laws

open Machine

/-! ## A step is that of its agent -/

theorem step_of_noInput {s : State} (h : s.agenda = []) : step s = runSequencer s := by
  simp only [step, runStep, h]

theorem step_of_input {s : State} {e : Event} {rest : List Event} (h : s.agenda = e :: rest) :
    step s = runEvent e { s with agenda := rest } := by
  simp only [step, runStep, h]

section
variable {s : State} (hr : s.rst = false)
include hr

theorem runSequencer_ok {i : Instr} (hd : decodeDispatch s.dispatch = .ok i) : runSequencer s = exec i s := by
  simp only [runSequencer, hr, hd, Bool.false_eq_true, if_false]

theorem runSequencer_error {e : DecodeError} (hd : decodeDispatch s.dispatch = .error e) :
    runSequencer s = .fault .stuckReservedDispatch := by
  simp only [runSequencer, hr, hd, Bool.false_eq_true, if_false]

theorem runHost_eq (hw : BitVec 35) : runHost hw s = exec (decodeHost hw) s := by
  simp only [runHost, hr, Bool.false_eq_true, if_false]

theorem runRead_ok {rr : BitVec 37} {i : Instr} (hd : decodeRead rr = .ok i) : runRead rr s = exec i s := by
  simp only [runRead, hr, hd, Bool.false_eq_true, if_false]

theorem runRead_error {rr : BitVec 37} {e : DecodeError} (hd : decodeRead rr = .error e) :
    runRead rr s = .refused .reservedReadRequest := by
  simp only [runRead, hr, hd, Bool.false_eq_true, if_false]

theorem runAlu_ok {aw : BitVec 8} {i : Instr} (x y : Word) (hd : decodeAlu aw = .ok i) :
    runAlu aw x y s = exec i { s with aluX := x, aluY := y } := by
  simp only [runAlu, hr, hd, Bool.false_eq_true, if_false]

theorem runAlu_error {aw : BitVec 8} {e : DecodeError} (x y : Word) (hd : decodeAlu aw = .error e) :
    runAlu aw x y s = .refused .reservedAluControl := by
  simp only [runAlu, hr, hd, Bool.false_eq_true, if_false]

end

/-- Settles O10, agent by agent: taking the input off the agenda leaves the dispatch word and the reset input alone. -/
theorem stepRunsTheSelectedOperation : Obligations.StepRunsTheSelectedOperation := by
  intro s rest i hr
  have hr' : State.rst { s with agenda := rest } = false := hr
  refine ⟨fun ha hd => ?_, fun ha hd => ?_, fun hw ha => ?_, fun rr ha hd => ?_, fun aw x y ha hd => ?_⟩
  · rw [step_of_noInput ha, runSequencer_ok hr hd]
  · exact (step_of_input ha).trans (runSequencer_ok hr' hd)
  · exact (step_of_input ha).trans (runHost_eq hr' hw)
  · exact (step_of_input ha).trans (runRead_ok hr' hd)
  · exact (step_of_input ha).trans (runAlu_ok hr' x y hd)

/-- Settles O11, agent by agent, for the words the decoders reject. -/
theorem reservedWordsStopByName : Obligations.ReservedWordsStopByName := by
  intro s rest e hr
  have hr' : State.rst { s with agenda := rest } = false := hr
  refine ⟨fun ha hd => ?_, fun ha hd => ?_, fun rr ha hd => ?_, fun aw x y ha hd => ?_⟩
  · rw [step_of_noInput ha, runSequencer_error hr hd]
  · exact (step_of_input ha).trans (runSequencer_error hr' hd)
  · exact (step_of_input ha).trans (runRead_error hr' hd)
  · exact (step_of_input ha).trans (runAlu_error hr' x y hd)

/-! ## No operation stops -/

theorem afterAnswers_next (fin : List Lanes → State → State) (o : ReadOutcome (List Lanes)) :
    ∃ t, afterAnswers fin o = .next t := by
  cases o <;> exact ⟨_, rfl⟩

/-- A sequencer operation answers a next state, which is the waiting one where a read is not answered (R68, R250). -/
theorem exec_seq_next (i : Instr) (hi : i.format = .seq) (s : State) : ∃ t, exec i s = .next t := by
  obtain ⟨d, hrow⟩ := seq_dispatchRow i hi
  cases hrow with
  | wait | seed | adv | f7 | emit => exact ⟨_, rfl⟩
  | select =>
    by_cases h0 : s.N = 0#32
    · exact ⟨_, exec_selectEmpty s h0⟩
    · rw [exec_select_reads s h0]
      exact afterAnswers_next _ _
  | absorb p =>
    rw [exec_absorb_reads]
    exact afterAnswers_next _ _
  | tail p n _ _ _ _ h12 =>
    by_cases h0 : n = 0
    · rw [h0]
      exact ⟨_, exec_tailInstr_zero p s⟩
    · rw [exec_tail_reads p n (by omega) h12]
      exact afterAnswers_next _ _
  | innerStage _ _ hin =>
    obtain ⟨a, b, c, st, he, -⟩ := exec_innerStage i hin s
    exact ⟨_, he⟩

/-- Every operation answers a next state, in every state (R247, R250). -/
theorem exec_next (i : Instr) (s : State) : ∃ t, exec i s = .next t := by
  cases hf : i.format with
  | seq => exact exec_seq_next i hf s
  | host =>
    by_cases hs : i = .start
    · subst hs
      cases hb : s.BUSY
      · exact ⟨_, if_neg (by simp [hb])⟩
      · exact ⟨_, if_pos hb⟩
    · obtain ⟨LEN, rdata, draws, he, -⟩ := exec_host i hf hs s
      exact ⟨_, he⟩
  | rdreq =>
    obtain ⟨r, he⟩ := exec_rdreq i hf
    rw [he]
    rcases readAlone_cases r s with ⟨-, e⟩ | ⟨t, -, ⟨-, -, e⟩ | ⟨-, e⟩⟩ <;> exact ⟨_, e⟩
  | alu =>
    obtain ⟨x, he⟩ := exec_alu i hf s
    exact ⟨_, he⟩

theorem exec_ne_fault (i : Instr) (s : State) (f : Fault) : exec i s ≠ .fault f := by
  obtain ⟨t, he⟩ := exec_next i s
  rw [he]
  nofun

/-! ## No fault under the invariant -/

/-- The invariant excludes each of the reserved words (R99). -/
theorem inv_not_reserved {s : State} (h : Inv s) : decodeDispatch s.dispatch ≠ .error .reservedDispatch := by
  obtain ⟨h7, hst, -⟩ := h.position
  obtain ⟨-, hl4⟩ := dispatch_L s
  rw [Ne, reservedDispatchWordsAreTheOnesListed s.dispatch]
  rintro (hph | ⟨hph, h0⟩ | ⟨hph, h0⟩ | ⟨hph, hp⟩ | ⟨-, hg, h13⟩)
  · exact h7 hph
  · exact hst (.inl hph) h0
  · exact hst (.inr hph) h0
  · have hne : ∀ x : BitVec 2, pathOfBits x ≠ 3#2 := by unfold pathOfBits; decide
    exact hne _ ((h.pathChosen (.inl (.inl hph))).symm.trans hp)
  · have hL : ¬12 < s.L.toNat := of_decide_eq_false hg
    have := hl4 hg
    omega

/-- The only error of the dispatch is the reserved word. -/
theorem decodeDispatch_error {d : DispatchWord} {e : DecodeError} (h : decodeDispatch d = .error e) :
    e = .reservedDispatch := by
  simp only [decodeDispatch, decodeLoop, decodeTailW, decodeTailH, decodeTailB, decodeMix, decodeFinal] at h
  (repeat' split at h) <;> cases h <;> rfl

theorem inv_runSequencer_ne_fault {s : State} (h : Inv s) (f : Fault) : runSequencer s ≠ .fault f := by
  cases hr : s.rst with
  | true => simp [runSequencer, hr]
  | false =>
    cases hd : decodeDispatch s.dispatch with
    | ok i =>
      rw [runSequencer_ok hr hd]
      exact exec_ne_fault i s f
    | error e => exact absurd (decodeDispatch_error hd ▸ hd) (inv_not_reserved h)

/-- No other agent can fault (R99). -/
theorem runEvent_ne_fault {e : Event} (he : e ≠ .sequencer) (s : State) (f : Fault) : runEvent e s ≠ .fault f := by
  intro hf
  cases e
  case sequencer => exact he rfl
  case host hw =>
    simp only [runEvent, runHost, hostDuringReset] at hf
    split at hf
    · split at hf <;> cases hf
    · exact exec_ne_fault _ _ f hf
  case read | alu =>
    simp only [runEvent, runRead, runAlu] at hf
    split at hf
    · cases hf
    · split at hf
      · exact exec_ne_fault _ _ f hf
      · cases hf
  case writeBuffer off v =>
    simp only [runEvent, writeBuffer] at hf
    split at hf <;> cases hf
  case assertReset | releaseReset | serve => cases hf

/-- Settles O49: the sequencer alone can fault, at a reserved word, and the invariant excludes those. -/
theorem noFaultUnderTheInvariant : Obligations.NoFaultUnderTheInvariant := by
  intro s f h
  cases ha : s.agenda with
  | nil =>
    rw [step_of_noInput ha]
    exact inv_runSequencer_ne_fault h f
  | cons e rest =>
    rw [step_of_input ha]
    by_cases he : e = .sequencer
    · subst he
      exact inv_runSequencer_ne_fault (inv_of_ports h s.LEN s.rdata s.aluX s.aluY s.aluOut s.draws s.served rest
        fun hrst => (h.held hrst).2.2.1) f
    · exact runEvent_ne_fault he _ f

end Sys2Proof.Laws
end

section
/-! PROOFS. The ALU (R120 to R126): what each word function is as an integer or bit by bit, and what its operation sets. -/

namespace Sys2Proof.Laws

open Machine

/-! ## The word functions -/

theorem add32_toNat (x y : Word) : (add32 x y).toNat = (x.toNat + y.toNat) % 2 ^ 32 := BitVec.toNat_add x y

theorem sub32_toNat (x y : Word) : (sub32 x y).toNat = (x.toNat + 2 ^ 32 - y.toNat) % 2 ^ 32 := by
  have hy : y.toNat < 2 ^ 32 := y.isLt
  rw [sub32, BitVec.toNat_sub, Nat.add_sub_assoc hy.le, Nat.add_comm]

theorem xor32_getLsbD (x y : Word) (j : Nat) : (xor32 x y).getLsbD j = (x.getLsbD j != y.getLsbD j) :=
  BitVec.getLsbD_xor

theorem and32_getLsbD (x y : Word) (j : Nat) : (and32 x y).getLsbD j = (x.getLsbD j && y.getLsbD j) :=
  BitVec.getLsbD_and

theorem add32_comm (x y : Word) : add32 x y = add32 y x := BitVec.add_comm x y

theorem add32_assoc (x y z : Word) : add32 (add32 x y) z = add32 x (add32 y z) := BitVec.add_assoc x y z

theorem add32_eq_or (x y : Word) (h : and32 x y = 0#32) : add32 x y = x ||| y := BitVec.add_eq_or_of_and_eq_zero x y h

/-- Where no bit is 1 in both words, the two functions agree on each bit. -/
theorem or_eq_xor32 (x y : Word) (h : and32 x y = 0#32) : x ||| y = xor32 x y := by
  apply BitVec.eq_of_getLsbD_eq
  intro j _
  have hj : (x.getLsbD j && y.getLsbD j) = false := by rw [← and32_getLsbD, h, BitVec.getLsbD_zero]
  rw [BitVec.getLsbD_or, xor32_getLsbD]
  revert hj
  cases x.getLsbD j <;> cases y.getLsbD j <;> decide

/-! ## The rotation -/

theorem rol32_zero (x : Word) : rol32 x 0 = x := rfl

/-- Bit `j` stays below the top and moves up by `k`, or passes it and comes back in at the bottom (R124). -/
theorem rol32_getLsbD (x : Word) (k j : Nat) (hk : k < 32) (hj : j < 32) :
    (rol32 x k).getLsbD ((j + k) % 32) = x.getLsbD j := by
  obtain rfl | h1 := Nat.eq_zero_or_pos k
  · rw [rol32_zero, Nat.add_zero, Nat.mod_eq_of_lt hj]
  rw [rol32_eq x k h1 hk, BitVec.getLsbD_rotateLeft_of_le hk]
  by_cases hw : j + k < 32
  · have hlow : ¬j + k < k := by omega
    rw [Nat.mod_eq_of_lt hw, decide_eq_false hlow, decide_eq_true hw, Nat.add_sub_cancel]
    rfl
  · have hmod : (j + k) % 32 = j + k - 32 := by omega
    have hlow : j + k - 32 < k := by omega
    have hback : 32 - k + (j + k - 32) = j := by omega
    rw [hmod, decide_eq_true hlow, cond_true, hback]

/-- The formula of R124; the part shifted down is below `2^32` already. -/
theorem rol32_toNat (x : Word) (k : Nat) (h : k ≠ 0) :
    (rol32 x k).toNat = (x.toNat * 2 ^ k ||| x.toNat / 2 ^ (32 - k)) % 2 ^ 32 := by
  have hlow : x.toNat / 2 ^ (32 - k) < 2 ^ 32 := (Nat.div_le_self _ _).trans_lt x.isLt
  rw [rol32, if_neg h, BitVec.toNat_or, BitVec.toNat_shiftLeft, BitVec.toNat_ushiftRight, Nat.shiftLeft_eq,
    Nat.shiftRight_eq_div_pow, Nat.or_mod_two_pow, Nat.mod_eq_of_lt hlow]

/-! ## The operations -/

/-- Settles O39: the control words by O7, the results by the law of each word function. -/
theorem aluAddSubXorAnd : Obligations.AluAddSubXorAnd := by
  refine ⟨fun k => ?_, fun s => ⟨_, _, _, _, rfl, rfl, rfl, rfl, rfl, rfl, rfl, rfl, add32_toNat _ _, sub32_toNat _ _,
    fun j _ => ⟨xor32_getLsbD _ _ j, and32_getLsbD _ _ j⟩⟩⟩
  exact ⟨aluWordSelectsAFunction 0#3 k, aluWordSelectsAFunction 1#3 k, aluWordSelectsAFunction 2#3 k,
    aluWordSelectsAFunction 3#3 k⟩

/-- Settles O40: the control word by O7, the result by the laws of `rol32`. -/
theorem rolMovesEachBitLeft : Obligations.RolMovesEachBitLeft := by
  refine ⟨aluWordSelectsAFunction 4#3, fun s k => ⟨_, rfl, rfl, fun j hj => ?_, fun hk => ?_, fun hk => ?_⟩⟩
  · exact rol32_getLsbD s.aluX k.toNat j k.isLt hj
  · exact rol32_toNat s.aluX k.toNat fun h0 => hk (BitVec.eq_of_toNat_eq h0)
  · subst hk
    exact rol32_zero s.aluX

/-- Settles O41, by the laws of `add32`. -/
theorem aluSumsOfDisjointWordsAreTheirUnion : Obligations.AluSumsOfDisjointWordsAreTheirUnion := fun x y z =>
  ⟨add32_comm x y, add32_assoc x y z,
    fun h => ⟨add32_eq_or x y h, (add32_eq_or x y h).trans (or_eq_xor32 x y h)⟩⟩

end Sys2Proof.Laws
end

section
/-! PROOFS. The word reader (R130 to R139): what a request run alone returns, and the word each path composes. -/

namespace Sys2Proof.Laws

open Machine

/-! ## A request run alone -/

/-- A request run alone while none is outstanding, and answered. -/
theorem readAlone_served (r : ReadReq) (s : State) (hq : s.rq = none) (hr : r.off.toNat + r.v.toNat ≤ s.limit) :
    readAlone r s = .next { s with
      rq := none, rqAlone := false, readLog := s.readLog ++ [r], draws := s.draws + 1,
      readData := memReadV s s.nextFree r } := by
  have hrecv : receive s = some s := by simp only [receive, hq]
  have hown : ¬(s.rqAlone && decide (s.rq = some r)) = true := by simp [hq]
  rw [readAlone, hrecv]
  simp only [if_neg hown, requestAlone_eq, (serves_iff s r).2 hr, if_true]

/-- A whole answer is the buffer's word (R130: `MemRead`). -/
theorem isAnswerTo_word_eq (buf : Nat → Byte) (r : ReadReq) (l : Lanes) (h : isAnswerTo buf r l) (h1 : 1 ≤ r.v.toNat)
    (h4 : r.v.toNat ≤ 4) (hb : r.v.toNat = r.bytes) : l.word = bufWord buf r.off.toNat r.v.toNat :=
  BitVec.eq_of_toNat_eq ((isAnswerTo_whole buf r l h h1 h4 hb).trans (bufWord_toNat buf _ _ h4).symm)

/-- Settles O36: the words are those of legal requests, and an operation returns the answer to its request. -/
theorem readerOperationsReturnBufferBytes : Obligations.ReaderOperationsReturnBufferBytes := by
  refine ⟨fun off => ⟨?_, fun hal => ?_, fun v h1 h4 hal => ?_⟩, fun s off hq => ⟨fun hlim => ?_, fun v h1 h2 hlim => ?_,
    fun v h1 h4 hlim => ?_⟩⟩
  · exact RoundTrip.decodeRead_legal 0#2 1#3 off
      ((legal_iff 0#2 1#3 off).2 ⟨by decide, by decide, by decide, Nat.mod_one _⟩)
  · exact RoundTrip.decodeRead_legal 1#2 2#3 off ((legal_iff 1#2 2#3 off).2 ⟨by decide, by decide, by decide, hal⟩)
  · exact RoundTrip.decodeRead_legal 2#2 v off ((legal_iff 2#2 v off).2 ⟨by decide, h1, h4, hal⟩)
  · have ha := answerLanes_isAnswerTo s s.nextFree (rd8Req off) (rd8Req_sized off)
    refine ⟨_, readAlone_served (rd8Req off) s hq hlim, ?_⟩
    rw [memReadV, isAnswerTo_word_eq s.bufByte _ _ ha (Nat.le_refl 1) (show 1 ≤ 4 by decide) rfl]
    rfl
  · have ha := answerLanes_isAnswerTo s s.nextFree ⟨1#2, v, off⟩ ⟨show 1#2 ≠ 3#2 by decide, h1, h2⟩
    refine ⟨_, readAlone_served ⟨1#2, v, off⟩ s hq hlim, rfl, ha.2, ha.1, fun hv => ?_⟩
    subst hv
    exact isAnswerTo_word_eq s.bufByte _ _ ha h1 (show 2 ≤ 4 by decide) rfl
  · have ha := answerLanes_isAnswerTo s s.nextFree ⟨2#2, v, off⟩ ⟨show 2#2 ≠ 3#2 by decide, h1, h4⟩
    refine ⟨_, readAlone_served ⟨2#2, v, off⟩ s hq hlim, rfl, ha.1, fun hv => ?_⟩
    subst hv
    exact isAnswerTo_word_eq s.bufByte _ _ ha h1 h4 rfl

/-! ## The composed word -/

/-- One word's reads are those of its bytes, a tail of one word. -/
theorem wordReads_eq_blockReads (p : Path) (o : Word) (v : Nat) (h1 : 1 ≤ v) (h4 : v ≤ 4) :
    wordReads p o v = blockReads p o v := by
  have hw : tailWords o v = [(o, v)] := by rw [tailWords, if_neg (by omega), if_pos h4]
  rw [← readsOf_tail p o v h1 (by omega), hw, readsOf, List.flatMap_singleton]

/-- Settles O37: the reads answered are complete, whether begun or taken up again, and complete answers compose to the
buffer's word. -/
theorem everyPathComposesTheSameWord : Obligations.EveryPathComposesTheSameWord := by
  intro p s t o v ls h1 h4 ho hu ha he
  have hl : ∀ r ∈ wordReads p o v, sized r := wordReads_eq_blockReads p o v h1 h4 ▸ blockReads_sized p o v
  have hc : complete s.bufByte (wordReads p o v) ls := by
    rcases readAll_underway _ s hu ha hl with ⟨-, ms, hc, e⟩ | ⟨pre, r, post, -, -, -, e, -⟩
    · cases e.symm.trans he
      exact hc
    · cases e.symm.trans he
  refine ⟨?_, fun hp => composeWord_eq s.bufByte p o v ls hp.symm h1 h4 ho hc⟩
  rw [← maskedWord_eq p v ls (complete_wordReads_ne s.bufByte p o v ls hc) h1 h4,
    maskedWord_value s.bufByte p o v ls h1 h4 ho hc]

end Sys2Proof.Laws
end

section
/-! PROOFS. SEED and SELECT (R140 to R143): the rows of their phases, what SEED loads, and what SELECT makes of the answer
to its read. -/

namespace Sys2Proof.Laws

open Machine

/-! ## SEED -/

theorem decodeDispatch_seed (d : DispatchWord) (hph : d.ph = 1#3) : decodeDispatch d = .ok .seed := by
  rw [decodeDispatch, hph]
  rfl

/-- The seed as an integer (R120, R140). -/
theorem add32_seedK (N : Word) : add32 Config.seedK N = BitVec.ofNat 32 ((0xdeadbeef + N.toNat) % 2 ^ 32) := by
  apply BitVec.eq_of_toNat_eq
  rw [add32_toNat, BitVec.toNat_ofNat, Nat.mod_mod]
  rfl

/-- Settles O17: the word SEED loads is the seed, whose sum is taken modulo 2^32. -/
theorem seedLoadsTheAccumulators : Obligations.SeedLoadsTheAccumulators := by
  refine ⟨decodeDispatch_seed, fun s => ?_⟩
  rw [← add32_seedK]
  rfl

/-! ## SELECT -/

theorem decodeDispatch_select (d : DispatchWord) (hph : d.ph = 2#3) : decodeDispatch d = .ok .select := by
  rw [decodeDispatch, hph]
  rfl

/-- The reads of an operation under way, all of them served: no request is made again that was answered before (R68). -/
theorem readAll_served (rs : List ReadReq) (s : State) (hu : Underway rs s) (ha : s.rqAlone = false)
    (hl : ∀ r ∈ rs, sized r) (hs : ∀ r ∈ rs, s.serves r = true) :
    ∃ ls, complete s.bufByte rs ls ∧ readAll rs s = .answered ls { s with
      rq := none, answers := [], readLog := s.readLog ++ rs.drop s.answers.length,
      draws := s.draws + (rs.drop s.answers.length).length } := by
  rcases readAll_underway rs s hu ha hl with ⟨-, hanswered⟩ | ⟨pre, r, post, hd, -, hr, -, -⟩
  · exact hanswered
  · have hmem : r ∈ rs := List.mem_of_mem_drop (i := s.answers.length) (by simp [hd])
    exact absurd (hs r hmem) (by simp [hr])

theorem selectRead_v_toNat (N : Nat) : (selectRead N).v.toNat = min N 4 := by
  rw [selectRead, BitVec.toNat_ofNat]
  omega

/-- The path SELECT takes is the one the two low bits of the first word select (R35, R142). -/
theorem choosePath_lane0 (l : Lanes) : (choosePath l.l0).code = pathOfBits (l.word.extractLsb' 0 2) := by
  rw [choosePath_code, lanes_word_low]

/-- SELECT, begun or taken up again, with its read served (R141): it ends with one answer to that read. -/
theorem select_served (s : State) (h0 : s.N ≠ 0#32) (hu : Underway [selectRead s.N.toNat] s) (ha : s.rqAlone = false)
    (hn : min s.N.toNat 4 ≤ s.limit) :
    ∃ l, isAnswerTo s.bufByte (selectRead s.N.toNat) l ∧ exec .select s = .next (selectWith [l] { s with
      rq := none, answers := [], readLog := s.readLog ++ [selectRead s.N.toNat].drop s.answers.length,
      draws := s.draws + ([selectRead s.N.toNat].drop s.answers.length).length }) := by
  have hN : s.N.toNat ≠ 0 := fun e => h0 (BitVec.eq_of_toNat_eq e)
  have hserves : s.serves (selectRead s.N.toNat) = true := by
    rw [serves_iff, selectRead_v_toNat]
    exact (Nat.zero_add _).trans_le hn
  obtain ⟨ls, ⟨hans, hlen⟩, e⟩ := readAll_served _ s hu ha (by simp [selectRead_sized _ hN]) (by simp [hserves])
  match ls, hlen with
  | [l], _ => exact ⟨l, hans.1, by rw [exec_select_reads s h0, e, afterAnswers]⟩

/-- Settles O18: the first word is the answer to SELECT's one read, and its two low bits are those of lane 0, the buffer's
first byte. -/
theorem selectChoosesThePathByContent : Obligations.SelectChoosesThePathByContent := by
  refine ⟨decodeDispatch_select, fun s => ⟨exec_selectEmpty s, fun h0 hu ha hn => ?_⟩⟩
  obtain ⟨l, hl, e⟩ := select_served s h0 hu ha hn
  have hN : s.N.toNat ≠ 0 := fun h => h0 (BitVec.eq_of_toNat_eq h)
  have hv := selectRead_v_toNat s.N.toNat
  have hlane : l.l0 = s.bufByte 0 := isAnswerTo_lane0 s.bufByte _ l hl (by omega) (by omega)
  refine ⟨_, e, ?_, ?_, ?_⟩
  · rw [selectWith, firstLane, choosePath_lane0]
    rfl
  · rw [← hv]
    exact hl.1
  · show l.word.toNat % 4 = _
    rw [← hlane, lanes_word_toNat]
    omega

end Sys2Proof.Laws
end

section
/-! PROOFS. ABSORB and TAIL (R151 to R165, R170, R184, R190, R204): begun or taken up again, their reads are all answered,
each word read is the buffer's, and the words are added; with no byte left nothing is read (R164, R183, R203). -/

namespace Sys2Proof.Laws

open Machine

/-- Settles O24: a tail's row at length 0, and the operation that reads nothing. -/
theorem emptyTailSkipsFinal : Obligations.EmptyTailSkipsFinal := fun p =>
  ⟨fun d hph hp hg hl => decodeDispatch_tail p 0 (Nat.zero_le 12) d hph hp hg (congrArg BitVec.toNat hl),
    exec_tailInstr_zero p⟩

/-! ## ABSORB -/

/-- The reads of `n` bytes the platform serves, begun or taken up again (R68). -/
theorem readAll_blockReads_served (p : Path) (n : Nat) (s : State) (hu : Underway (blockReads p s.cur n) s)
    (ha : s.rqAlone = false) (hn : s.cur.toNat + n ≤ s.limit) :
    ∃ ls, complete s.bufByte (blockReads p s.cur n) ls ∧ readAll (blockReads p s.cur n) s = .answered ls { s with
      rq := none, answers := [], readLog := s.readLog ++ (blockReads p s.cur n).drop s.answers.length,
      draws := s.draws + ((blockReads p s.cur n).drop s.answers.length).length } :=
  readAll_served _ s hu ha (blockReads_sized p s.cur n) (blockReads_served p s n hn)

/-- Settles O20: the twelve answers compose to the three words of the block. -/
theorem absorbAddsThreeWholeWords : Obligations.AbsorbAddsThreeWholeWords := by
  refine fun p => ⟨decodeDispatch_absorb p, fun s hu ha hn => ?_⟩
  have hlimit := limit_le s
  obtain ⟨ls, hc, e⟩ := readAll_blockReads_served p 12 s hu ha hn
  have hw := composeWords_block s.bufByte p s.cur ls (by omega) (readsOf_block p s.cur ▸ hc)
  refine ⟨_, by rw [exec_absorb_reads, e, afterAnswers], ?_⟩
  simp only [addBlock, hw, addWords, add32]

/-! ## TAIL -/

/-- What a tail makes of its word of `v` bytes at offset `off` (R137, R165): the buffer's bytes are added, and the word as
read is those bytes in its valid lanes, with nothing above them on the paths that have no unspecified lane. -/
structure WordRead (buf : Nat → Byte) (p : Path) (off v : Nat) (w : BlockWord) : Prop where
  addend : w.addend = bufWord buf off v
  validLanes : w.value &&& mask v = bufWord buf off v
  whole : p ≠ .W → w.value = bufWord buf off v

/-- Each word of a list is read as `WordRead` says, from all their answers. -/
theorem composeWords_wordRead (buf : Nat → Byte) (p : Path) (ws : List (Word × Nat)) (ls : List Lanes)
    (hw : ∀ x ∈ ws, 1 ≤ x.2 ∧ x.2 ≤ 4 ∧ x.1.toNat + x.2 ≤ 2 ^ 32) (h : complete buf (readsOf p ws) ls) :
    List.Forall₂ (fun x => WordRead buf p x.1.toNat x.2) ws (composeWords p ws ls) := by
  induction ws generalizing ls with
  | nil => exact .nil
  | cons x ws ih =>
    obtain ⟨h1, h4, ho⟩ := hw x (by simp)
    obtain ⟨as, bs, has, hbs, e⟩ := complete_readsOf_cons buf p x.1 x.2 ws ls h
    obtain ⟨hadd, hvalid, hwhole⟩ := tailWord_value buf p x.1 x.2 as h1 h4 ho has
    rw [e]
    exact .cons ⟨hadd, hvalid, hwhole⟩ (ih bs (fun y hy => hw y (by simp [hy])) hbs)

/-- The words of a tail have one to four bytes each and lie where the tail lies. -/
theorem tailWords_bounds (cur : Word) (n : Nat) (hc : cur.toNat + n ≤ 2 ^ 32) (h12 : n ≤ 12) (x : Word × Nat)
    (hx : x ∈ tailWords cur n) : 1 ≤ x.2 ∧ x.2 ≤ 4 ∧ x.1.toNat + x.2 ≤ 2 ^ 32 := by
  have o4 := offset_add_toNat cur 4
  have o8 := offset_add_toNat cur 8
  revert x
  unfold tailWords
  split_ifs <;> simp <;> omega

theorem tailWords_one (cur : Word) (n : Nat) (h1 : 1 ≤ n) (h4 : n ≤ 4) : tailWords cur n = [(cur, n)] := by
  rw [tailWords, if_neg (by omega), if_pos h4]

theorem tailWords_two (cur : Word) (n : Nat) (h4 : 4 < n) (h8 : n ≤ 8) :
    tailWords cur n = [(cur, 4), (cur + 4#32, n - 4)] := by
  rw [tailWords, if_neg (by omega), if_neg (by omega), if_pos h8]

theorem tailWords_three (cur : Word) (n : Nat) (h8 : 8 < n) :
    tailWords cur n = [(cur, 4), (cur + 4#32, 4), (cur + 8#32, n - 8)] := by
  rw [tailWords, if_neg (by omega), if_neg (by omega), if_neg (by omega)]

/-- TAIL of `n` bytes the platform serves, begun or taken up again (R165, R184, R204). -/
theorem tail_served (p : Path) (n : Nat) (h1 : 1 ≤ n) (h12 : n ≤ 12) (s : State)
    (hu : Underway (blockReads p s.cur n) s) (ha : s.rqAlone = false) (hn : s.cur.toNat + n ≤ s.limit) :
    ∃ ws, List.Forall₂ (fun x => WordRead s.bufByte p x.1.toNat x.2) (tailWords s.cur n) ws ∧
      exec (tailInstr p n) s = .next { addWords ws { s with
        rq := none, answers := [], readLog := s.readLog ++ (blockReads p s.cur n).drop s.answers.length,
        draws := s.draws + ((blockReads p s.cur n).drop s.answers.length).length } with ph := 5#3, st := 1#3 } := by
  have hlimit := limit_le s
  obtain ⟨ls, hc, e⟩ := readAll_blockReads_served p n s hu ha hn
  refine ⟨composeWords p (tailWords s.cur n) ls, ?_, by rw [exec_tail_reads p n h1 h12, e, afterAnswers, addTail]⟩
  exact composeWords_wordRead _ p _ ls (tailWords_bounds s.cur n (by omega) h12) (readsOf_tail p s.cur n h1 h12 ▸ hc)

/-- The rules of `TAIL.p.n` hold on every path: with one, two or three words taking part, each is added to its accumulator
and put into its `w` register (R165, R184, R204). -/
theorem tailClauses_holds (p : Path) (n : Nat) (h1 : 1 ≤ n) (h12 : n ≤ 12) : tailClauses p n := by
  refine ⟨decodeDispatch_tail p n h12, fun s hu ha hn => ?_⟩
  have hlimit := limit_le s
  have o4 := offset_add_toNat s.cur 4
  have o8 := offset_add_toNat s.cur 8
  obtain ⟨ws, hws, e⟩ := tail_served p n h1 h12 s hu ha hn
  rcases show n ≤ 4 ∨ (4 < n ∧ n ≤ 8) ∨ 8 < n by omega with h4 | ⟨h4, h8⟩ | h8
  · rw [tailWords_one _ _ h1 h4] at hws
    obtain _ | ⟨hx, _ | _⟩ := hws
    refine ⟨_, e, ?_⟩
    simp +contextual [addWords, add32, hx.addend, hx.validLanes, hx.whole, Nat.min_eq_right h4, Nat.not_lt.2 h4,
      show ¬8 < n by omega]
  · rw [tailWords_two _ _ h4 h8] at hws
    obtain _ | ⟨hx, _ | ⟨hy, _ | _⟩⟩ := hws
    rw [o4 (by omega)] at hy
    refine ⟨_, e, ?_⟩
    simp +contextual [addWords, add32, hx.addend, hy.addend, hx.validLanes, hy.validLanes, hx.whole, hy.whole, h4,
      Nat.not_lt.2 h8, Nat.min_eq_left h4.le, show min 4 (n - 4) = n - 4 by omega]
  · rw [tailWords_three _ _ h8] at hws
    obtain _ | ⟨hx, _ | ⟨hy, _ | ⟨hz, _ | _⟩⟩⟩ := hws
    rw [o4 (by omega)] at hy
    rw [o8 (by omega)] at hz
    refine ⟨_, e, ?_⟩
    simp +contextual [addWords, add32, hx.addend, hy.addend, hz.addend, hx.validLanes, hy.validLanes, hz.validLanes,
      hx.whole, hy.whole, hz.whole, h8, show 4 < n by omega, show ¬n ≤ 4 by omega,
      show min 4 n = 4 by omega, show min 4 (n - 4) = 4 by omega, show min 4 (n - 8) = n - 8 by omega]

/-- Settles O21: the tails of the word path. -/
theorem wordPathTailAddsTheLastBytes : Obligations.WordPathTailAddsTheLastBytes := tailClauses_holds .W

end Sys2Proof.Laws
end

section
/-! PROOFS. The tails of the halfword path (R171 to R182, R184): the rules of a tail on every path, at that path, and an
operation they speak of that waits for its odd byte. -/

namespace Sys2Proof.Laws

open Machine

/-- Settles O22: the tails of the halfword path, by the rules of a tail on every path. -/
theorem halfwordPathTailAddsTheLastBytes : Obligations.HalfwordPathTailAddsTheLastBytes := tailClauses_holds .H

/-- `TAIL.H.3` that has had its halfword and waits for its odd byte; the platform now answers just the three bytes. -/
def waitingForOddByte : State :=
  { State.reset with
    ph := 3#3, path := Path.code .H, N := 3#32, L := 3#32, cur := 0#32, BUSY := true,
    mem := [(0, 0x12#8), (1, 0x22#8), (2, 0x33#8)], served := 3,
    rq := some ⟨0#2, 1#3, 2#32⟩, answers := [⟨0x12#8, 0x22#8, 0#8, 0#8⟩] }

theorem waitingForOddByte_underway : Underway (blockReads .H waitingForOddByte.cur 3) waitingForOddByte where
  answered := ⟨⟨by decide, by decide⟩, trivial⟩
  asked _ hr _ := hr

/-- Taken up again, it reads the odd byte alone and adds the word of both, the byte at bits 23:16 (R133, R180). -/
theorem tailH3_reads_the_odd_byte_alone : ∃ t, exec .tailH3 waitingForOddByte = .next t ∧
    t.w0 = 0x332212#32 ∧ t.a = waitingForOddByte.a + 0x332212#32 ∧ t.readLog = [⟨0#2, 1#3, 2#32⟩] := by
  obtain ⟨-, hexec⟩ := halfwordPathTailAddsTheLastBytes 3 (by decide) (by decide)
  obtain ⟨t, e, ht, -, -, -, -, -, hw⟩ := hexec waitingForOddByte waitingForOddByte_underway rfl (by decide)
  have hword : bufWord waitingForOddByte.bufByte waitingForOddByte.cur.toNat (min 4 3) = 0x332212#32 := by decide
  obtain ⟨hw0, -⟩ := hw (by decide)
  refine ⟨t, e, hw0.trans hword, ?_, ?_⟩
  · rw [ht, ← hword]
  · rw [ht]
    rfl

end Sys2Proof.Laws
end

section
/-! PROOFS. The tails of the byte path (R191 to R202, R204): the rules of a tail on every path, at that path, and an
operation they speak of that waits in the middle of its last word. -/

namespace Sys2Proof.Laws

open Machine

/-- Settles O23, by the rules of a tail on every path. -/
theorem bytePathTailAddsTheLastBytes : Obligations.BytePathTailAddsTheLastBytes := tailClauses_holds .B

/-- Byte `i` of the buffer in `waitingForTenthByte`: `0x11`, `0x22`, and so on. -/
def risingByte (i : Nat) : Byte := BitVec.ofNat 8 (0x11 * (i + 1))

/-- `TAIL.B.11` that has had nine bytes, one of its last word, and waits for the tenth; the platform now answers just the
eleven bytes. -/
def waitingForTenthByte : State :=
  { State.reset with
    ph := 3#3, path := Path.code .B, N := 11#32, L := 11#32, cur := 0#32, BUSY := true,
    mem := (List.range 11).map fun i => (i, risingByte i), served := 11,
    rq := some (rd8Req 9#32), answers := (List.range 9).map fun i => ⟨risingByte i, 0#8, 0#8, 0#8⟩ }

theorem waitingForTenthByte_underway : Underway (blockReads .B waitingForTenthByte.cur 11) waitingForTenthByte where
  answered := by
    refine ⟨?_, ?_, ?_, ?_, ?_, ?_, ?_, ?_, ?_, trivial⟩ <;> exact ⟨by decide, by decide⟩
  asked _ hr _ := hr

/-- Taken up again, it reads the last two bytes alone and adds `k8 | (k9 << 8) | (k10 << 16)` to `c`, whose first byte was
answered before the wait (R134, R192). -/
theorem tailB11_reads_the_last_two_bytes_alone : ∃ t, exec .tailB11 waitingForTenthByte = .next t ∧
    t.w2 = 0xbbaa99#32 ∧ t.c = waitingForTenthByte.c + 0xbbaa99#32 ∧ t.readLog = [rd8Req 9#32, rd8Req 10#32] := by
  obtain ⟨-, hexec⟩ := bytePathTailAddsTheLastBytes 11 (by decide) (by decide)
  obtain ⟨t, e, ht, -, -, -, -, -, hw⟩ := hexec waitingForTenthByte waitingForTenthByte_underway rfl (by decide)
  have hword : bufWord waitingForTenthByte.bufByte (waitingForTenthByte.cur.toNat + 8) (min 4 (11 - 8)) =
      0xbbaa99#32 := by decide
  obtain ⟨-, -, hw2⟩ := hw (by decide)
  refine ⟨t, e, (hw2 (by decide)).trans hword, ?_, ?_⟩
  · rw [ht, ← hword]
    rfl
  · rw [ht]
    rfl

end Sys2Proof.Laws
end

section
/-! PROOFS. Mix and ADV (R210 to R217): the rows of the phase, the line a stage is, the six lines composed to Mix, and the
move to the next block. -/

namespace Sys2Proof.Laws

open Machine

/-- In MIX the stage alone selects the operation (R92). -/
theorem decodeDispatch_mix (d : DispatchWord) (hph : d.ph = 4#3) : decodeDispatch d = decodeMix d.st.toNat := by
  rw [decodeDispatch, hph]
  rfl

/-- A stage of Mix as its line: the core's amounts are those for which the ALU's rotation is the usual one (R124). -/
theorem mixStage_eq (x y z : Word) (k : Nat) (h : 1 ≤ k) (hk : k < 32) :
    mixStage x y z k = ((x - y) ^^^ y.rotateLeft k, y + z) := by
  rw [mixStage, rol32_eq y k h hk]
  rfl

/-- Settles O25: the row of each stage, and each stage as its line (`mixStage_eq`). -/
theorem mixStagesAreTheSixLines : Obligations.MixStagesAreTheSixLines := by
  refine ⟨fun d hph => ?_, fun s => ⟨?_, ?_, ?_, ?_, ?_, ?_⟩⟩
  · rw [decodeDispatch_mix d hph]
    refine ⟨?_, ?_, ?_, ?_, ?_, ?_⟩ <;> (intro hst; rw [hst]; rfl)
  · rw [exec, execM1, mixStage_eq _ _ _ 4 (by decide) (by decide)]
  · rw [exec, execM2, mixStage_eq _ _ _ 6 (by decide) (by decide)]
  · rw [exec, execM3, mixStage_eq _ _ _ 8 (by decide) (by decide)]
  · rw [exec, execM4, mixStage_eq _ _ _ 16 (by decide) (by decide)]
  · rw [exec, execM5, mixStage_eq _ _ _ 19 (by decide) (by decide)]
  · rw [exec, execM6, mixStage_eq _ _ _ 4 (by decide) (by decide)]

/-- Settles O26: the six lines of O25, each at the state the one before it left, are the six lines of the listing. -/
theorem sixStagesAreMix : Obligations.SixStagesAreMix := by
  intro s
  obtain ⟨-, lines⟩ := mixStagesAreTheSixLines
  simp only [forall_and] at lines
  obtain ⟨m1, m2, m3, m4, m5, m6⟩ := lines
  exact ⟨_, _, _, _, _, _, m1 s, m2 _, m3 _, m4 _, m5 _, m6 _, rfl, rfl⟩

/-- Settles O27: the two updates by the block, whose differences and sums are those of integers within the bounds. -/
theorem advMovesOneBlockOn : Obligations.AdvMovesOneBlockOn := by
  refine ⟨fun d hph hst => ?_, fun s => ⟨_, rfl, rfl, rfl, rfl, fun hL => ?_, fun hcur => ?_⟩⟩
  · rw [decodeDispatch_mix d hph, hst]
    rfl
  · exact BitVec.toNat_sub_of_le (y := Config.block) (BitVec.le_def.2 (Nat.le_of_lt hL))
  · exact BitVec.toNat_add_of_lt (y := Config.block) hcur

end Sys2Proof.Laws
end

section
/-! PROOFS. Final and EMIT (R221 to R230): the rows of the phase, the line a stage is, the seven lines composed to Final, the
digest delivered, and the job of the empty buffer, which skips Final. -/

namespace Sys2Proof.Laws

open Machine

/-- In FINAL the stage alone selects the operation (R92). -/
theorem decodeDispatch_final (d : DispatchWord) (hph : d.ph = 5#3) : decodeDispatch d = decodeFinal d.st.toNat := by
  rw [decodeDispatch, hph]
  rfl

/-- A stage of Final as its line: the core's amounts are those for which the ALU's rotation is the usual one (R124). -/
theorem finalStage_eq (x y : Word) (k : Nat) (h : 1 ≤ k) (hk : k < 32) :
    finalStage x y k = (x ^^^ y) - y.rotateLeft k := by
  rw [finalStage, rol32_eq y k h hk]
  rfl

/-- Settles O28: the row of each stage, and each stage as its line (`finalStage_eq`). -/
theorem finalStagesAreTheSevenLines : Obligations.FinalStagesAreTheSevenLines := by
  refine ⟨fun d hph => ?_, fun s => ⟨?_, ?_, ?_, ?_, ?_, ?_, ?_⟩⟩
  · rw [decodeDispatch_final d hph]
    refine ⟨?_, ?_, ?_, ?_, ?_, ?_, ?_⟩ <;> (intro hst; rw [hst]; rfl)
  · rw [exec, execF1, finalStage_eq _ _ 14 (by decide) (by decide)]
  · rw [exec, execF2, finalStage_eq _ _ 11 (by decide) (by decide)]
  · rw [exec, execF3, finalStage_eq _ _ 25 (by decide) (by decide)]
  · rw [exec, execF4, finalStage_eq _ _ 16 (by decide) (by decide)]
  · rw [exec, execF5, finalStage_eq _ _ 4 (by decide) (by decide)]
  · rw [exec, execF6, finalStage_eq _ _ 14 (by decide) (by decide)]
  · rw [exec, execF7, finalStage_eq _ _ 24 (by decide) (by decide)]

/-- Settles O29: the seven lines of O28, each at the state the one before it left, are the seven lines of the listing. -/
theorem sevenStagesAreFinal : Obligations.SevenStagesAreFinal := by
  intro s
  obtain ⟨-, lines⟩ := finalStagesAreTheSevenLines
  simp only [forall_and] at lines
  obtain ⟨f1, f2, f3, f4, f5, f6, f7⟩ := lines
  exact ⟨_, _, _, _, _, _, _, f1 s, f2 _, f3 _, f4 _, f5 _, f6 _, f7 _, rfl, rfl⟩

theorem decodeDispatch_emit (d : DispatchWord) (hph : d.ph = 6#3) : decodeDispatch d = .ok .emit := by
  rw [decodeDispatch, hph]
  rfl

/-- Settles O19: the digest is made of `c` and `b`, so its value is that of the two words, `c` the upper one. -/
theorem emitDeliversTheDigest : Obligations.EmitDeliversTheDigest :=
  ⟨decodeDispatch_emit, fun s => ⟨_, rfl, rfl, append_toNat s.c s.b⟩⟩

/-- Settles O53: the empty job ends after four operations (`empty_job_ends`), with the digest `lookup3` gives for no byte
and with no request to make. -/
theorem emptyBufferGivesTheSeed : Obligations.EmptyBufferGivesTheSeed := by
  intro s h h0
  obtain ⟨t, hrun, hend⟩ := empty_job_ends s h h0
  have hdigest := hend.digest
  have hlog := hend.log
  rw [h0] at hdigest hlog
  exact ⟨t, hrun, hdigest, hend.done, hlog.trans (List.append_nil _)⟩

end Sys2Proof.Laws
end

section
/-! PROOFS. The host's operations (R235 to R243): the word that selects each, what it writes and what it returns; and a
whole call (R245), from WR.LEN and START to the two reads of the digest. -/

namespace Sys2Proof.Laws

open Machine

/-- With a host access next, out of reset, the step is the operation its word selects (R95). -/
theorem step_of_host {s : State} {hw : BitVec 35} {rest : List Event} (hr : s.rst = false)
    (h : s.agenda = .host hw :: rest) : step s = exec (decodeHost hw) { s with agenda := rest } :=
  (step_of_input h).trans (runHost_eq (s := { s with agenda := rest }) hr hw)

/-! ## The words of the host -/

/-- Settles O30: the word by O5, and START by whether a job runs. -/
theorem startBeginsAJobOnlyWhenIdle : Obligations.StartBeginsAJobOnlyWhenIdle := by
  refine ⟨fun wdata hodd => ?_, fun s => ⟨fun hidle => if_neg (by simp [hidle]), fun hbusy => if_pos hbusy⟩⟩
  exact (hostWordSelectsOneOfEightOperations true 0#2 wdata).trans (by simp [hodd])

/-- Settles O31: the words by O5; each write is its own next state. -/
theorem hostWritesChangeLenAlone : Obligations.HostWritesChangeLenAlone := by
  have word := hostWordSelectsOneOfEightOperations true
  exact ⟨fun wdata heven => (word 0#2 wdata).trans (by simp [heven]), word 1#2,
    fun wdata => ⟨word 2#2 wdata, word 3#2 wdata⟩, fun s => ⟨rfl, rfl, fun v => rfl⟩⟩

/-- Settles O32: the word by O5, and the read is its own next state. -/
theorem readLenReturnsLen : Obligations.ReadLenReturnsLen :=
  ⟨hostWordSelectsOneOfEightOperations false 1#2, fun _ => rfl⟩

/-! ## What a read returns -/

/-- The status word by its bits (R242). -/
theorem statusWord_toNat (BUSY DONE : Bool) (path : BitVec 2) :
    (statusWord BUSY DONE path).toNat = (if BUSY then 1 else 0) + (if DONE then 2 else 0) + 4 * path.toNat := by
  simp only [statusWord, append_toNat, BitVec.toNat_ofBool]
  cases BUSY <;> cases DONE <;> simp <;> omega

/-- RD.CSR returns the status word, its `PATH` field a free value while `DONE` is 0 (R242). -/
theorem exec_rdCsr (s : State) : ∃ x draws, exec .rdCsr s = .next { s with
    rdata := statusWord s.BUSY s.DONE x, draws := draws } ∧ (s.DONE = true → x = s.path) := by
  by_cases hdone : s.DONE = true
  · exact ⟨s.path, s.draws, if_pos hdone, fun _ => rfl⟩
  · exact ⟨_, _, if_neg hdone, fun h => absurd h hdone⟩

/-- Settles O33: the status word by its bits; the invariant excludes both status bits 1 and `path` 3. -/
theorem readCsrReturnsTheStatus : Obligations.ReadCsrReturnsTheStatus := by
  refine ⟨hostWordSelectsOneOfEightOperations false 0#2, fun s => ?_⟩
  obtain ⟨x, draws, he, hx⟩ := exec_rdCsr s
  refine ⟨_, he, rfl, ⟨x, hx, statusWord_toNat _ _ x⟩, fun h => ?_⟩
  have hstatus := h.status
  have hbits := statusWord_toNat s.BUSY s.DONE x
  refine ⟨?_, fun hdone => ?_⟩
  · dsimp only
    rw [hbits]
    cases hb : s.BUSY <;> cases hd : s.DONE <;> simp [hb, hd] at hstatus ⊢
  · have hpath : ∀ y : BitVec 2, (pathOfBits y).toNat < 3 := by unfold pathOfBits; decide
    have hlt := hpath (s.fw.extractLsb' 0 2)
    rw [← h.pathChosen (.inr hdone), ← hx hdone] at hlt
    dsimp only
    rw [hbits, if_pos hdone]
    split <;> omega

/-- The two halves of a digest give it back. -/
theorem halves_append (d : Digest) : d.extractLsb' 32 32 ++ d.extractLsb' 0 32 = d := by
  apply BitVec.eq_of_toNat_eq
  rw [append_toNat, BitVec.extractLsb'_toNat, BitVec.extractLsb'_toNat, Nat.shiftRight_zero, Nat.shiftRight_eq_div_pow]
  omega

/-- While `DONE` is 1 the two reads return the halves of `digest` (R241, R243). -/
theorem exec_rdDigest_done (s : State) (hdone : s.DONE = true) :
    exec .rdDigestLo s = .next { s with rdata := s.digest.extractLsb' 0 32 } ∧
      exec .rdDigestHi s = .next { s with rdata := s.digest.extractLsb' 32 32 } :=
  ⟨if_pos hdone, if_pos hdone⟩

/-- Settles O34: while `DONE` is 1 the halves, and otherwise free values. -/
theorem readDigestReturnsItsHalves : Obligations.ReadDigestReturnsItsHalves := by
  have word := hostWordSelectsOneOfEightOperations false
  refine ⟨fun wdata => ⟨word 2#2 wdata, word 3#2 wdata⟩, fun s => ?_⟩
  by_cases hdone : s.DONE = true
  · obtain ⟨hlo, hhi⟩ := exec_rdDigest_done s hdone
    refine ⟨_, _, hlo, hhi, rfl, rfl, fun _ => ?_⟩
    rw [← append_toNat, halves_append]
  · exact ⟨_, _, if_neg hdone, if_neg hdone, rfl, rfl, fun h => absurd h hdone⟩

/-! ## A whole call -/

/-- With no job running, the host's WR.LEN and START take two steps, after which a job of `n` bytes has just been
started. -/
theorem call_starts_job {s : State} {n : Word} (h : Inv s) (hidle : s.BUSY = false) (hrst : s.rst = false)
    (hrq : s.rq = none) (hn : n.toNat ≤ s.limit)
    (ha : s.agenda = [.host (1#1 ++ 1#2 ++ n), .host (1#1 ++ 0#2 ++ 1#32)]) :
    ∃ t, core.run 2 s = .next t ∧ JobStart t ∧ t.N = n ∧ t.bufByte = s.bufByte := by
  obtain ⟨-, hwrLen, -⟩ := hostWritesChangeLenAlone
  obtain ⟨hstart, hstarts⟩ := startBeginsAJobOnlyWhenIdle
  have hph : s.ph = 0#3 := by_contra fun e => by simp [h.busy.2 e] at hidle
  obtain ⟨hans, -⟩ := inv_noneAsked h (positionReads_other (by rw [hph]; decide) (by rw [hph]; decide))
  let u : State := { s with LEN := n, agenda := [.host (1#1 ++ 0#2 ++ 1#32)] }
  have hlen : step s = .next u := by
    rw [step_of_host hrst ha, hwrLen n]
    rfl
  have hjob : step u = .next { u with N := n, BUSY := true, DONE := false, ph := 1#3, agenda := [] } := by
    rw [step_of_host (s := u) hrst rfl, hstart 1#32 rfl]
    exact (hstarts _).1 hidle
  exact ⟨_, (run_succ 1 s u hlen).trans (run_succ 0 u _ hjob), ⟨rfl, hrst, ⟨hrq, hans⟩, rfl, hn⟩, rfl, rfl⟩

/-- Settles O56: the call starts a job, the job ends with the digest of its buffer, and the two reads return its halves. -/
theorem aCallReturnsTheDigestOfTheBuffer : Obligations.ACallReturnsTheDigestOfTheBuffer := by
  intro s n h hidle hrst hrq hn ha
  obtain ⟨u, hu, hstart, rfl, hbuf⟩ := call_starts_job h hidle hrst hrq hn ha
  obtain ⟨t, ht, hend⟩ := job_ends u hstart
  obtain ⟨hlo, hhi⟩ := exec_rdDigest_done t hend.done
  refine ⟨t, _, _, (run_add 2 _ s u hu).trans ht, hend.done, hlo, hhi, ?_⟩
  rw [← hbuf, ← hend.digest]
  exact halves_append t.digest

end Sys2Proof.Laws
end

section
/-! PROOFS. Outside a job: WAIT (R234), reset (R280, R281) and what it lets through (R255); and that no operation raises
anything (R247, R250). -/

namespace Sys2Proof.Laws

open Machine

theorem decodeDispatch_wait (d : DispatchWord) (hph : d.ph = 0#3) : decodeDispatch d = .ok .wait := by
  rw [decodeDispatch, hph]
  rfl

/-- While reset is asserted the sequencer does nothing (R255). -/
theorem runSequencer_inReset {s : State} (hr : s.rst = true) : runSequencer s = .next s := if_pos hr

/-- Settles O16: the step is WAIT's, or reset lets the sequencer do nothing. -/
theorem waitChangesNothing : Obligations.WaitChangesNothing := by
  refine ⟨decodeDispatch_wait, fun s => rfl, fun s hph ha => ?_⟩
  rw [step_of_noInput ha]
  cases hr : s.rst with
  | true => exact runSequencer_inReset hr
  | false => exact runSequencer_ok hr (decodeDispatch_wait s.dispatch hph)

/-- Settles O46: each format's operations answer a next state (`exec_next`). -/
theorem everyOperationAnswersANextState : Obligations.EveryOperationAnswersANextState := exec_next

/-! ## Reset -/

/-- Settles O13: RD.CSR returns the status word, which is 0 outside its `PATH` field, whatever that holds. -/
theorem stateAfterReset : Obligations.StateAfterReset := by
  obtain ⟨x, draws, he, -⟩ := exec_rdCsr State.reset
  have hclear : ∀ x : BitVec 2, statusWord false false x &&& 0xfffffff3#32 = 0#32 := by decide
  exact ⟨rfl, rfl, rfl, rfl, rfl, rfl, rfl, _, he, hclear x⟩

/-- Settles O14: the step is `assertReset`, which leaves the memory alone. -/
theorem resetClearsTheControlState : Obligations.ResetClearsTheControlState := fun _ _ ha =>
  ⟨_, step_of_input ha, rfl, rfl, rfl, rfl, rfl, rfl, rfl, rfl, rfl, fun _ => rfl⟩

/-- A host access while reset is asserted: a write is lost, a read returns a free value (R280). -/
theorem runHost_inReset {s : State} (hr : s.rst = true) (hw : BitVec 35) :
    ∃ rdata draws, runHost hw s = .next { s with rdata := rdata, draws := draws } ∧
      (hw.getLsbD 34 = true → rdata = s.rdata ∧ draws = s.draws) := by
  have hlost : runHost hw s = hostDuringReset hw s := if_pos hr
  rw [hlost]
  by_cases hwe : hw.getLsbD 34 = true
  · exact ⟨_, _, if_pos hwe, fun _ => ⟨rfl, rfl⟩⟩
  · exact ⟨_, _, if_neg hwe, fun h => absurd h hwe⟩

/-- Settles O15, agent by agent: each looks at the reset input first. -/
theorem nothingRunsWhileResetIsAsserted : Obligations.NothingRunsWhileResetIsAsserted := by
  intro s hr
  refine ⟨fun ha => (step_of_noInput ha).trans (runSequencer_inReset hr), fun rest e ha hagent => ?_⟩
  have hr' : State.rst { s with agenda := rest } = true := hr
  rw [step_of_input ha]
  rcases hagent with rfl | ⟨hw, rfl⟩ | ⟨rr, rfl⟩ | ⟨aw, x, y, rfl⟩
  · exact ⟨_, runSequencer_inReset hr', rfl, fun _ => rfl, nofun⟩
  · obtain ⟨rdata, draws, he, hwrite⟩ := runHost_inReset hr' hw
    refine ⟨_, he, rfl, fun hne => absurd rfl (hne hw), fun hw' heq hwe => ?_⟩
    cases heq
    obtain ⟨rfl, rfl⟩ := hwrite hwe
    rfl
  · exact ⟨_, if_pos hr', rfl, fun _ => rfl, nofun⟩
  · exact ⟨_, if_pos hr', rfl, fun _ => rfl, nofun⟩

/-- Settles O47: the position is IDLE, no read is begun, and nothing has been asked or written yet. -/
theorem resetMeetsTheInvariant : Obligations.ResetMeetsTheInvariant :=
  have hpast : ¬pastSelect 0#3 := by unfold pastSelect; decide
  { memory := reset_memory_wf
    position := (show legalPosition 0#3 0#3 by unfold legalPosition; decide)
    busy := ⟨nofun, fun hph => absurd rfl hph⟩
    status := nofun
    pathChosen := fun hor => absurd hor (not_or.2 ⟨hpast, nofun⟩)
    seeded := nofun
    progress := fun hph => absurd hph hpast
    leftOver := fun hph => absurd hph hpast
    inMix := nofun
    inFinal := nofun
    inEmit := nofun
    held := nofun
    request := nofun
    requests := nofun
    underway := underway_fresh _ _ rfl rfl
    alone := fun _ => rfl }

end Sys2Proof.Laws
end

section
/-! PROOFS. A word and its row of the opcode table, for every format (R90 to R97); and a table word placed as the next
operation (log entry 10). -/

namespace Sys2Proof.Laws

open Machine

/-! ## The row of a decoded word -/

/-- A mask of the bits `lo` to `lo + len - 1` keeps the field that stands there. -/
theorem and_fieldMask {n : Nat} (w : BitVec n) (lo len : Nat) :
    w.toNat &&& (2 ^ len - 1) <<< lo = (w.extractLsb' lo len).toNat <<< lo := by
  rw [BitVec.extractLsb'_toNat, ← Nat.and_two_pow_sub_one_eq_mod]
  apply Nat.eq_of_testBit_eq
  intro j
  by_cases hj : lo ≤ j
  · simp [Nat.testBit_shiftLeft, Nat.testBit_shiftRight, hj, Bool.and_comm]
  · simp [Nat.testBit_shiftLeft, hj]

/-- A field of a field is a field. -/
theorem field_of_field {n : Nat} (w : BitVec n) (lo pos len len' : Nat) (h : pos + len ≤ len') :
    w.extractLsb' (lo + pos) len = (w.extractLsb' lo len').extractLsb' pos len := by
  ext j hj
  simp [show pos + j < len' by omega, Nat.add_assoc]

theorem row_format (i : Instr) : i.row.format = i.format := by cases i <;> rfl

/-- Only the reader's operations carry an operand with a condition (R96). -/
theorem wf_of_format (i : Instr) (h : i.format ≠ .rdreq) : i.wf = true := by
  cases i <;> simp [Instr.format, Instr.wf] at h ⊢

theorem decodeSeq_row {w : BitVec 13} {i : Instr} (h : decodeSeq w = .ok i) :
    w.toNat &&& i.row.mask = i.row.pattern := ((dispatchWordSelectsTheRowItMatches w i).1 h).2

/-- The rows of R95: `we` and `idx` are the bits 34 to 32, and the rows of a write of CSR look at bit 0 too. -/
theorem decodeHost_row (hw : BitVec 35) : hw.toNat &&& (decodeHost hw).row.mask = (decodeHost hw).row.pattern := by
  have hhigh : hw.toNat &&& 0x700000000 = (hw.extractLsb' 32 3).toNat <<< 32 := and_fieldMask hw 32 3
  have hupper : hw.toNat &&& 0x600000000 = (hw.extractLsb' 33 2).toNat <<< 33 := and_fieldMask hw 33 2
  have hlow : hw.toNat &&& 1 = (hw.getLsbD 0).toNat := by
    rw [Nat.and_one_is_mod, BitVec.getLsbD, Nat.toNat_testBit, Nat.pow_zero, Nat.div_one]
  have hboth : hw.toNat &&& 0x700000001 = hw.toNat &&& 0x700000000 ||| hw.toNat &&& 1 :=
    Nat.and_or_distrib_left (x := hw.toNat) (y := 0x700000000) (z := 1)
  have hwe : hw.getLsbD 34 = (hw.extractLsb' 32 3).getLsbD 2 := by simp
  have hidx : hw.extractLsb' 32 2 = (hw.extractLsb' 32 3).extractLsb' 0 2 := field_of_field hw 32 0 2 3 (by decide)
  have hupper' : hw.extractLsb' 33 2 = (hw.extractLsb' 32 3).extractLsb' 1 2 := field_of_field hw 32 1 2 3 (by decide)
  rw [hlow, hhigh] at hboth
  rw [hupper'] at hupper
  unfold decodeHost
  rw [hwe, hidx]
  generalize hw.extractLsb' 32 3 = k at *
  have hcases : k = 0#3 ∨ k = 1#3 ∨ k = 2#3 ∨ k = 3#3 ∨ k = 4#3 ∨ k = 5#3 ∨ k = 6#3 ∨ k = 7#3 := by
    clear hwe hidx hupper' hupper hboth hhigh
    revert k
    decide
  rcases hcases with rfl | rfl | rfl | rfl | rfl | rfl | rfl | rfl
  · exact hhigh
  · exact hhigh
  · exact hhigh
  · exact hhigh
  · cases hstart : hw.getLsbD 0 <;> rw [hstart] at hboth <;> exact hboth
  · exact hhigh
  · exact hupper
  · exact hupper

/-- The rows of R96 look at `size`, and what a request word must be for the decoder to accept it makes the operation well
formed. -/
theorem decodeRead_row {rr : BitVec 37} {i : Instr} (h : decodeRead rr = .ok i) :
    i.wf = true ∧ rr.toNat &&& i.row.mask = i.row.pattern := by
  have hfield : rr.toNat &&& 0x1800000000 = (ReadReq.unpack rr).size.toNat <<< 35 := and_fieldMask rr 35 2
  obtain ⟨hl, -⟩ := decodeRead_exec rr i h
  rw [decodeRead, decodeReadReq_legal _ hl] at h
  generalize ReadReq.unpack rr = r at h hfield hl
  obtain ⟨size, v, off⟩ := r
  dsimp only at h hfield
  obtain ⟨h3, h1, hn, ho⟩ := (legal_iff size v off).1 hl
  have hs : size = 0#2 ∨ size = 1#2 ∨ size = 2#2 := by
    clear h hl hn ho hfield
    revert size
    decide
  have hi := (Except.ok.inj h).symm
  rcases hs with rfl | rfl | rfl
  · rw [if_pos rfl] at hi
    subst hi
    exact ⟨rfl, hfield⟩
  · rw [if_neg (by decide), if_pos rfl] at hi
    subst hi
    have hv : ∀ v : BitVec 3, 1 ≤ v.toNat → v.toNat ≤ 2 → (v == 1#3 || v == 2#3) = true := by decide
    exact ⟨by simp only [Instr.wf, hv v h1 hn, Bool.true_and, beq_iff_eq]; exact ho, hfield⟩
  · rw [if_neg (by decide), if_neg (by decide)] at hi
    subst hi
    have hv : ∀ v : BitVec 3, 1 ≤ v.toNat → v.toNat ≤ 4 → (v == 1#3 || v == 2#3 || v == 3#3 || v == 4#3) = true := by
      decide
    exact ⟨by simp only [Instr.wf, hv v h1 hn, Bool.true_and, beq_iff_eq]; exact ho, hfield⟩

/-- The rows of R97 look at `fn`. -/
theorem decodeAlu_row {aw : BitVec 8} {i : Instr} (h : decodeAlu aw = .ok i) :
    aw.toNat &&& i.row.mask = i.row.pattern := by
  have hfield : aw.toNat &&& 0xe0 = (aw.extractLsb' 5 3).toNat <<< 5 := and_fieldMask aw 5 3
  unfold decodeAlu at h
  split at h <;> cases h
  case h_1 e | h_2 e | h_3 e | h_4 e | h_5 e =>
    rw [e] at hfield
    exact hfield

/-- A number that decodes is a word of the format (R90). -/
theorem decode_fits {f : Format} {w : Nat} {i : Instr} (h : decode f w = .ok i) : w < 2 ^ f.width := by
  unfold decode at h
  split at h
  · cases h
  · omega

theorem decode_toNat {f : Format} {w : Nat} {i : Instr} (h : decode f w = .ok i) :
    (BitVec.ofNat f.width w).toNat = w := by
  rw [BitVec.toNat_ofNat, Nat.mod_eq_of_lt (decode_fits h)]

section
variable {w : Nat} {i : Instr}

/-! What `decode` gives is what the format's decoder gives. -/

theorem decode_seq (h : decode .seq w = .ok i) : decodeSeq (BitVec.ofNat 13 w) = .ok i :=
  (if_neg (Nat.not_le.2 (decode_fits h))).symm.trans h

theorem decode_host (h : decode .host w = .ok i) : decodeHost (BitVec.ofNat 35 w) = i :=
  Except.ok.inj ((if_neg (Nat.not_le.2 (decode_fits h))).symm.trans h)

theorem decode_rdreq (h : decode .rdreq w = .ok i) : decodeRead (BitVec.ofNat 37 w) = .ok i :=
  (if_neg (Nat.not_le.2 (decode_fits h))).symm.trans h

theorem decode_alu (h : decode .alu w = .ok i) : decodeAlu (BitVec.ofNat 8 w) = .ok i :=
  (if_neg (Nat.not_le.2 (decode_fits h))).symm.trans h

theorem decode_format {f : Format} (h : decode f w = .ok i) : i.format = f := by
  cases f with
  | seq => exact decodeDispatch_format _ i (decode_seq h)
  | host => exact decode_host h ▸ decodeHost_format _
  | rdreq => exact decodeRead_format _ i (decode_rdreq h)
  | alu => exact decodeAlu_format _ i (decode_alu h)

/-- The word lies in the row, for every format. -/
theorem decode_row {f : Format} (h : decode f w = .ok i) : w &&& i.row.mask = i.row.pattern := by
  rw [← decode_toNat h]
  cases f with
  | seq => exact decodeSeq_row (decode_seq h)
  | host =>
    obtain rfl := decode_host h
    exact decodeHost_row (BitVec.ofNat 35 w)
  | rdreq => exact (decodeRead_row (decode_rdreq h)).2
  | alu => exact decodeAlu_row (decode_alu h)

theorem decode_wf {f : Format} (h : decode f w = .ok i) : i.wf = true := by
  by_cases hf : f = .rdreq
  · subst hf
    exact (decodeRead_row (decode_rdreq h)).1
  · exact wf_of_format i (by rwa [decode_format h])

end

/-- Settles O2, each clause a lemma on `decode`. -/
theorem decodedWordLiesInTheOperationsRow : Obligations.DecodedWordLiesInTheOperationsRow := fun _ _ i h =>
  ⟨decode_wf h, decode_format h, (row_format i).trans (decode_format h), decode_row h⟩

/-! ## A table word placed -/

/-- The dispatch word of the placed position: `gt12` is set also where `l4` alone is above 12 (R91). -/
theorem placeSequencer_dispatch (w : BitVec 13) (s : State) : (placeSequencer w s).dispatch =
    { DispatchWord.unpack w with
      gt12 := (DispatchWord.unpack w).gt12 || decide (12 < (DispatchWord.unpack w).l4.toNat) } := by
  have hlow : ∀ (g : Bool) (l4 : BitVec 4),
      gt12 (if g then 16#32 + l4.setWidth 32 else l4.setWidth 32) = (g || decide (12 < l4.toNat)) ∧
      (if g then 16#32 + l4.setWidth 32 else l4.setWidth 32).extractLsb' 0 4 = l4 := by decide
  obtain ⟨hgt, hl4⟩ := hlow (DispatchWord.unpack w).gt12 (DispatchWord.unpack w).l4
  simp only [State.dispatch, placeSequencer, hgt, hl4]

/-- Where `l4` alone is above 12 a word that selects an operation is not of LOOP, and `gt12` is not looked at (R92). -/
theorem decodeDispatch_gt12 (d : DispatchWord) (i : Instr) (h : decodeDispatch d = .ok i) :
    decodeDispatch { d with gt12 := d.gt12 || decide (12 < d.l4.toNat) } = .ok i := by
  have hloop : ∀ (path : BitVec 2) (g : Bool) (l4 : BitVec 4), decodeLoop path g l4 = .error .reservedDispatch ∨
      decodeLoop path (g || decide (12 < l4.toNat)) l4 = decodeLoop path g l4 := by decide
  rw [← h]
  unfold decodeDispatch at h ⊢
  dsimp only
  split at h
  case h_4 e =>
    refine (hloop d.path d.gt12 d.l4).resolve_left fun herr => ?_
    rw [herr] at h
    cases h
  all_goals rfl

/-- The step after placing takes the placed input off the agenda again. -/
theorem step_placed (s : State) (e : Event) :
    step { s with rst := false, agenda := e :: s.agenda } = runEvent e { s with rst := false } :=
  step_of_input rfl

/-- Settles O12, by the format the table word is taken for. -/
theorem placedTableWordRunsNext : Obligations.PlacedTableWordRunsNext := by
  intro s nbits w i h
  cases hf : tableFormat nbits w with
  | none => simp only [decodeTableWord, hf, reduceCtorEq] at h
  | some f =>
    have hd : decode f w = .ok i := by
      simp only [decodeTableWord, hf] at h
      split at h <;> cases h
      assumption
    have hformat := decode_format hd
    rw [State.withFetchWord, placeWord, hf]
    cases f with
    | seq =>
      have hdispatch : decodeDispatch (placeSequencer (BitVec.ofNat 13 w) s).dispatch = .ok i := by
        rw [placeSequencer_dispatch]
        exact decodeDispatch_gt12 _ i (decode_seq hd)
      let t : State := { placeSequencer (BitVec.ofNat 13 w) s with agenda := s.agenda }
      have hstep : step (placeSequencer (BitVec.ofNat 13 w) s) = exec i t :=
        (step_of_input (e := .sequencer) rfl).trans (runSequencer_ok (s := t) rfl hdispatch)
      exact ⟨t, hstep, fun hne => absurd hformat hne, fun _ => ⟨rfl, hdispatch⟩⟩
    | host =>
      have hrun := runHost_eq (s := { s with rst := false }) rfl (BitVec.ofNat 35 w)
      rw [decode_host hd] at hrun
      exact ⟨_, (step_placed s _).trans hrun, fun _ => rfl, fun hseq => by cases hformat.symm.trans hseq⟩
    | rdreq =>
      have hrun := runRead_ok (s := { s with rst := false }) rfl (decode_rdreq hd)
      exact ⟨_, (step_placed s _).trans hrun, fun _ => rfl, fun hseq => by cases hformat.symm.trans hseq⟩
    | alu =>
      have hrun := runAlu_ok (s := { s with rst := false }) rfl s.aluX s.aluY (decode_alu hd)
      exact ⟨_, (step_placed s _).trans hrun, fun _ => rfl, fun hseq => by cases hformat.symm.trans hseq⟩

end Sys2Proof.Laws
end

section
/-! PROOFS. Two states of one job (R292): `t` beside `s`, equal in all that the sequencer works on but for the unspecified
lanes of the words read, which the draws of host reads shift. Every operation of the sequencer keeps them so. -/

namespace Sys2Proof.Laws

open Machine

/-! ## Answers that agree in their valid lanes -/

/-- Two answers to a request: the same in the valid lanes, and the same when it has no others. -/
def sameAnswer (r : ReadReq) (l m : Lanes) : Prop :=
  l.keep r.v.toNat = m.keep r.v.toNat ∧ (r.v.toNat = r.bytes → l = m)

/-- Two lists of answers to the requests `rs`, in order; answers that belong to no request are the same. -/
def sameAnswers : List ReadReq → List Lanes → List Lanes → Prop
  | r :: rs, l :: ls, m :: ms => sameAnswer r l m ∧ sameAnswers rs ls ms
  | _, ls, ms => ls = ms

theorem sameAnswers_refl (rs : List ReadReq) (ls : List Lanes) : sameAnswers rs ls ls := by
  induction rs generalizing ls with
  | nil => rfl
  | cons r rs ih => cases ls with
    | nil => rfl
    | cons l ls => exact ⟨⟨rfl, fun _ => rfl⟩, ih ls⟩

/-- After the same answers, answers to the requests that are left. -/
theorem sameAnswers_append (rs : List ReadReq) (as ls ms : List Lanes) (h : sameAnswers (rs.drop as.length) ls ms) :
    sameAnswers rs (as ++ ls) (as ++ ms) := by
  induction as generalizing rs with
  | nil => exact h
  | cons a as ih => cases rs with
    | nil =>
      obtain rfl : ls = ms := h
      rfl
    | cons r rs => exact ⟨⟨rfl, fun _ => rfl⟩, ih rs h⟩

/-- The valid lanes of an answer are the buffer's, whatever is drawn for the others (R68, R130). -/
theorem answerLanes_sameAnswer (s : State) (free free' : Word) (r : ReadReq) :
    sameAnswer r (answerLanes s free r) (answerLanes s free' r) := by
  have hlane : ∀ i, i < r.v.toNat → answerLane s free r i = answerLane s free' r i := fun i hi => by
    rw [answerLane, answerLane, if_pos hi, if_pos hi]
  refine ⟨?_, fun hwhole => ?_⟩
  · simp only [Lanes.keep, answerLanes, Lanes.mk.injEq]
    refine ⟨?_, ?_, ?_, ?_⟩ <;> (split <;> [exact hlane _ ‹_›; rfl])
  · have hall : ∀ i, answerLane s free r i = answerLane s free' r i := fun i => by
      by_cases hi : i < r.v.toNat
      · exact hlane i hi
      · have hb : ¬i < r.bytes := by omega
        rw [answerLane, answerLane, if_neg hi, if_neg hi, if_neg hb, if_neg hb]
    simp only [answerLanes, hall]

theorem answersFrom_sameAnswers (s : State) (k k' : Nat) (rs : List ReadReq) :
    sameAnswers rs (answersFrom s k rs) (answersFrom s k' rs) := by
  induction rs generalizing k k' with
  | nil => rfl
  | cons r rs ih => exact ⟨answerLanes_sameAnswer s _ _ r, ih _ _⟩

/-! ## What is made of such answers -/

theorem sameAnswers_whole (rs : List ReadReq) (hw : ∀ r ∈ rs, r.v.toNat = r.bytes) (ls ms : List Lanes)
    (h : sameAnswers rs ls ms) : ls = ms := by
  induction rs generalizing ls ms with
  | nil => exact h
  | cons r rs ih => cases ls with
    | nil => exact h
    | cons l ls => cases ms with
      | nil => exact h
      | cons m ms =>
        obtain ⟨⟨-, hlm⟩, hrest⟩ := h
        rw [hlm (hw r (by simp)), ih (fun q hq => hw q (by simp [hq])) ls ms hrest]

/-- The halfword and byte paths read no unspecified lane, and no path does in a whole block (R133, R134, R151). -/
theorem blockReads_whole (p : Path) (cur : Word) (n : Nat) (hp : p ≠ .W ∨ n = 12) (r : ReadReq)
    (hr : r ∈ blockReads p cur n) : r.v.toNat = r.bytes := by
  cases p with
  | W =>
    obtain rfl := hp.resolve_left (fun h => h rfl)
    simp only [blockReads, List.mem_map, List.mem_range] at hr
    obtain ⟨i, hi, rfl⟩ := hr
    rw [show min 4 (12 - 4 * i) = 4 by omega]
    rfl
  | H =>
    simp only [blockReads, List.mem_append, List.mem_map, List.mem_range] at hr
    rcases hr with ⟨i, -, rfl⟩ | hr
    · rfl
    · split at hr
      · obtain rfl := List.mem_singleton.1 hr
        rfl
      · cases hr
  | B =>
    simp only [blockReads, List.mem_map, List.mem_range] at hr
    obtain ⟨i, -, rfl⟩ := hr
    rfl

/-- On the word path a word is one answer, added under its mask (R137). -/
theorem composeWords_W_addends (ws : List (Word × Nat)) (hv : ∀ x ∈ ws, x.2 ≤ 4) (ls ms : List Lanes)
    (h : sameAnswers (readsOf .W ws) ls ms) :
    (composeWords .W ws ls).map (·.addend) = (composeWords .W ws ms).map (·.addend) := by
  induction ws generalizing ls ms with
  | nil => rfl
  | cons x ws ih =>
    obtain ⟨o, v⟩ := x
    have hv4 : v ≤ 4 := hv (o, v) (by simp)
    have hreq : (rd32Req o v).v.toNat = v := by
      show (BitVec.ofNat 3 v).toNat = v
      rw [BitVec.toNat_ofNat]
      omega
    have hrest := fun ls ms => ih (fun y hy => hv y (by simp [hy])) ls ms
    cases ls with
    | nil =>
      obtain rfl : [] = ms := h
      rfl
    | cons l ls => cases ms with
      | nil => cases h
      | cons m ms =>
        obtain ⟨⟨hkeep, -⟩, htail⟩ := h
        rw [hreq] at hkeep
        show (l.keep v).word :: _ = (m.keep v).word :: _
        rw [hkeep]
        exact congrArg _ (hrest ls ms htail)

/-- What a tail adds to the accumulators does not depend on the unspecified lanes (R165, R184, R204). -/
theorem composeWords_tail_addends (p : Path) (cur : Word) (n : Nat) (h1 : 1 ≤ n) (h12 : n ≤ 12) (ls ms : List Lanes)
    (h : sameAnswers (blockReads p cur n) ls ms) :
    (composeWords p (tailWords cur n) ls).map (·.addend) = (composeWords p (tailWords cur n) ms).map (·.addend) := by
  by_cases hp : p = .W
  · subst hp
    have hv : ∀ x ∈ tailWords cur n, x.2 ≤ 4 := by
      unfold tailWords
      split_ifs <;> simp <;> omega
    rw [← readsOf_tail .W cur n h1 h12] at h
    exact composeWords_W_addends _ hv ls ms h
  · rw [sameAnswers_whole _ (blockReads_whole p cur n (.inl hp)) ls ms h]

/-! ## Beside each other -/

/-- `s` with what a host access and the draws it shifts can change taken from `x`, and the inputs to come. -/
def withHostOf (x s : State) : State :=
  { s with
    fw := x.fw, w0 := x.w0, w1 := x.w1, w2 := x.w2, LEN := x.LEN, answers := x.answers, rdata := x.rdata,
    readData := x.readData, draws := x.draws, agenda := x.agenda }

/-- `t` stands in the job of `s`, as far in its operation as `s`, with the inputs `agenda` to come. -/
structure Beside (agenda : List Event) (s t : State) : Prop where
  frame : ∃ x, t = withHostOf x s
  answered : t.answers.length = s.answers.length
  inputs : t.agenda = agenda

/-- Reads that come to the same: both wait, or both have their answers. -/
def readsBeside (agenda : List Event) (rs : List ReadReq) : ReadOutcome (List Lanes) → ReadOutcome (List Lanes) → Prop
  | .waiting s, .waiting t => Beside agenda s t
  | .answered ls s, .answered ms t => sameAnswers rs ls ms ∧ Beside agenda s t
  | _, _ => False

/-- The first request not served is where a list is split. -/
theorem split_at_first {α : Type} (f : α → Bool) {pre pre' post post' : List α} {r r' : α}
    (h : pre ++ r :: post = pre' ++ r' :: post') (hpre : ∀ q ∈ pre, f q = true) (hpre' : ∀ q ∈ pre', f q = true)
    (hr : f r = false) (hr' : f r' = false) : pre = pre' ∧ r = r' := by
  have hsame : pre = pre' := by
    simpa [List.takeWhile_append_of_pos hpre, List.takeWhile_append_of_pos hpre', hr, hr'] using
      congrArg (List.takeWhile f) h
  subst hsame
  exact ⟨rfl, (List.cons.inj (List.append_cancel_left h)).1⟩

/-- The requests an operation still has to issue, from two states that have the same answers to the others. -/
theorem issueAll_beside (rs : List ReadReq) (x s : State) (hx : x.answers = s.answers) :
    readsBeside x.agenda rs (issueAll (rs.drop s.answers.length) s)
      (issueAll (rs.drop s.answers.length) (withHostOf x s)) := by
  generalize hqs : rs.drop s.answers.length = qs
  rcases issueAll_cases qs s with ⟨hs, es⟩ | ⟨pre, r, post, hd, hs, hr, es⟩ <;>
    rcases issueAll_cases qs (withHostOf x s) with ⟨ht, et⟩ | ⟨pre', r', post', hd', ht, hr', et⟩ <;>
    rw [es, et]
  · refine ⟨?_, ⟨afterReads qs (withHostOf x s), rfl⟩, rfl, rfl⟩
    show sameAnswers rs _ (x.answers ++ _)
    rw [hx, answersFrom_congr s (withHostOf x s) rfl]
    exact sameAnswers_append _ _ _ _ (hqs ▸ answersFrom_sameAnswers s _ _ qs)
  · exact absurd (hs r' (by simp [hd'])) (by rw [show s.serves r' = false from hr']; decide)
  · exact absurd (ht r (by simp [hd])) (by rw [show (withHostOf x s).serves r = false from hr]; decide)
  · obtain ⟨rfl, rfl⟩ := split_at_first s.serves (hd.symm.trans hd') hs ht hr hr'
    refine ⟨⟨waitingAt pre r (withHostOf x s), rfl⟩, ?_, rfl⟩
    show (x.answers ++ _).length = _
    simp [hx, waitingAt]

/-- An operation with the requests `rs` may go on from `s`: none of the sequencer's is outstanding, or the next of `rs`. -/
def mayGoOn (rs : List ReadReq) (s : State) : Prop :=
  ∀ r, s.rq = some r → s.rqAlone = false → rs[s.answers.length]? = some r

theorem readAll_beside_of_none (rs : List ReadReq) (x s : State) (hq : s.rq = none) (hx : x.answers = s.answers) :
    readsBeside x.agenda rs (readAll rs s) (readAll rs (withHostOf x s)) := by
  have hreads : ∀ u : State, u.rq = none → readAll rs u = issueAll (rs.drop u.answers.length) u := fun u hu => by
    simp only [readAll, receive, hu]
  rw [hreads s hq, hreads (withHostOf x s) hq, show (withHostOf x s).answers = s.answers from hx]
  exact issueAll_beside rs x s hx

/-- What the answer to a request run alone leaves. -/
def answeredAlone (r : ReadReq) (s : State) : State :=
  { s with
    rq := none, rqAlone := false, readLog := s.readLog ++ [r], draws := s.draws + 1, readData := memReadV s s.nextFree r }

theorem receive_alone (s : State) (r : ReadReq) (hq : s.rq = some r) (hs : s.serves r = true) (ha : s.rqAlone = true) :
    receive s = some (answeredAlone r s) := by
  simp only [receive, hq, hs, if_true, deliver, ha]
  rfl

/-- The reads of an operation, begun, taken up again, or behind a request run alone (R68). -/
theorem readAll_beside (rs : List ReadReq) (x s : State) (hgo : mayGoOn rs s) (hx : x.answers = s.answers) :
    readsBeside x.agenda rs (readAll rs s) (readAll rs (withHostOf x s)) := by
  rcases receive_cases s with ⟨hq, -⟩ | ⟨r, hq, hs, e⟩ | ⟨r, hq, hs, ha, -⟩ | ⟨r, hq, hs, ha, -⟩
  · exact readAll_beside_of_none rs x s hq hx
  · have e' : receive (withHostOf x s) = none := by
      simp [receive, show (withHostOf x s).rq = some r from hq, show (withHostOf x s).serves r = false from hs]
    rw [readAll_of_unserved rs s e, readAll_of_unserved rs _ e']
    exact ⟨⟨x, rfl⟩, congrArg List.length hx, rfl⟩
  · let y : State := { x with readData := memReadV (withHostOf x s) x.nextFree r, draws := x.draws + 1 }
    have e' := receive_alone (withHostOf x s) r hq hs ha
    rw [readAll_of_receive rs s _ (receive_alone s r hq hs ha), readAll_of_receive rs _ _ e']
    exact readAll_beside_of_none rs y (answeredAlone r s) rfl hx
  · have hnext : ∀ q, s.rq = some q → rs[s.answers.length]? = some q := fun q hq' => hgo q hq' ha
    rw [readAll_resumes rs s ha hnext, readAll_resumes rs (withHostOf x s) ha (hx ▸ hnext)]
    rw [show (withHostOf x s).answers = s.answers from hx]
    exact issueAll_beside rs x s hx

/-! ## The operations of the sequencer -/

/-- Both states' operations end in states beside each other. -/
def nextBeside (agenda : List Event) (i : Instr) (s t : State) : Prop :=
  ∃ s' t', exec i s = .next s' ∧ exec i t = .next t' ∧ Beside agenda s' t'

/-- What an operation of the sequencer is, where its requests are `rs` (R92). -/
inductive OperationReads (s : State) : Instr → List ReadReq → Prop
  | move (i : Instr) (hi : i ∈ [.wait, .seed, .adv, .f7, .emit]) : OperationReads s i []
  | innerStage (i : Instr) (hi : isInnerStage i) : OperationReads s i []
  | selectEmpty (h0 : s.N = 0#32) : OperationReads s .select []
  | tailEmpty (p : Path) : OperationReads s (tailInstr p 0) []
  | select (h0 : s.N ≠ 0#32) : OperationReads s .select [selectRead s.N.toNat]
  | absorb (p : Path) : OperationReads s (absorbInstr p) (blockReads p s.cur 12)
  | tail (p : Path) (n : Nat) (h1 : 1 ≤ n) (h12 : n ≤ 12) : OperationReads s (tailInstr p n) (blockReads p s.cur n)

theorem operationReads_of_seq {i : Instr} (hi : i.format = .seq) (s : State) : ∃ rs, OperationReads s i rs := by
  obtain ⟨d, hrow⟩ := seq_dispatchRow i hi
  cases hrow with
  | wait | seed | adv | f7 | emit => exact ⟨_, .move _ (by decide)⟩
  | select =>
    by_cases h0 : s.N = 0#32
    · exact ⟨_, .selectEmpty h0⟩
    · exact ⟨_, .select h0⟩
  | absorb p => exact ⟨_, .absorb p⟩
  | tail p n _ _ _ _ h12 =>
    by_cases h0 : n = 0
    · subst h0
      exact ⟨_, .tailEmpty p⟩
    · exact ⟨_, .tail p n (by omega) h12⟩
  | innerStage _ _ hin => exact ⟨_, .innerStage i hin⟩

/-- The operation the dispatch selects has the requests of the position. -/
theorem operationReads_of_dispatch {s : State} {i : Instr} (hd : decodeDispatch s.dispatch = .ok i) :
    OperationReads s i (positionReads s) := by
  cases decodeDispatch_standsAt hd with
  | wait _ hnone | seed _ hnone | adv _ hnone | f7 _ hnone | emit _ hnone => exact hnone ▸ .move _ (by decide)
  | selectEmpty _ h0 hnone => exact hnone ▸ .selectEmpty h0
  | select _ h0 hreads => exact hreads ▸ .select h0
  | absorb p _ _ _ hreads => exact hreads ▸ .absorb p
  | tail p _ _ h1 h12 hreads => exact hreads ▸ .tail p _ h1 h12
  | tailEmpty p _ hnone => exact hnone ▸ .tailEmpty p
  | innerStage _ _ hin hnone => exact hnone ▸ .innerStage i hin

section
variable {agenda : List Event} {x s : State} (hx : x.answers = s.answers) (hin : x.agenda = agenda)
include hx hin

/-- An operation that reads nothing looks at nothing in which the states differ. -/
theorem nextBeside_of_move {i : Instr} {v : State} (y : State) (hs : exec i s = .next v)
    (ht : exec i (withHostOf x s) = .next (withHostOf y v)) (hv : v.answers = s.answers)
    (hy : y.answers = x.answers ∧ y.agenda = x.agenda) : nextBeside agenda i s (withHostOf x s) := by
  obtain ⟨hans, hag⟩ := hy
  refine ⟨v, _, hs, ht, ⟨y, rfl⟩, ?_, hag.trans hin⟩
  show y.answers.length = _
  rw [hans, hx, hv]

/-- An operation that reads does the same with answers that agree. -/
theorem nextBeside_of_reads {i : Instr} {rs : List ReadReq} {fin : List Lanes → State → State} (hgo : mayGoOn rs s)
    (hs : exec i s = afterAnswers fin (readAll rs s))
    (ht : exec i (withHostOf x s) = afterAnswers fin (readAll rs (withHostOf x s)))
    (hfin : ∀ ls ms s' t', sameAnswers rs ls ms → Beside agenda s' t' → Beside agenda (fin ls s') (fin ms t')) :
    nextBeside agenda i s (withHostOf x s) := by
  have hreads := readAll_beside rs x s hgo hx
  rw [hin] at hreads
  unfold nextBeside
  rw [hs, ht]
  match readAll rs s, readAll rs (withHostOf x s), hreads with
  | .waiting s', .waiting t', hb => exact ⟨s', t', rfl, rfl, hb⟩
  | .answered ls s', .answered ms t', ⟨hsame, hb⟩ => exact ⟨_, _, rfl, rfl, hfin ls ms s' t' hsame hb⟩

end

/-- Words with the same addends leave states beside each other. -/
theorem addWords_beside {agenda : List Event} {ws ws' : List BlockWord} {s t : State} (ph : BitVec 3)
    (hw : ws.map (·.addend) = ws'.map (·.addend)) (h : Beside agenda s t) :
    Beside agenda { addWords ws s with ph := ph, st := 1#3 } { addWords ws' t with ph := ph, st := 1#3 } := by
  obtain ⟨⟨x, rfl⟩, hans, hin⟩ := h
  obtain ⟨-, hsans, -, -⟩ := addWords_leavesReader ws ph s
  obtain ⟨-, htans, -, htin⟩ := addWords_leavesReader ws' ph (withHostOf x s)
  have hacc : (addWords ws' (withHostOf x s)).acc = (addWords ws s).acc := by
    rw [addWords_acc, addWords_acc, hw]
    rfl
  refine ⟨⟨addWords ws' (withHostOf x s), ?_⟩, by rw [hsans, htans, hans], htin.trans hin⟩
  rw [addWords_frame ws', hacc, addWords_frame ws s]
  rfl

theorem selectWith_beside {agenda : List Event} {N : Nat} (hN : N ≠ 0) {ls ms : List Lanes} {s t : State}
    (hsame : sameAnswers [selectRead N] ls ms) (h : Beside agenda s t) :
    Beside agenda (selectWith ls s) (selectWith ms t) := by
  have hlane : firstLane ls = firstLane ms := by
    match ls, ms, hsame with
    | [], _, h => rw [← h]
    | _ :: _, [], h => cases h
    | l :: _, m :: _, ⟨⟨hkeep, _⟩, _⟩ =>
      obtain ⟨-, h1, -⟩ := selectRead_sized N hN
      have h0 := congrArg Lanes.l0 hkeep
      simp only [Lanes.keep] at h0
      rwa [if_pos (by omega), if_pos (by omega)] at h0
  obtain ⟨⟨x, rfl⟩, hans, hin⟩ := h
  refine ⟨⟨selectWith ms (withHostOf x s), ?_⟩, hans, hin⟩
  unfold selectWith
  rw [hlane]
  rfl

/-- Every operation of the sequencer, from states beside each other with the same answers so far (R292). -/
theorem exec_beside {agenda : List Event} {s t : State} {i : Instr} {rs : List ReadReq} (hi : OperationReads s i rs)
    (hgo : mayGoOn rs s) (h : Beside agenda s t) (ha : t.answers = s.answers) : nextBeside agenda i s t := by
  obtain ⟨⟨x, rfl⟩, -, hin⟩ := h
  cases hi with
  | move _ hi =>
    simp only [List.mem_cons, List.not_mem_nil, or_false] at hi
    rcases hi with rfl | rfl | rfl | rfl | rfl <;> exact nextBeside_of_move ha hin x rfl rfl rfl ⟨rfl, rfl⟩
  | innerStage _ hi =>
    simp only [isInnerStage, List.mem_cons, List.not_mem_nil, or_false] at hi
    rcases hi with rfl | rfl | rfl | rfl | rfl | rfl | rfl | rfl | rfl | rfl | rfl | rfl <;>
      exact nextBeside_of_move ha hin x rfl rfl rfl ⟨rfl, rfl⟩
  | selectEmpty h0 =>
    exact nextBeside_of_move ha hin { x with fw := 0#32 } (exec_selectEmpty s h0)
      (exec_selectEmpty (withHostOf x s) h0) rfl ⟨rfl, rfl⟩
  | tailEmpty p =>
    exact nextBeside_of_move ha hin x (exec_tailInstr_zero p s) (exec_tailInstr_zero p (withHostOf x s)) rfl ⟨rfl, rfl⟩
  | select h0 =>
    have hN : s.N.toNat ≠ 0 := fun e => h0 (BitVec.eq_of_toNat_eq e)
    exact nextBeside_of_reads ha hin hgo (exec_select_reads s h0) (exec_select_reads (withHostOf x s) h0)
      fun _ _ _ _ => selectWith_beside hN
  | absorb p =>
    refine nextBeside_of_reads ha hin hgo (exec_absorb_reads p s) (exec_absorb_reads p (withHostOf x s))
      fun ls ms _ _ hsame hb => addWords_beside 4#3 ?_ hb
    rw [sameAnswers_whole _ (blockReads_whole p s.cur 12 (.inr rfl)) ls ms hsame]
  | tail p n h1 h12 =>
    exact nextBeside_of_reads ha hin hgo (exec_tail_reads p n h1 h12 s) (exec_tail_reads p n h1 h12 (withHostOf x s))
      fun ls ms _ _ hsame => addWords_beside 5#3 (composeWords_tail_addends p s.cur n h1 h12 ls ms hsame)

/-! ## A host access between two operations -/

/-- While a job runs a host access changes at most `LEN` and what a host read returns: START is dropped (R235, R240). -/
theorem exec_host_busy (hw : BitVec 35) (s : State) (hbusy : s.BUSY = true) :
    ∃ LEN rdata draws, exec (decodeHost hw) s = .next { s with LEN := LEN, rdata := rdata, draws := draws } := by
  by_cases hs : decodeHost hw = .start
  · rw [hs]
    exact ⟨_, _, _, if_pos hbusy⟩
  · obtain ⟨LEN, rdata, draws, he, -⟩ := exec_host _ (decodeHost_format hw) hs s
    exact ⟨LEN, rdata, draws, he⟩

/-- Settles O35: the access leaves a state beside the one it was made in, and the operation keeps them so. -/
theorem hostAccessDoesNotDisturbARunningJob : Obligations.HostAccessDoesNotDisturbARunningJob := by
  intro s t u v hw i hbusy hi hreads ht hu hv
  obtain ⟨LEN, rdata, draws, he⟩ := exec_host_busy hw s hbusy
  obtain rfl := Host.Outcome.next.inj (ht.symm.trans he)
  have hop : ∃ rs, OperationReads s i rs ∧ mayGoOn rs s := by
    obtain ⟨rs, hrs⟩ := operationReads_of_seq hi s
    rcases hreads with hq | ha | ⟨hInv, hd⟩
    · exact ⟨rs, hrs, fun r hr => by cases hq.symm.trans hr⟩
    · exact ⟨rs, hrs, fun r _ hr => by cases ha.symm.trans hr⟩
    · exact ⟨_, operationReads_of_dispatch hd, hInv.underway.asked⟩
  obtain ⟨rs, hrs, hgo⟩ := hop
  have hbeside : Beside s.agenda s { s with LEN := LEN, rdata := rdata, draws := draws } :=
    ⟨⟨{ s with LEN := LEN, rdata := rdata, draws := draws }, rfl⟩, rfl, rfl⟩
  obtain ⟨v', u', hv', hu', ⟨x, hx⟩, hlen, -⟩ := exec_beside hrs hgo hbeside rfl
  obtain rfl := Host.Outcome.next.inj (hv.symm.trans hv')
  obtain rfl := Host.Outcome.next.inj (hu.symm.trans hu')
  subst hx
  exact ⟨rfl, rfl, rfl, rfl, rfl, rfl, rfl, rfl, rfl, rfl, rfl, rfl, hlen⟩

end Sys2Proof.Laws
end

section
/-! PROOFS. Host accesses between the operations of a job (R292): the job of a quiet machine is in progress for exactly its
`jobOps N` operations, and the machine the host disturbs goes through states beside its states. -/

namespace Sys2Proof.Laws

open Machine

/-! ## A job in progress -/

/-- Each of the next `k` operations begins between two reads and inside the job. -/
def inProgress (k : Nat) (u : State) : Prop := ∀ j < k, ∃ v, core.run j u = .next v ∧ Quiet v ∧ v.ph ≠ 0#3

theorem inProgress_one {u : State} (hq : Quiet u) (hph : u.ph ≠ 0#3) : inProgress 1 u := fun j hj => by
  obtain rfl : j = 0 := by omega
  exact ⟨u, rfl, hq, hph⟩

theorem inProgress_add {m n : Nat} {u v : State} (hu : inProgress m u) (hrun : core.run m u = .next v)
    (hv : inProgress n v) : inProgress (m + n) u := fun j hj => by
  by_cases hjm : j < m
  · exact hu j hjm
  · obtain ⟨i, rfl⟩ := Nat.exists_eq_add_of_le (Nat.le_of_not_lt hjm)
    obtain ⟨w, hw, hquiet⟩ := hv i (by omega)
    exact ⟨w, (run_add m i u v hrun).trans hw, hquiet⟩

theorem inProgress_next {k : Nat} {u v : State} (h : inProgress (k + 1) u) (hs : step u = .next v) : inProgress k v :=
  fun j hj => by
    obtain ⟨w, hw, hquiet⟩ := h (j + 1) (by omega)
    exact ⟨w, (run_succ j u v hs).symm.trans hw, hquiet⟩

/-- M1 to ADV, computed as in `run_mix`. -/
theorem inProgress_mix (u : State) (hq : Quiet u) (hp : u.ph = 4#3) (hs : u.st = 1#3) : inProgress 7 u := by
  obtain ⟨hr, hi, hrq, ha⟩ := hq
  cases u
  subst hp hs hr hi hrq ha
  intro j hj
  interval_cases j <;> exact ⟨_, rfl, ⟨rfl, rfl, rfl, rfl⟩, nofun⟩

/-- F1 to EMIT, computed as in `run_final`. -/
theorem inProgress_final (u : State) (hq : Quiet u) (hp : u.ph = 5#3) (hs : u.st = 1#3) : inProgress 8 u := by
  obtain ⟨hr, hi, hrq, ha⟩ := hq
  cases u
  subst hp hs hr hi hrq ha
  intro j hj
  interval_cases j <;> exact ⟨_, rfl, ⟨rfl, rfl, rfl, rfl⟩, nofun⟩

/-- The four operations of the empty job. -/
theorem inProgress_empty (u : State) (h : JobStart u) (h0 : u.N = 0#32) : inProgress 4 u := by
  obtain ⟨hp, hr, ⟨hrq, ha⟩, hi, -⟩ := h
  cases u
  subst hp hr hrq ha hi h0
  intro j hj
  interval_cases j <;> exact ⟨_, rfl, ⟨rfl, rfl, rfl, rfl⟩, nofun⟩

/-- SEED and SELECT. -/
theorem inProgress_opening (u : State) (h : JobStart u) : inProgress 2 u := by
  obtain ⟨hp, hr, ⟨hrq, ha⟩, hi, -⟩ := h
  cases u
  subst hp hr hrq ha hi
  intro j hj
  interval_cases j <;> exact ⟨_, rfl, ⟨rfl, rfl, rfl, rfl⟩, nofun⟩

/-- A block of the loop: ABSORB, M1 to M6, ADV. -/
theorem inProgress_block (s t : State) (q : Nat) (h : AtLoop s q t) (hs : s.N.toNat ≤ s.limit)
    (hq : 12 * q + 12 < s.N.toNat) : inProgress 8 t := by
  have hN := s.N.isLt
  have hcur := h.cur_toNat (by omega)
  have hgt : gt12 t.L = true := decide_eq_true (show 12 < t.L.toNat by rw [h.left_toNat (by omega)]; omega)
  obtain ⟨w0, w1, w2, he⟩ := absorb_fresh (jobPath s.bufByte s.N.toNat) t h.quiet (by omega) (by rw [h.limit]; omega)
  have hd := decodeDispatch_absorb _ t.dispatch h.phase h.path hgt
  exact inProgress_add (inProgress_one h.quiet (by rw [h.phase]; decide))
    (run_exec 0 t _ _ h.quiet hd ((exec_absorbInstr _ t).trans he))
    (inProgress_mix _ (bytesAdded_quiet _ 12 4#3 w0 w1 w2 t h.quiet) rfl rfl)

/-- The end of the job: TAIL, F1 to F7, EMIT. -/
theorem inProgress_exit (s t : State) (q : Nat) (h : AtLoop s q t) (hs : s.N.toNat ≤ s.limit) (h1 : 12 * q < s.N.toNat)
    (h12 : s.N.toNat ≤ 12 * q + 12) : inProgress 9 t := by
  have hN := s.N.isLt
  have hcur := h.cur_toNat (by omega)
  have hL := h.left_toNat (by omega)
  have hgt : t.dispatch.gt12 = false := decide_eq_false (show ¬12 < t.L.toNat by omega)
  have hl4 := ((dispatch_L t).2 hgt).trans hL
  obtain ⟨w0, w1, w2, he⟩ := tail_fresh (jobPath s.bufByte s.N.toNat) (s.N.toNat - 12 * q) t (by omega) (by omega) h.quiet
    (by omega) (by rw [h.limit]; omega)
  have hd := decodeDispatch_tail _ _ (by omega) t.dispatch h.phase h.path hgt hl4
  exact inProgress_add (inProgress_one h.quiet (by rw [h.phase]; decide))
    (run_exec 0 t _ _ h.quiet hd ((exec_tailInstr _ _ (by omega) (by omega) t).trans he))
    (inProgress_final _ (bytesAdded_quiet _ _ 5#3 w0 w1 w2 t h.quiet) rfl rfl)

theorem inProgress_blocks (s : State) (h : JobStart s) (q : Nat) (hq : 12 * q < s.N.toNat) :
    inProgress (2 + 8 * q) s := by
  induction q with
  | zero => exact inProgress_opening s h
  | succ q ih =>
    obtain ⟨t, hrun, ht⟩ := job_adds_blocks s h q (by omega)
    exact inProgress_add (m := 2 + 8 * q) (ih (by omega)) hrun (inProgress_block s t q ht h.served (by omega))

/-- A job that has just been started is in progress until its last operation (R93, R231). -/
theorem job_inProgress (s : State) (h : JobStart s) : inProgress (jobOps s.N.toNat) s := by
  by_cases h0 : s.N = 0#32
  · rw [h0]
    exact inProgress_empty s h h0
  · have hN : s.N.toNat ≠ 0 := fun e => h0 (BitVec.eq_of_toNat_eq e)
    let q := (s.N.toNat - 1) / 12
    obtain ⟨t, hrun, ht⟩ := job_adds_blocks s h q (by omega)
    have hops : jobOps s.N.toNat = 2 + 8 * q + 9 := by rw [jobOps, if_neg hN]; omega
    rw [hops]
    exact inProgress_add (inProgress_blocks s h q (by omega)) hrun (inProgress_exit s t q ht h.served (by omega) (by omega))

/-! ## The job beside the one the host disturbs -/

/-- A host access takes one step, which leaves `digest` and the inputs behind it (R240). -/
theorem runHost_next (hw : BitVec 35) (s : State) :
    ∃ t, runHost hw s = .next t ∧ t.digest = s.digest ∧ t.agenda = s.agenda := by
  cases hr : s.rst with
  | true =>
    obtain ⟨rdata, draws, he, -⟩ := runHost_inReset hr hw
    exact ⟨_, he, rfl, rfl⟩
  | false =>
    rw [runHost_eq hr]
    by_cases hs : decodeHost hw = .start
    · rw [hs]
      obtain ⟨hidle, hbusy⟩ := startBeginsAJobOnlyWhenIdle.2 s
      cases hb : s.BUSY with
      | false => exact ⟨_, hidle hb, rfl, rfl⟩
      | true => exact ⟨_, hbusy hb, rfl, rfl⟩
    · obtain ⟨LEN, rdata, draws, he, -⟩ := exec_host _ (decodeHost_format hw) hs s
      exact ⟨_, he, rfl, rfl⟩

/-- Host accesses alone leave `digest` as it is, whether or not they start another job. -/
theorem hosts_keep_digest (l : List Event) (t : State) (ha : t.agenda = l) (hl : ∀ e ∈ l, ∃ hw, e = .host hw) :
    ∃ t', core.run l.length t = .next t' ∧ t'.digest = t.digest := by
  induction l generalizing t with
  | nil => exact ⟨t, rfl, rfl⟩
  | cons e l ih =>
    obtain ⟨hw, rfl⟩ := hl e (by simp)
    obtain ⟨u, hu, hdigest, hagenda⟩ := runHost_next hw { t with agenda := l }
    obtain ⟨t', hrun, hsame⟩ := ih u hagenda fun e he => hl e (by simp [he])
    exact ⟨t', (run_succ l.length t u ((step_of_input ha).trans hu)).trans hrun, hsame.trans hdigest⟩

/-- A step of the quiet machine is the operation the dispatch selects (R92). -/
theorem quiet_step {u v : State} (hq : Quiet u) (hs : step u = .next v) :
    ∃ i, decodeDispatch u.dispatch = .ok i ∧ exec i u = .next v := by
  rw [step_of_noInput hq.noInput] at hs
  cases hd : decodeDispatch u.dispatch with
  | ok i => exact ⟨i, rfl, (runSequencer_ok hq.noReset hd).symm.trans hs⟩
  | error e => cases (runSequencer_error hq.noReset hd).symm.trans hs

/-- Only EMIT ends a job, and it leads to IDLE (R228). -/
theorem exec_seq_busy {i : Instr} {u v : State} (hi : i.format = .seq) (he : exec i u = .next v) (hph : v.ph ≠ 0#3) :
    v.BUSY = u.BUSY := by
  have hstart : i ≠ .start := by
    rintro rfl
    cases hi
  by_cases hemit : i = .emit
  · subst hemit
    cases he
    exact absurd rfl hph
  · exact ((writesListed_seq i hi u v he).status hemit hstart).1

section
variable {u t : State} {l : List Event}

/-- A host access leaves the disturbed job beside the quiet one. -/
theorem host_step_beside {hw : BitVec 35} (hq : Quiet u) (hbusy : u.BUSY = true) (h : Beside (.host hw :: l) u t) :
    ∃ t', step t = .next t' ∧ Beside l u t' := by
  obtain ⟨⟨x, rfl⟩, hans, hin⟩ := h
  let y : State := { x with agenda := l }
  obtain ⟨LEN, rdata, draws, he⟩ := exec_host_busy hw (withHostOf y u) hbusy
  have hstep := (step_of_host (s := withHostOf x u) hq.noReset hin).trans he
  exact ⟨_, hstep, ⟨{ y with LEN := LEN, rdata := rdata, draws := draws }, rfl⟩, hans, rfl⟩

/-- The sequencer's move is the quiet job's next operation. -/
theorem sequencer_step_beside {v : State} (hq : Quiet u) (hs : step u = .next v) (h : Beside (.sequencer :: l) u t) :
    ∃ t', step t = .next t' ∧ Beside l v t' := by
  obtain ⟨⟨x, rfl⟩, hans, hin⟩ := h
  let y : State := { x with agenda := l }
  obtain ⟨i, hd, he⟩ := quiet_step hq hs
  have hno : y.answers = u.answers := by
    rw [hq.noAnswers] at hans ⊢
    exact List.length_eq_zero_iff.1 hans
  have hgo : mayGoOn (positionReads u) u := fun r hr => by cases hq.noRead.symm.trans hr
  obtain ⟨v', t', hv', ht', hb⟩ :=
    exec_beside (agenda := l) (operationReads_of_dispatch hd) hgo ⟨⟨y, rfl⟩, hans, rfl⟩ hno
  obtain rfl := Host.Outcome.next.inj (he.symm.trans hv')
  have hrun := (runSequencer_ok (s := withHostOf y u) hq.noReset hd).trans ht'
  exact ⟨t', (step_of_input hin).trans hrun, hb⟩

end

/-- What is left of the job's operations, with host accesses between them, gives the quiet job's digest. -/
theorem interleaved_digest (l : List Event) {k : Nat} {u w t : State} (hl : ∀ e ∈ l, e = .sequencer ∨ ∃ hw, e = .host hw)
    (hk : l.count .sequencer = k) (hjob : inProgress k u) (hbusy : 0 < k → u.BUSY = true) (hw : core.run k u = .next w)
    (h : Beside l u t) : ∃ t', core.run l.length t = .next t' ∧ t'.digest = w.digest := by
  induction l generalizing k u t with
  | nil =>
    subst hk
    obtain rfl := Host.Outcome.next.inj hw
    obtain ⟨⟨x, rfl⟩, -, -⟩ := h
    exact ⟨_, rfl, rfl⟩
  | cons e l ih =>
    have hl' : ∀ e ∈ l, e = .sequencer ∨ ∃ hw, e = .host hw := fun e' he => hl e' (by simp [he])
    cases k with
    | zero =>
      obtain rfl := Host.Outcome.next.inj hw
      have hhosts : ∀ e' ∈ e :: l, ∃ hw, e' = .host hw := fun e' he =>
        (hl e' he).resolve_left fun hseq => List.count_eq_zero.1 hk (hseq ▸ he)
      obtain ⟨⟨x, rfl⟩, -, hin⟩ := h
      exact hosts_keep_digest (e :: l) _ hin hhosts
    | succ k =>
      obtain ⟨u', hu', hq, -⟩ := hjob 0 (by omega)
      obtain rfl := Host.Outcome.next.inj hu'
      rcases hl e (by simp) with rfl | ⟨hw', rfl⟩
      · obtain ⟨v, hs, hrest⟩ := run_succ_inv hw
        obtain ⟨t₁, ht₁, hb⟩ := sequencer_step_beside hq hs h
        have hjob' := inProgress_next hjob hs
        have hbusy' : 0 < k → v.BUSY = true := fun hpos => by
          obtain ⟨v', hv', -, hph⟩ := hjob' 0 hpos
          obtain rfl := Host.Outcome.next.inj hv'
          obtain ⟨i, hd, he⟩ := quiet_step hq hs
          rw [exec_seq_busy (decodeDispatch_format _ i hd) he hph]
          exact hbusy (by omega)
        obtain ⟨t', hrun, hdigest⟩ := ih hl' (by simpa using hk) hjob' hbusy' hrest hb
        exact ⟨t', (run_succ l.length t t₁ ht₁).trans hrun, hdigest⟩
      · obtain ⟨t₁, ht₁, hb⟩ := host_step_beside hq (hbusy (by omega)) h
        obtain ⟨t', hrun, hdigest⟩ := ih hl' (by simpa using hk) hjob hbusy hw hb
        exact ⟨t', (run_succ l.length t t₁ ht₁).trans hrun, hdigest⟩

/-- Settles O55: the job of the same state without inputs ends with the digest, and the disturbed one goes beside it. -/
theorem digestDoesNotDependOnTheInterleaving : Obligations.DigestDoesNotDependOnTheInterleaving := by
  intro s hbusy hstart hl hcount
  let u : State := { s with agenda := [] }
  obtain ⟨w, hw, hend⟩ := job_ends u hstart
  have hbeside : Beside s.agenda u s := ⟨⟨s, rfl⟩, rfl, rfl⟩
  obtain ⟨t, hrun, hdigest⟩ :=
    interleaved_digest (u := u) s.agenda hl hcount (job_inProgress u hstart) (fun _ => hbusy) hw hbeside
  exact ⟨t, hrun, hdigest.trans hend.digest⟩

end Sys2Proof.Laws
end
